-- ==== Sys2Proof/Word.lean ====
section
/-! DEFINITION. The word types, the channel names and the coefficient 5-tuple. -/

namespace Sys2Proof

/-- A register, bus or sample word: 32 bits (00_scope.md R7). -/
abbrev Word := BitVec 32

/-- One byte lane of a word (20_memory.md R64). -/
abbrev Byte := BitVec 8

/-- The two channels, left = 0 and right = 1 (00_scope.md R12). -/
inductive Channel where
  | left
  | right
deriving DecidableEq, Repr, Inhabited

/-- The channel's number c ∈ {0, 1} (00_scope.md R12). -/
def Channel.index : Channel → Nat
  | .left => 0
  | .right => 1

/-- The five coefficients of a biquad with a0 = 1 (10_state.md R32, 40_designer.md). -/
structure Coeffs where
  b0 : Word
  b1 : Word
  b2 : Word
  a1 : Word
  a2 : Word
deriving DecidableEq, Repr, Inhabited

/-- (1, 0, 0, 0, 0): the neutral coefficients (00_scope.md R14). -/
def Coeffs.neutral : Coeffs := ⟨0x3F800000, 0, 0, 0, 0⟩

end Sys2Proof
end

