-- ==== Sys2Proof/Config.lean ====
section
/-! DEFINITION. The implementation parameters of 00_scope.md R8, the constants of the map, and the free values.

The parameters are a record that every State carries (no step changes it), so that a claim about every state is a claim
about every instance. The opaque constants have no body: nothing can be proved about their values. -/

namespace Sys2Proof

/-- BUILD_MODE (00_scope.md R8). -/
inductive BuildMode where
  | release
  | debug
deriving DecidableEq, Repr

/-- DENORMAL_MODE (00_scope.md R8, 42_datapath.md R178). -/
inductive DenormalMode where
  | ieee
  | ftz
deriving DecidableEq, Repr

/-- SNAP_TO_ZERO (00_scope.md R8, 42_datapath.md R179). -/
inductive SnapToZero where
  | off
  | on
deriving DecidableEq, Repr

/-- DESIGN_ARITH: the `exact` reference of 40_designer.md R123, or a function the implementation supplies. -/
inductive DesignArith where
  | exact
  | supplied
deriving DecidableEq, Repr

/-- The named parameters of 00_scope.md R8 that one instance fixes. CMD_LATENCY is the place of the event `complete` among
the host's events, NAN_RESULT is `Config.nanDraw`. -/
structure Params where
  base         : Nat
  bufCap       : Nat
  buildMode    : BuildMode
  denormalMode : DenormalMode
  snapToZero   : SnapToZero
  designArith  : DesignArith
deriving DecidableEq, Repr

/-- The reference values of 00_scope.md R8. -/
def Params.reference : Params :=
  { base := 0, bufCap := 4096, buildMode := .release, denormalMode := .ieee, snapToZero := .off, designArith := .exact }

/-- The length of the window (20_memory.md R61). -/
def Config.windowBytes : Nat := 0x30000

/-- The constant of the ID register (10_state.md R28). -/
def Config.idWord : Word := 0x45510001

/-- The largest BUF_CAP (00_scope.md R8). -/
def Config.maxBufCap : Nat := 16384

/-- NAN_RESULT, a free value (42_datapath.md R180, 00_scope.md R8): sign and low 22 fraction bits of the quiet NaN that an
operation gives, for the sample time, channel, slot and operation (0 to 8) of 42_datapath.md R170 at which it arises. -/
opaque Config.nanDraw (time channel slot op : Nat) : BitVec 23

/-- DESIGN_ARITH = supplied (40_designer.md R123): the implementation's peak design, a free function of the inputs of
40_designer.md R125 (ACT_RATE, PKF, PKQ, PKG). -/
opaque Config.suppliedPeak (rate freq q gainDb : Word) : Coeffs

/-- DESIGN_ARITH = supplied: section k of the implementation's highpass cascade (40_designer.md R127). -/
opaque Config.suppliedHighpass (freq rate : Word) (order k : Nat) : Coeffs

/-- DESIGN_ARITH = supplied: section k of the implementation's lowpass cascade (40_designer.md R128). -/
opaque Config.suppliedLowpass (freq rate : Word) (order k : Nat) : Coeffs

/-- The sign of round32(0), a free value: 00_scope.md R10 gives the nearest value and not which zero (assumption 10). -/
opaque Config.roundedZeroSign : Bool

end Sys2Proof
end

