-- ==== Sys2Proof/Syntax.lean ====
section
/-! DEFINITION. The commands of EQCORE: one constructor per row of spec/opcode_table.json (30_encoding.md R91). -/

namespace Sys2Proof

/-- A decoded command. The other operands of a command are registers (30_encoding.md R92). -/
inductive Instr where
  /-- NOP, 43_engine.md R202. -/
  | nop
  /-- PREPARE, 43_engine.md R205. -/
  | prepare
  /-- UPDATE, 43_engine.md R206. -/
  | update
  /-- PROCESS N, 43_engine.md R207; `count` is N (30_encoding.md R92). -/
  | process (count : Nat)
deriving DecidableEq, Repr, Inhabited

/-- Why a command word is illegal (30_encoding.md R93), or why bytes hold no word at all. -/
inductive Illegal where
  /-- RSV, bits 15:4, is not 0. -/
  | reservedField
  /-- N, bits 31:16, is not 0 and the opcode is not PROCESS. -/
  | countNotAllowed
  /-- OP is one of 0x4 to 0xF. -/
  | reservedOpcode
  /-- Fewer than four bytes. -/
  | truncated
deriving DecidableEq, Repr

/-- What the decoder answers: `Command | Illegal` of 30_encoding.md R94. -/
inductive Decoded where
  | command (i : Instr)
  | illegal (why : Illegal)
deriving DecidableEq, Repr

end Sys2Proof
end

