-- ==== Sys2Proof/WellFormed.lean ====
section
/-! DEFINITION. The checks on terms: which commands have an encoding, and which parameter values make an instance. -/

namespace Sys2Proof

/-- A command has an encoding: the count of PROCESS fits its 16-bit field, 0 ≤ N ≤ 65535 (30_encoding.md R92). -/
def Instr.wellFormed : Instr → Bool
  | .nop => true
  | .prepare => true
  | .update => true
  | .process count => decide (count < 65536)

/-- The domains of 00_scope.md R8: BASE is 4-byte aligned and 1 ≤ BUF_CAP ≤ 16384. The model does not build any other
instance (60_exceptions.md R247). -/
def Params.wellFormed (p : Params) : Bool :=
  decide (p.base % 4 = 0) && decide (1 ≤ p.bufCap) && decide (p.bufCap ≤ Config.maxBufCap)

end Sys2Proof
end

