-- ==== Sys2Proof/Decode.lean ====
section
/-! DEFINITION. The decoder of command words (30_encoding.md R94) and the encoder (R90, R91). -/

namespace Sys2Proof

/-- `v[hi:lo]` as a number (00_scope.md R9). -/
def bitField (w : Word) (hi lo : Nat) : Nat := w.toNat / 2 ^ lo % 2 ^ (hi - lo + 1)

/-- 30_encoding.md R94: total on all 2^32 words. -/
def decode (w : Word) : Decoded :=
  if bitField w 15 4 ≠ 0 then .illegal .reservedField
  else if bitField w 3 0 = 3 then .command (.process (bitField w 31 16))
  else if bitField w 31 16 ≠ 0 then .illegal .countNotAllowed
  else if bitField w 3 0 = 0 then .command .nop
  else if bitField w 3 0 = 1 then .command .prepare
  else if bitField w 3 0 = 2 then .command .update
  else .illegal .reservedOpcode

/-- The word whose byte lanes are b0 (bits 7:0) to b3 (bits 31:24) (20_memory.md R64). -/
def wordOfBytes (b0 b1 b2 b3 : Byte) : Word :=
  BitVec.ofNat 32 (b0.toNat + 2 ^ 8 * b1.toNat + 2 ^ 16 * b2.toNat + 2 ^ 24 * b3.toNat)

/-- Byte lane k of a word: bits 8k+7 : 8k (20_memory.md R64). -/
def byteOfWord (w : Word) (k : Nat) : Byte := BitVec.ofNat 8 (w.toNat / 2 ^ (8 * k))

/-- Decoding of any bytes: one command word, lowest address first, and the bytes after it. -/
def decodeBytes : List Byte → Decoded × List Byte
  | b0 :: b1 :: b2 :: b3 :: rest => (decode (wordOfBytes b0 b1 b2 b3), rest)
  | rest => (.illegal .truncated, rest)

/-- The word of a command (30_encoding.md R90, R91). -/
def encode : Instr → Word
  | .nop => 0x00000000
  | .prepare => 0x00000001
  | .update => 0x00000002
  | .process count => BitVec.ofNat 32 (count * 2 ^ 16 + 3)

/-- The four bytes of a command word, lowest address first (20_memory.md R64). -/
def encodeBytes (i : Instr) : List Byte :=
  [byteOfWord (encode i) 0, byteOfWord (encode i) 1, byteOfWord (encode i) 2, byteOfWord (encode i) 3]

/-- The command word whose low `nbits` bits are those of w, and whose other bits are 0. -/
def tableWord (nbits w : Nat) : Word := BitVec.ofNat 32 (w % 2 ^ nbits)

/-- The instruction the decoder reads from a row of spec/opcode_table.json: every row is one 32-bit word. -/
def decodeTableWord (nbits w : Nat) : Option Instr :=
  match (decodeBytes [byteOfWord (tableWord nbits w) 0, byteOfWord (tableWord nbits w) 1,
      byteOfWord (tableWord nbits w) 2, byteOfWord (tableWord nbits w) 3]).1 with
  | .command i => some i
  | .illegal _ => none

end Sys2Proof
end

