-- ==== Sys2Proof/Machine/F32.lean ====
section
/-! DEFINITION. IEEE 754 binary32 data and the operations ⊕ ⊖ ⊗ of 00_scope.md R10.

Every finite datum is an integer number of units of 2^-149. A magnitude (bits 30:0 read as a number) is written as the
number of units it stands for, sums and products are exact numbers of units, and one rounding function brings them back. -/

namespace Sys2Proof.Machine.F32

/-- Bit 31. -/
def sign (x : Word) : Bool := decide (2 ^ 31 ≤ x.toNat)

/-- Bits 30:0: biased exponent and fraction. -/
def mag (x : Word) : Nat := x.toNat % 2 ^ 31

/-- The magnitude of infinity: exponent field 255, fraction 0. -/
def infMag : Nat := 0x7F800000

def isNaN (x : Word) : Bool := decide (infMag < mag x)

def isInf (x : Word) : Bool := decide (mag x = infMag)

def isFinite (x : Word) : Bool := decide (mag x < infMag)

def isZero (x : Word) : Bool := decide (mag x = 0)

/-- Exponent field 0 and fraction not 0. -/
def isSubnormal (x : Word) : Bool := decide (0 < mag x) && decide (mag x < 2 ^ 23)

/-- How many units of 2^-149 a magnitude stands for. Exponent field e and fraction f give f for e = 0 and
(2^23 + f) * 2^(e-1) otherwise. For the magnitude of infinity it is above that of every finite datum, so that comparing
units orders the infinities beyond the finite values (43_engine.md R204). -/
def magUnits (m : Nat) : Nat :=
  if m < 2 ^ 23 then m else (2 ^ 23 + m % 2 ^ 23) * 2 ^ (m / 2 ^ 23 - 1)

/-- The value of a datum that is not NaN, in units of 2^-149. -/
def units (x : Word) : Int := if sign x then -(magUnits (mag x) : Int) else (magUnits (mag x) : Int)

/-- The datum with this sign and magnitude. -/
def pack (negative : Bool) (m : Nat) : Word := BitVec.ofNat 32 (m + if negative then 2 ^ 31 else 0)

/-- The same magnitude with the other sign. -/
def neg (x : Word) : Word := pack (!sign x) (mag x)

/-- The quiet NaN with a given sign (bit 22 of the draw) and low fraction bits (bits 21:0 of the draw). -/
def quietNaN (draw : BitVec 23) : Word := pack (decide (2 ^ 22 ≤ draw.toNat)) (0x7FC00000 + draw.toNat % 2 ^ 22)

/-- The integer nearest the quotient, ties to even. -/
def roundQuot (num den : Nat) : Nat :=
  if 2 * (num % den) < den then num / den
  else if den < 2 * (num % den) then num / den + 1
  else num / den + num / den % 2

/-- The binade above 2^24 units in which num/den lies: 0 below 2^24, and k where 2^(23+k) ≤ num/den < 2^(24+k). -/
def binade (num den : Nat) : Nat := Nat.log2 (num / den) - 23

/-- Rounding to nearest, ties to even (00_scope.md R10): the magnitude of the datum nearest num/den units. In binade k the
data are the multiples of 2^k units, and k * 2^23 plus the rounded multiple is the magnitude; what would lie past the
greatest finite magnitude is infinity. -/
def roundMag (num den : Nat) : Nat :=
  min (binade num den * 2 ^ 23 + roundQuot num (den * 2 ^ binade num den)) infMag

/-- DENORMAL_MODE (42_datapath.md R178): with `ftz` a subnormal becomes a zero of the same sign. -/
def flush : DenormalMode → Word → Word
  | .ieee, x => x
  | .ftz, x => if isSubnormal x then pack (sign x) 0 else x

/-- The exact sum of two finite data, rounded once. An exact zero is -0 only if both operands are negative (of two zeros of
the same sign), and +0 otherwise. -/
def addFinite (x y : Word) : Word :=
  if units x + units y = 0 then pack (sign x && sign y) 0
  else pack (decide (units x + units y < 0)) (roundMag (units x + units y).natAbs 1)

/-- IEEE addition without flushing; `draw` is the quiet NaN's free part. -/
def addIeee (draw : BitVec 23) (x y : Word) : Word :=
  if isNaN x || isNaN y then quietNaN draw
  else if isInf x then (if isInf y && (sign x != sign y) then quietNaN draw else x)
  else if isInf y then y
  else addFinite x y

/-- IEEE multiplication without flushing; `draw` is the quiet NaN's free part. -/
def mulIeee (draw : BitVec 23) (x y : Word) : Word :=
  if isNaN x || isNaN y then quietNaN draw
  else if (isInf x && isZero y) || (isZero x && isInf y) then quietNaN draw
  else if isInf x || isInf y then pack (sign x != sign y) infMag
  else pack (sign x != sign y) (roundMag (magUnits (mag x) * magUnits (mag y)) (2 ^ 149))

/-- x ⊕ y (00_scope.md R10, 42_datapath.md R178). -/
def add (m : DenormalMode) (draw : BitVec 23) (x y : Word) : Word :=
  flush m (addIeee draw (flush m x) (flush m y))

/-- x ⊖ y: the sum with the negated operand. -/
def sub (m : DenormalMode) (draw : BitVec 23) (x y : Word) : Word := add m draw x (neg y)

/-- x ⊗ y (00_scope.md R10, 42_datapath.md R178). -/
def mul (m : DenormalMode) (draw : BitVec 23) (x y : Word) : Word :=
  flush m (mulIeee draw (flush m x) (flush m y))

/-- x < y as values, infinities beyond every finite value, false when either is NaN (43_engine.md R204, 42_datapath.md R179). -/
def lt (x y : Word) : Bool := !isNaN x && !isNaN y && decide (units x < units y)

/-- round32 of the real n / den · 2^-149 (00_scope.md R10). R10 says only which value is nearest, so it leaves open which of the two
zeros stands where that value is 0. For the exact real 0 the sign is a free value (assumption 10). For a nonzero real too small
for binary32 it is the real's own sign: DESIGN CHOICE, as IEEE 754 rounding has it (assumption 15). -/
def roundReal (n : Int) (den : Nat) : Word :=
  if n = 0 then pack Config.roundedZeroSign 0 else pack (decide (n < 0)) (roundMag n.natAbs den)

end Sys2Proof.Machine.F32
end

