-- ==== Sys2Proof/Machine/State.lean ====
section
/-! DEFINITION. The state of EQCORE as plain data, the reasons a step can stop, and the state after reset.

Every field is named in INVENTORY.md with the rule of spec/ that gives it. -/

namespace Sys2Proof.Machine

/-- The command-sequencer phase (10_state.md R21). -/
inductive Phase where
  | idle
  | busy
deriving DecidableEq, Repr

/-- The CAUSE codes that are ever recorded (30_encoding.md R99), in the order of their numbers 0 to 10. -/
inductive Cause where
  | none
  | notPrepared
  | rateInvalid
  | maxBlockInvalid
  | blockTooLong
  | slopeRange
  | freqRange
  | qRange
  | gainRange
  | settingNan
  | aboveNyquist
deriving DecidableEq, Repr

/-- The fields of STATUS that are stored (10_state.md R27); BUSY is the phase, and the reserved bits hold nothing. -/
structure Status where
  prepared   : Bool
  fault      : Bool
  errIllegal : Bool
  errBusy    : Bool
  errClamp   : Bool
  errFail    : Bool
  cause      : Cause
deriving DecidableEq, Repr

/-- The names of the seven settings fields (10_state.md R22), in register order. -/
inductive Field where
  | lcf
  | lcs
  | hcf
  | hcs
  | pkf
  | pkq
  | pkg
deriving DecidableEq, Repr

/-- Seven settings words: the registers of 10_state.md R22, the SNAP_ registers of R26, or a command's snapshot (43_engine.md
R203). -/
structure Settings where
  lcf : Word
  lcs : Word
  hcf : Word
  hcs : Word
  pkf : Word
  pkq : Word
  pkg : Word
deriving DecidableEq, Repr

/-- One biquad stage (10_state.md R32). -/
structure Stage where
  coeffs : Coeffs
  s1     : Word
  s2     : Word
  byp    : Bool
deriving DecidableEq, Repr

/-- The peak stage: its bypass flag is hard-wired to 0 (10_state.md R33), so it stores none. -/
structure PeakStage where
  coeffs : Coeffs
  s1     : Word
  s2     : Word
deriving DecidableEq, Repr

/-- A SlopeCascade: exactly four stages, stage 0 nearest the input (41_cascade.md R150). -/
structure Cascade where
  stage0 : Stage
  stage1 : Stage
  stage2 : Stage
  stage3 : Stage
deriving DecidableEq, Repr

/-- One channel's FilterChain (10_state.md R30, R31): slots 0..3, slot 4, slots 5..8. -/
structure Chain where
  lowCut  : Cascade
  peak    : PeakStage
  highCut : Cascade
deriving DecidableEq, Repr

/-- The hidden state of the sequencer while BUSY (10_state.md R29, 43_engine.md R200). -/
structure Pending where
  cmd      : Instr
  settings : Settings
  rate     : Word
  maxBlock : Word
deriving DecidableEq, Repr

/-- Sample memory: (window offset, byte) cells with strictly rising offsets. A byte that is not listed is `unwritten`
(10_state.md R36). -/
abbrev Memory := List Host.Cell

/-- The places of the register map (20_memory.md R62). -/
inductive Reg where
  | cmd
  | status
  | sampleRate
  | maxBlock
  | actRate
  | actMax
  | id
  | cap
  | setting (f : Field)
  | snap (f : Field)
  /-- Word `word` of `stage[c][slot]` (30_encoding.md R100). -/
  | stage (c : Channel) (slot : Fin 9) (word : Fin 8)
  /-- BUF[c][index]. -/
  | buffer (c : Channel) (index : Nat)
deriving DecidableEq, Repr

/-- What happens outside the command sequencer, one event a step. -/
inductive HostEvent where
  /-- MemWrite(addr, size, value) (20_memory.md R60). -/
  | write (addr size : Nat) (value : Word)
  /-- MemRead(addr, size) (20_memory.md R60). -/
  | read (addr size : Nat)
  /-- CMD_LATENCY ends: the command in progress, if any, completes here (43_engine.md R201). -/
  | complete
  /-- The reset input is asserted and released (70_reset_and_hazards.md R270). -/
  | reset
deriving DecidableEq, Repr

/-- Everything the spec gives the machine, and three fields of the model's own (the last three). -/
structure State where
  params     : Params
  phase      : Phase
  pend       : Pending
  settings   : Settings
  sampleRate : Word
  maxBlock   : Word
  actRate    : Word
  actMax     : Word
  snap       : Settings
  status     : Status
  left       : Chain
  right      : Chain
  mem        : Memory
  events     : List HostEvent
  returned   : List Word
  drawClock  : Nat
deriving DecidableEq, Repr

/-- The model faults of 60_exceptions.md R247: a run that reaches one is not continued. Each is safe: no claim about a next
state holds of such a step. -/
inductive Fault where
  /-- Raised by a host access: misaligned, not 4 bytes, or not a mapped offset (20_memory.md R63). Safe. -/
  | busError
  /-- Raised by a host access to a buffer, STG, ACT_ or SNAP_ place while BUSY (20_memory.md R71). Safe. -/
  | hostRace
  /-- Raised by a host read of a never-written buffer word, and by PROCESS when one of the words it would read was never written
  (10_state.md R36). Safe. -/
  | unwritten
deriving DecidableEq, Repr

/-- Why the model gives no meaning. -/
inductive Refusal where
  /-- Raised by exec's arm of a command that has no meaning yet. Safe. -/
  | notModelled (mnemonic : String)
  /-- Raised by step for an instance outside the domains of 00_scope.md R8 (60_exceptions.md R247, `refuse`). Safe. -/
  | outsideParameterDomain
deriving DecidableEq, Repr

/-- The settings' reset values (10_state.md R22): 20 Hz, 0, 20 kHz, 0, 750 Hz, 1.0, 0 dB. -/
def Settings.reset : Settings :=
  { lcf := 0x41A00000, lcs := 0, hcf := 0x469C4000, hcs := 0, pkf := 0x443B8000, pkq := 0x3F800000, pkg := 0 }

/-- STATUS at reset: every flag 0, CAUSE 0 (10_state.md R27). -/
def Status.reset : Status :=
  { prepared := false, fault := false, errIllegal := false, errBusy := false, errClamp := false, errFail := false,
    cause := .none }

/-- A stage at reset with its bypass flag (10_state.md R32). -/
def Stage.reset (byp : Bool) : Stage := { coeffs := Coeffs.neutral, s1 := 0, s2 := 0, byp := byp }

/-- A cascade at reset: stage 0 enabled, the others bypassed (10_state.md R32). -/
def Cascade.reset : Cascade :=
  { stage0 := Stage.reset false, stage1 := Stage.reset true, stage2 := Stage.reset true, stage3 := Stage.reset true }

/-- A chain at reset (10_state.md R32, R33). -/
def Chain.reset : Chain :=
  { lowCut := Cascade.reset, peak := { coeffs := Coeffs.neutral, s1 := 0, s2 := 0 }, highCut := Cascade.reset }

/-- `pend` at reset. The spec leaves it undefined while IDLE and reads it nowhere (70_reset_and_hazards.md R271).
DESIGN CHOICE, assumption 3. -/
def Pending.reset : Pending := { cmd := .nop, settings := Settings.reset, rate := 0, maxBlock := 0 }

/-- The instance with these parameters right after reset (70_reset_and_hazards.md R271). -/
def State.resetOf (p : Params) : State :=
  { params := p, phase := .idle, pend := Pending.reset, settings := Settings.reset, sampleRate := 0,
    maxBlock := BitVec.ofNat 32 p.bufCap, actRate := 0, actMax := 0, snap := Settings.reset, status := Status.reset,
    left := Chain.reset, right := Chain.reset, mem := [], events := [], returned := [], drawClock := 0 }

/-- The reference instance (00_scope.md R8) right after reset. -/
def State.reset : State := State.resetOf Params.reference

end Sys2Proof.Machine
end

