-- ==== Sys2Proof/Machine/Ops.lean ====
section
/-! DEFINITION. The named operations over sample memory, settings, stages and chains, and the two ways a command ends on a
violation: `fail` and `raise Fault` (60_exceptions.md R244, R245). -/

namespace Sys2Proof.Machine

namespace Memory

/-- One byte, or none where it was never written (10_state.md R36). -/
def readByte : Memory → Nat → Option Byte
  | [], _ => none
  | (k, b) :: rest, a => if k = a then some b else readByte rest a

/-- Write one byte, keeping the offsets strictly rising. -/
def writeByte : Memory → Nat → Byte → Memory
  | [], a, b => [(a, b)]
  | (k, v) :: rest, a, b =>
    if a < k then (a, b) :: (k, v) :: rest
    else if k = a then (a, b) :: rest
    else (k, v) :: writeByte rest a b

/-- All offsets of the list lie above `a`, and rise. -/
def risingAbove : Nat → Memory → Bool
  | _, [] => true
  | a, (k, _) :: rest => decide (a < k) && risingAbove k rest

/-- The canonical form: offsets strictly rising. An unlisted byte reads as nothing, so no entry can equal what an unlisted
offset reads as. -/
def wf : Memory → Bool
  | [] => true
  | (k, _) :: rest => risingAbove k rest

/-- The little-endian word at an offset (20_memory.md R64), or none where a byte of it was never written. -/
def readWord (m : Memory) (a : Nat) : Option Word :=
  match readByte m a, readByte m (a + 1), readByte m (a + 2), readByte m (a + 3) with
  | some b0, some b1, some b2, some b3 => some (wordOfBytes b0 b1 b2 b3)
  | _, _, _, _ => none

/-- Write a little-endian word (20_memory.md R64). -/
def writeWord (m : Memory) (a : Nat) (w : Word) : Memory :=
  writeByte (writeByte (writeByte (writeByte m a (byteOfWord w 0)) (a + 1) (byteOfWord w 1)) (a + 2) (byteOfWord w 2)) (a + 3)
    (byteOfWord w 3)

/-- The words at a, a + 4, …, `count` of them, or none where one is unwritten. -/
def readBlock (m : Memory) (a : Nat) : Nat → Option (List Word)
  | 0 => some []
  | count + 1 =>
    match readWord m a, readBlock m (a + 4) count with
    | some w, some ws => some (w :: ws)
    | _, _ => none

/-- Write words at a, a + 4, …. -/
def writeBlock (m : Memory) (a : Nat) : List Word → Memory
  | [] => m
  | w :: ws => writeBlock (writeWord m a w) (a + 4) ws

end Memory

/-- The window offset of BUF[c][i] (20_memory.md R62). -/
def bufferOffset (c : Channel) (i : Nat) : Nat := 0x10000 + 0x10000 * c.index + 4 * i

namespace Settings

def get (s : Settings) : Field → Word
  | .lcf => s.lcf
  | .lcs => s.lcs
  | .hcf => s.hcf
  | .hcs => s.hcs
  | .pkf => s.pkf
  | .pkq => s.pkq
  | .pkg => s.pkg

def set (s : Settings) (f : Field) (v : Word) : Settings :=
  match f with
  | .lcf => { s with lcf := v }
  | .lcs => { s with lcs := v }
  | .hcf => { s with hcf := v }
  | .hcs => { s with hcs := v }
  | .pkf => { s with pkf := v }
  | .pkq => { s with pkq := v }
  | .pkg => { s with pkg := v }

end Settings

/-- The peak stage as a stage: its bypass flag reads 0 (10_state.md R33). -/
def PeakStage.toStage (k : PeakStage) : Stage := { coeffs := k.coeffs, s1 := k.s1, s2 := k.s2, byp := false }

/-- A stage's contents into the peak stage: the bypass flag is not stored (10_state.md R33). -/
def PeakStage.ofStage (st : Stage) : PeakStage := { coeffs := st.coeffs, s1 := st.s1, s2 := st.s2 }

namespace Cascade

/-- Stage k of a cascade, k ∈ 0..3. -/
def get (c : Cascade) (k : Fin 4) : Stage :=
  match k with
  | 0 => c.stage0
  | 1 => c.stage1
  | 2 => c.stage2
  | 3 => c.stage3

def set (c : Cascade) (k : Fin 4) (st : Stage) : Cascade :=
  match k with
  | 0 => { c with stage0 := st }
  | 1 => { c with stage1 := st }
  | 2 => { c with stage2 := st }
  | 3 => { c with stage3 := st }

end Cascade

namespace Chain

/-- Slot j of a chain (10_state.md R31): 0..3 low-cut, 4 peak, 5..8 high-cut. -/
def get (ch : Chain) (j : Fin 9) : Stage :=
  match j with
  | 0 => ch.lowCut.stage0
  | 1 => ch.lowCut.stage1
  | 2 => ch.lowCut.stage2
  | 3 => ch.lowCut.stage3
  | 4 => ch.peak.toStage
  | 5 => ch.highCut.stage0
  | 6 => ch.highCut.stage1
  | 7 => ch.highCut.stage2
  | 8 => ch.highCut.stage3

/-- Write slot j; what is written to the bypass flag of slot 4 is discarded (10_state.md R33). -/
def set (ch : Chain) (j : Fin 9) (st : Stage) : Chain :=
  match j with
  | 0 => { ch with lowCut := ch.lowCut.set 0 st }
  | 1 => { ch with lowCut := ch.lowCut.set 1 st }
  | 2 => { ch with lowCut := ch.lowCut.set 2 st }
  | 3 => { ch with lowCut := ch.lowCut.set 3 st }
  | 4 => { ch with peak := PeakStage.ofStage st }
  | 5 => { ch with highCut := ch.highCut.set 0 st }
  | 6 => { ch with highCut := ch.highCut.set 1 st }
  | 7 => { ch with highCut := ch.highCut.set 2 st }
  | 8 => { ch with highCut := ch.highCut.set 3 st }

/-- The slots in signal order (10_state.md R31). -/
def slots : List (Fin 9) := [0, 1, 2, 3, 4, 5, 6, 7, 8]

/-- Apply a function to every slot of a list. -/
def updateSlots (f : Stage → Stage) : List (Fin 9) → Chain → Chain
  | [], ch => ch
  | j :: js, ch => updateSlots f js (ch.set j (f (ch.get j)))

/-- Apply a function to every slot. -/
def mapStages (f : Stage → Stage) (ch : Chain) : Chain := updateSlots f slots ch

end Chain

namespace State

/-- The chain of a channel. -/
def chain (s : State) : Channel → Chain
  | .left => s.left
  | .right => s.right

/-- Write the chain of a channel. -/
def setChain (s : State) (c : Channel) (ch : Chain) : State :=
  match c with
  | .left => { s with left := ch }
  | .right => { s with right := ch }

/-- `stage[c][j]` (10_state.md R32). -/
def stage (s : State) (c : Channel) (j : Fin 9) : Stage := (s.chain c).get j

/-- Apply a function to all 18 stages. -/
def mapStages (f : Stage → Stage) (s : State) : State :=
  { s with left := s.left.mapStages f, right := s.right.mapStages f }

end State

/-- The end of a command that completes: `phase <- IDLE` (43_engine.md R201). -/
def endCommand (s : State) : State := { s with phase := .idle }

/-- `fail(code)` (60_exceptions.md R244). -/
def failCommand (code : Cause) (s : State) : State :=
  endCommand { s with status := { s.status with errFail := true, cause := code } }

/-- `raise Fault(code)` (60_exceptions.md R245): nothing is saved and no handler exists (R249). -/
def raiseFault (code : Cause) (s : State) : State :=
  endCommand { s with status := { s.status with fault := true, cause := code } }

/-- A violation of a check that does not clamp: debug builds fault, release builds fail (30_encoding.md R99). -/
def violate (code : Cause) (s : State) : State :=
  match s.params.buildMode with
  | .debug => raiseFault code s
  | .release => failCommand code s

/-- The reset input (70_reset_and_hazards.md R270): every state element of the spec takes its reset value, a command in progress
is abandoned. The instance's parameters and the model's own fields are kept (assumption 2). -/
def resetMachine (s : State) : State :=
  { State.resetOf s.params with events := s.events, returned := s.returned, drawClock := s.drawClock }

end Sys2Proof.Machine
end

