-- ==== Sys2Proof/Machine/Flags.lean ====
section
/-! DEFINITION. STATUS: its layout, its write-1-to-clear, and the flags that single events set (30_encoding.md R98, 20_memory.md
R67). -/

namespace Sys2Proof.Machine

/-- The CAUSE code's number (30_encoding.md R99). -/
def Cause.code : Cause → Nat
  | .none => 0
  | .notPrepared => 1
  | .rateInvalid => 2
  | .maxBlockInvalid => 3
  | .blockTooLong => 4
  | .slopeRange => 5
  | .freqRange => 6
  | .qRange => 7
  | .gainRange => 8
  | .settingNan => 9
  | .aboveNyquist => 10

/-- A flag at a bit position. -/
def flagBit (set : Bool) (position : Nat) : Nat := if set then 2 ^ position else 0

/-- The word a read of STATUS returns (30_encoding.md R98). Bits 3 and 31:12 read 0. -/
def statusWord (phase : Phase) (st : Status) : Word :=
  BitVec.ofNat 32
    (flagBit (decide (phase = .busy)) 0 + flagBit st.prepared 1 + flagBit st.fault 2 + flagBit st.errIllegal 4
      + flagBit st.errBusy 5 + flagBit st.errClamp 6 + flagBit st.errFail 7 + 2 ^ 8 * st.cause.code)

/-- A STATUS write (20_memory.md R67): clear each of bits 4 to 7 whose bit in v is 1. -/
def clearFlags (v : Word) (st : Status) : Status :=
  { st with
    errIllegal := st.errIllegal && !(v.getLsbD 4)
    errBusy := st.errBusy && !(v.getLsbD 5)
    errClamp := st.errClamp && !(v.getLsbD 6)
    errFail := st.errFail && !(v.getLsbD 7) }

/-- 60_exceptions.md R242. -/
def setErrIllegal (s : State) : State := { s with status := { s.status with errIllegal := true } }

/-- 60_exceptions.md R243. -/
def setErrBusy (s : State) : State := { s with status := { s.status with errBusy := true } }

/-- ERR_CLAMP is set by a successful command that clamped, and otherwise left alone (43_engine.md R206). -/
def recordClamp (clamped : Bool) (st : Status) : Status :=
  { st with errClamp := st.errClamp || clamped }

end Sys2Proof.Machine
end

