-- ==== Sys2Proof/Machine/Operands.lean ====
section
/-! DEFINITION. Where a command's operands come from: the snapshot at acceptance, and its validation (43_engine.md R203, R204). -/

namespace Sys2Proof.Machine

/-- Whether a settings field holds an f32 (and not a slope index) (10_state.md R22). -/
def Field.isFloat : Field → Bool
  | .lcs => false
  | .hcs => false
  | _ => true

/-- `limits` of 43_engine.md R204: lo, hi and the code of a value outside. -/
def Field.limits : Field → Word × Word × Cause
  | .lcf => (0x41A00000, 0x469C4000, .freqRange)
  | .hcf => (0x41A00000, 0x469C4000, .freqRange)
  | .pkf => (0x41A00000, 0x469C4000, .freqRange)
  | .lcs => (0, 3, .slopeRange)
  | .hcs => (0, 3, .slopeRange)
  | .pkq => (0x3DCCCCCD, 0x41200000, .qRange)
  | .pkg => (0xC1C00000, 0x41C00000, .gainRange)

/-- a < b as values of a field: f32 as reals with infinities beyond, slope indices as naturals (43_engine.md R204). -/
def Field.lt (f : Field) (a b : Word) : Bool :=
  if f.isFloat then F32.lt a b else decide (a.toNat < b.toNat)

/-- What the check of one field says. -/
inductive FieldCheck where
  | keep
  | clamp (v : Word)
  | fail (code : Cause)
  | fault (code : Cause)
deriving DecidableEq, Repr

/-- `viol(code)` of 43_engine.md R204 as a field check. -/
def FieldCheck.violation (mode : BuildMode) (code : Cause) : FieldCheck :=
  match mode with
  | .debug => .fault code
  | .release => .fail code

/-- One turn of the first loop of 43_engine.md R204. -/
def checkField (mode : BuildMode) (f : Field) (v : Word) : FieldCheck :=
  if f.isFloat && F32.isNaN v then FieldCheck.violation mode .settingNan
  else if f.lt v f.limits.1 then
    (match mode with
     | .debug => .fault f.limits.2.2
     | .release => .clamp f.limits.1)
  else if f.lt f.limits.2.1 v then
    (match mode with
     | .debug => .fault f.limits.2.2
     | .release => .clamp f.limits.2.1)
  else .keep

/-- The result of validation (43_engine.md R204). -/
inductive Validation where
  | ok (settings : Settings) (clamped : Bool)
  | fail (code : Cause)
  | fault (code : Cause)
deriving DecidableEq, Repr

/-- The first loop of 43_engine.md R204, over the fields still to check. -/
def checkFields (mode : BuildMode) : List Field → Settings → Bool → Validation
  | [], settings, clamped => .ok settings clamped
  | f :: rest, settings, clamped =>
    match checkField mode f (settings.get f) with
    | .keep => checkFields mode rest settings clamped
    | .clamp v => checkFields mode rest (settings.set f v) true
    | .fail code => .fail code
    | .fault code => .fault code

/-- The register order of 60_exceptions.md R246. -/
def Field.inOrder : List Field := [.lcf, .lcs, .hcf, .hcs, .pkf, .pkq, .pkg]

/-- The exact check 2·f ≥ R (43_engine.md R204). -/
def atOrAboveNyquist (freq rate : Word) : Bool := decide (F32.units rate ≤ 2 * F32.units freq)

/-- `validate` (43_engine.md R204): range checks and clamps in register order, then the Nyquist checks on the sanitized values. -/
def validate (settings : Settings) (rate : Word) (mode : BuildMode) : Validation :=
  match checkFields mode Field.inOrder settings false with
  | .ok sane clamped =>
    if atOrAboveNyquist sane.lcf rate || atOrAboveNyquist sane.hcf rate || atOrAboveNyquist sane.pkf rate then
      (match mode with
       | .debug => .fault .aboveNyquist
       | .release => .fail .aboveNyquist)
    else .ok sane clamped
  | .fail code => .fail code
  | .fault code => .fault code

/-- PREPARE's check of the sample rate: not NaN, finite, above 0 (43_engine.md R205). -/
def rateAcceptable (r : Word) : Bool := !F32.isNaN r && F32.isFinite r && decide (0 < F32.units r)

/-- PREPARE's check of the block size: 1 ≤ m ≤ BUF_CAP (43_engine.md R205). -/
def maxBlockAcceptable (p : Params) (m : Word) : Bool := decide (m.toNat ≠ 0) && decide (m.toNat ≤ p.bufCap)

/-- What acceptance latches: the command, the snapshot of the seven settings (43_engine.md R203), SAMPLE_RATE and MAX_BLOCK
(R200). -/
def latchOperands (i : Instr) (s : State) : Pending :=
  { cmd := i, settings := s.settings, rate := s.sampleRate, maxBlock := s.maxBlock }

end Sys2Proof.Machine
end

