-- ==== Sys2Proof/Machine/Bus.lean ====
section
/-! DEFINITION. Host bus accesses (20_memory.md) and command acceptance (43_engine.md R200). -/

namespace Sys2Proof.Machine

/-- The registers below offset 0x400 (20_memory.md R62). -/
def controlRegAt (offset : Nat) : Option Reg :=
  if offset = 0x000 then some .cmd
  else if offset = 0x004 then some .status
  else if offset = 0x008 then some .sampleRate
  else if offset = 0x00C then some .maxBlock
  else if offset = 0x010 then some .actRate
  else if offset = 0x014 then some .actMax
  else if offset = 0x018 then some .id
  else if offset = 0x01C then some .cap
  else if offset = 0x020 then some (.setting .lcf)
  else if offset = 0x024 then some (.setting .lcs)
  else if offset = 0x028 then some (.setting .hcf)
  else if offset = 0x02C then some (.setting .hcs)
  else if offset = 0x030 then some (.setting .pkf)
  else if offset = 0x034 then some (.setting .pkq)
  else if offset = 0x038 then some (.setting .pkg)
  else if offset = 0x040 then some (.snap .lcf)
  else if offset = 0x044 then some (.snap .lcs)
  else if offset = 0x048 then some (.snap .hcf)
  else if offset = 0x04C then some (.snap .hcs)
  else if offset = 0x050 then some (.snap .pkf)
  else if offset = 0x054 then some (.snap .pkq)
  else if offset = 0x058 then some (.snap .pkg)
  else none

/-- The stage readback word at a byte offset into STG0 or STG1: 0x20·j + 4w, j ∈ 0..8 (20_memory.md R70). -/
def stageWordAt (c : Channel) (offset : Nat) : Option Reg :=
  if h : offset / 0x20 < 9 then
    some (.stage c ⟨offset / 0x20, h⟩ ⟨offset % 0x20 / 4, by omega⟩)
  else none

/-- BUF[c][i], i < BUF_CAP, at a byte offset into the buffer's half of the window (20_memory.md R62). -/
def bufferWordAt (p : Params) (c : Channel) (offset : Nat) : Option Reg :=
  if offset / 4 < p.bufCap then some (.buffer c (offset / 4)) else none

/-- The register map of 20_memory.md R62, at a word-aligned offset; none where the offset is unmapped. -/
def regAt (p : Params) (offset : Nat) : Option Reg :=
  if offset < 0x400 then controlRegAt offset
  else if offset < 0x600 then stageWordAt .left (offset - 0x400)
  else if offset < 0x800 then stageWordAt .right (offset - 0x600)
  else if offset < 0x10000 then none
  else if offset < 0x20000 then bufferWordAt p .left (offset - 0x10000)
  else if offset < Config.windowBytes then bufferWordAt p .right (offset - 0x20000)
  else none

/-- The place an access reaches, or none for a bus error (20_memory.md R63): misaligned, not 4 bytes, or unmapped. -/
def target (p : Params) (addr size : Nat) : Option Reg :=
  if size = 4 && addr % 4 = 0 && p.base ≤ addr then regAt p (addr - p.base) else none

/-- The places the host must not access while BUSY (20_memory.md R71). -/
def Reg.closedWhileBusy : Reg → Bool
  | .actRate => true
  | .actMax => true
  | .snap _ => true
  | .stage _ _ _ => true
  | .buffer _ _ => true
  | .cmd => false
  | .status => false
  | .sampleRate => false
  | .maxBlock => false
  | .id => false
  | .cap => false
  | .setting _ => false

/-- Word w of a stage (30_encoding.md R100). -/
def stageWord (st : Stage) (w : Fin 8) : Word :=
  match w with
  | 0 => st.coeffs.b0
  | 1 => st.coeffs.b1
  | 2 => st.coeffs.b2
  | 3 => st.coeffs.a1
  | 4 => st.coeffs.a2
  | 5 => st.s1
  | 6 => st.s2
  | 7 => if st.byp then 1 else 0

/-- What a read returns; none for a buffer word that was never written (20_memory.md R62, R65, R69, R70). -/
def readReg (s : State) : Reg → Option Word
  | .cmd => some 0
  | .status => some (statusWord s.phase s.status)
  | .sampleRate => some s.sampleRate
  | .maxBlock => some s.maxBlock
  | .actRate => some s.actRate
  | .actMax => some s.actMax
  | .id => some Config.idWord
  | .cap => some (BitVec.ofNat 32 s.params.bufCap)
  | .setting f => some (s.settings.get f)
  | .snap f => some (s.snap.get f)
  | .stage c j w => some (stageWord (s.stage c j) w)
  | .buffer c i => s.mem.readWord (bufferOffset c i)

/-- Acceptance of a decoded command (43_engine.md R200). -/
def acceptCommand (i : Instr) (s : State) : State := { s with phase := .busy, pend := latchOperands i s }

/-- A CMD write (43_engine.md R200, 60_exceptions.md R246): ignored in the fault state, dropped while BUSY, recorded if illegal,
accepted otherwise. -/
def writeCommand (w : Word) (s : State) : State :=
  if s.status.fault then s
  else if s.phase = .busy then setErrBusy s
  else
    match decode w with
    | .illegal _ => setErrIllegal s
    | .command i => acceptCommand i s

/-- What a write does to the place it reaches (20_memory.md R65 to R69). A read-only place ignores it. -/
def writeReg (s : State) (r : Reg) (v : Word) : State :=
  match r with
  | .cmd => writeCommand v s
  | .status => { s with status := clearFlags v s.status }
  | .sampleRate => { s with sampleRate := v }
  | .maxBlock => { s with maxBlock := v }
  | .setting f => { s with settings := s.settings.set f v }
  | .buffer c i => { s with mem := s.mem.writeWord (bufferOffset c i) v }
  | .actRate => s
  | .actMax => s
  | .id => s
  | .cap => s
  | .snap _ => s
  | .stage _ _ _ => s

/-- The places and times of a host access that end the run (60_exceptions.md R247). The closed places are closed while BUSY
(20_memory.md R71) and open from the completion step on; what an access between completion and the first STATUS read that shows
BUSY = 0 does, which 20_memory.md R74 and 70_reset_and_hazards.md R276 promise nothing about, is DESIGN CHOICE (assumption 17). -/
def accessTarget (s : State) (addr size : Nat) : Except Fault Reg :=
  match target s.params addr size with
  | none => .error .busError
  | some r => if s.phase = .busy && r.closedWhileBusy then .error .hostRace else .ok r

/-- MemRead (20_memory.md R60): the word goes to the host; nothing else changes (R73). -/
def hostRead (addr size : Nat) (s : State) : Host.Outcome State Fault Refusal :=
  match accessTarget s addr size with
  | .error f => .fault f
  | .ok r =>
    match readReg s r with
    | some v => .next { s with returned := v :: s.returned }
    | none => .fault .unwritten

/-- MemWrite (20_memory.md R60). -/
def hostWrite (addr size : Nat) (v : Word) (s : State) : Host.Outcome State Fault Refusal :=
  match accessTarget s addr size with
  | .error f => .fault f
  | .ok r => .next (writeReg s r v)

end Sys2Proof.Machine
end

