-- ==== Sys2Proof/Machine/Cascade.lean ====
section
/-! DEFINITION. SlopeCascade.assign (41_cascade.md R151). -/

namespace Sys2Proof.Machine

/-- "1. Mark all 4 stages bypassed." -/
def Cascade.bypassAll (c : Cascade) : Cascade :=
  { stage0 := { c.stage0 with byp := true }
    stage1 := { c.stage1 with byp := true }
    stage2 := { c.stage2 with byp := true }
    stage3 := { c.stage3 with byp := true } }

/-- Assign coefficients to one stage and mark it not bypassed; the delay elements are not written (41_cascade.md R153). -/
def Stage.enableWith (coeffs : Coeffs) (st : Stage) : Stage := { st with coeffs := coeffs, byp := false }

/-- The body of the descending loop for stage k: coefficients[k] to stage k, then not bypassed. A missing entry (the length
precondition of 41_cascade.md R155 excludes it) leaves the stage alone. -/
def Cascade.enable (coeffs : List Coeffs) (k : Fin 4) (c : Cascade) : Cascade :=
  match coeffs[k.val]? with
  | some x => c.set k ((c.get k).enableWith x)
  | none => c

/-- "2. Starting from the stage index equal to order_index and counting down to 0". An order index outside 0..3 never reaches
assign (41_cascade.md R154); it would enable all four stages. -/
def Cascade.enableDown (coeffs : List Coeffs) : Nat → Cascade → Cascade
  | 0, c => c.enable coeffs 0
  | 1, c => (c.enable coeffs 1).enable coeffs 0
  | 2, c => ((c.enable coeffs 2).enable coeffs 1).enable coeffs 0
  | _, c => (((c.enable coeffs 3).enable coeffs 2).enable coeffs 1).enable coeffs 0

/-- assign(oi, coeffs) on one cascade (41_cascade.md R151). -/
def Cascade.assign (oi : Nat) (coeffs : List Coeffs) (c : Cascade) : Cascade := c.bypassAll.enableDown coeffs oi

/-- The peak stage's coefficients are replaced, its delay elements are not (43_engine.md R206 step 1). -/
def PeakStage.assign (coeffs : Coeffs) (k : PeakStage) : PeakStage := { k with coeffs := coeffs }

/-- Steps 1 to 3 of 43_engine.md R206 on one channel. -/
def Chain.assign (peak : Coeffs) (lowOrder : Nat) (low : List Coeffs) (highOrder : Nat) (high : List Coeffs) (ch : Chain) :
    Chain :=
  { lowCut := ch.lowCut.assign lowOrder low
    peak := ch.peak.assign peak
    highCut := ch.highCut.assign highOrder high }

end Sys2Proof.Machine
end

