-- ==== Sys2Proof/Machine/Datapath.lean ====
section
/-! DEFINITION. The per-sample datapath and the FilterChain (42_datapath.md). A `draw` argument supplies the free part of the
quiet NaN that an operation may give (R180). -/

namespace Sys2Proof.Machine

/-- The values of one stageStep (42_datapath.md R170) in their order of evaluation; none of the operations is fused. -/
def stageStep (m : DenormalMode) (draw : Nat → BitVec 23) (st : Stage) (x : Word) : Stage × Word :=
  let y := F32.add m (draw 1) (F32.mul m (draw 0) st.coeffs.b0 x) st.s1
  let t := F32.sub m (draw 4) (F32.mul m (draw 2) st.coeffs.b1 x) (F32.mul m (draw 3) st.coeffs.a1 y)
  let n1 := F32.add m (draw 5) t st.s2
  let n2 := F32.sub m (draw 8) (F32.mul m (draw 6) st.coeffs.b2 x) (F32.mul m (draw 7) st.coeffs.a2 y)
  ({ st with s1 := n1, s2 := n2 }, y)

/-- A stage's turn for one sample: a bypassed stage is skipped (42_datapath.md R172). -/
def stageTurn (m : DenormalMode) (draw : Nat → BitVec 23) (st : Stage) (x : Word) : Stage × Word :=
  if st.byp then (st, x) else stageStep m draw st x

/-- The inner loop of chainProcess (42_datapath.md R174): the samples i, i+1, … through one enabled stage, in place. -/
def runStage (m : DenormalMode) (draw : Nat → Nat → BitVec 23) (st : Stage) : Nat → List Word → Stage × List Word
  | _, [] => (st, [])
  | i, x :: xs =>
    ((runStage m draw (stageStep m (draw i) st x).1 (i + 1) xs).1,
     (stageStep m (draw i) st x).2 :: (runStage m draw (stageStep m (draw i) st x).1 (i + 1) xs).2)

/-- A stage's turn for a block (42_datapath.md R172, R174). -/
def blockTurn (m : DenormalMode) (draw : Nat → Nat → BitVec 23) (st : Stage) (xs : List Word) : Stage × List Word :=
  if st.byp then (st, xs) else runStage m draw st 0 xs

/-- The outer loop of chainProcess over the slots still to run. -/
def runSlots (m : DenormalMode) (draw : Nat → Nat → Nat → BitVec 23) : List (Fin 9) → Chain → List Word → Chain × List Word
  | [], ch, xs => (ch, xs)
  | j :: js, ch, xs =>
    runSlots m draw js (ch.set j (blockTurn m (draw j.val) (ch.get j) xs).1) (blockTurn m (draw j.val) (ch.get j) xs).2

/-- chainProcess (42_datapath.md R174), stage-major: the words BUF[c][0..N-1] as a list. -/
def chainProcess (m : DenormalMode) (draw : Nat → Nat → Nat → BitVec 23) (ch : Chain) (xs : List Word) :
    Chain × List Word :=
  runSlots m draw Chain.slots ch xs

/-- One sample through the slots still to run. -/
def stepSlots (m : DenormalMode) (draw : Nat → Nat → BitVec 23) : List (Fin 9) → Chain → Word → Chain × Word
  | [], ch, x => (ch, x)
  | j :: js, ch, x =>
    stepSlots m draw js (ch.set j (stageTurn m (draw j.val) (ch.get j) x).1) (stageTurn m (draw j.val) (ch.get j) x).2

/-- chainStep (42_datapath.md R173): one sample through a chain. -/
def chainStep (m : DenormalMode) (draw : Nat → Nat → BitVec 23) (ch : Chain) (x : Word) : Chain × Word :=
  stepSlots m draw Chain.slots ch x

/-- The sample-major loop of 42_datapath.md R175, from sample i on. PROCESS does not use it. -/
def chainProcessBySample (m : DenormalMode) (draw : Nat → Nat → Nat → BitVec 23) (ch : Chain) :
    Nat → List Word → Chain × List Word
  | _, [] => (ch, [])
  | i, x :: xs =>
    ((chainProcessBySample m draw (chainStep m (fun j => draw j i) ch x).1 (i + 1) xs).1,
     (chainStep m (fun j => draw j i) ch x).2
       :: (chainProcessBySample m draw (chainStep m (fun j => draw j i) ch x).1 (i + 1) xs).2)

/-- The free NaN draws of one channel in a block that begins at a given sample time. -/
def channelDraws (clock : Nat) (c : Channel) (slot i op : Nat) : BitVec 23 := Config.nanDraw (clock + i) c.index slot op

/-- T = round32(1.0e-8) (42_datapath.md R179). -/
def snapThreshold : Word := 0x322BCC77

/-- One value of the state snap (42_datapath.md R179): +0.0 unless s < -T or s > T, so a NaN becomes +0.0. -/
def snapValue (v : Word) : Word :=
  if F32.lt v (F32.neg snapThreshold) || F32.lt snapThreshold v then v else 0

/-- The state snap of one stage; a bypassed stage is left alone. -/
def snapStage (st : Stage) : Stage :=
  if st.byp then st else { st with s1 := snapValue st.s1, s2 := snapValue st.s2 }

/-- The end of a PROCESS that did not fail (42_datapath.md R179). -/
def snapDelays (s : State) : State :=
  match s.params.snapToZero with
  | .off => s
  | .on => s.mapStages snapStage

end Sys2Proof.Machine
end

