-- ==== Sys2Proof/Machine/Interval.lean ====
section
/-! DEFINITION. Interval arithmetic in fixed point, for the exact reals of the coefficient designer (40_designer.md R123).

An interval at precision p stands for the reals between lo · 2^-p and hi · 2^-p. Every operation rounds lo down and hi up,
so the exact real result lies inside; `ok` is false when an operation could not promise that (division by an interval that
reaches 0), and then the interval says nothing. The designer rounds an interval to binary32 only where both ends round to the
same datum, which is then the rounding of the exact real (R123: no intermediate value is rounded). Where one precision does not
decide, `roundLimit` goes on through all of them. -/

namespace Sys2Proof.Machine

structure Ivl where
  lo : Int
  hi : Int
  ok : Bool
deriving DecidableEq, Repr

namespace Ivl

/-- The least integer not below a / b, for b > 0. -/
def ceilDiv (a b : Int) : Int := -((-a) / b)

/-- The integer n. -/
def point (p : Nat) (n : Int) : Ivl := ⟨n * 2 ^ p, n * 2 ^ p, true⟩

/-- The rational n / d. -/
def ofRatio (p : Nat) (n : Int) (d : Nat) : Ivl := ⟨n * 2 ^ p / d, ceilDiv (n * 2 ^ p) d, decide (0 < d)⟩

def add (x y : Ivl) : Ivl := ⟨x.lo + y.lo, x.hi + y.hi, x.ok && y.ok⟩

def neg (x : Ivl) : Ivl := ⟨-x.hi, -x.lo, x.ok⟩

def sub (x y : Ivl) : Ivl := add x (neg y)

def least (a b c d : Int) : Int := min (min a b) (min c d)

def greatest (a b c d : Int) : Int := max (max a b) (max c d)

def mul (p : Nat) (x y : Ivl) : Ivl :=
  ⟨least (x.lo * y.lo) (x.lo * y.hi) (x.hi * y.lo) (x.hi * y.hi) / 2 ^ p,
   ceilDiv (greatest (x.lo * y.lo) (x.lo * y.hi) (x.hi * y.lo) (x.hi * y.hi)) (2 ^ p),
   x.ok && y.ok⟩

/-- x / y where y lies above 0. -/
def div (p : Nat) (x y : Ivl) : Ivl :=
  ⟨min (x.lo * 2 ^ p / y.lo) (x.lo * 2 ^ p / y.hi),
   max (ceilDiv (x.hi * 2 ^ p) y.lo) (ceilDiv (x.hi * 2 ^ p) y.hi),
   x.ok && y.ok && decide (0 < y.lo)⟩

/-- x / n for a positive natural number n. -/
def divNat (x : Ivl) (n : Nat) : Ivl := ⟨x.lo / n, ceilDiv x.hi n, x.ok && decide (0 < n)⟩

/-- An integer that |x| · 2^p does not exceed. -/
def absBound (x : Ivl) : Int := max (-x.lo) x.hi

/-- x with twice the bound of e added on both sides. -/
def widen (x e : Ivl) : Ivl := ⟨x.lo - 2 * absBound e, x.hi + 2 * absBound e, x.ok && e.ok⟩

/-- x, of no use unless |x| ≤ (n + 1) / 2: where that holds, 2·|x|^n/n! bounds what the first n terms of the exponential
series leave out. -/
def within (p n : Nat) (x : Ivl) : Ivl := ⟨x.lo, x.hi, x.ok && decide (2 * absBound x ≤ (n + 1) * 2 ^ p)⟩

/-- floor(sqrt n) by Newton's iteration from above, `fuel` times. -/
def sqrtIter (n : Nat) : Nat → Nat → Nat
  | 0, x => x
  | fuel + 1, x => sqrtIter n fuel (min x ((x + n / x) / 2))

def sqrtFloor (n : Nat) : Nat := sqrtIter n 16 (2 ^ (Nat.log2 n / 2 + 1))

/-- The least natural number whose square is at least n, where r = floor(sqrt n). -/
def sqrtCeil (n r : Nat) : Nat := if r * r = n then r else r + 1

/-- The square root of an interval at or above 0, where `root` is to be floor(sqrt); `ok` keeps the check that it was. -/
def sqrt (root : Nat → Nat) (p : Nat) (x : Ivl) : Ivl :=
  ⟨root (x.lo.toNat * 2 ^ p), sqrtCeil (x.hi.toNat * 2 ^ p) (root (x.hi.toNat * 2 ^ p)),
   x.ok && decide (0 ≤ x.lo)
     && decide (root (x.lo.toNat * 2 ^ p) * root (x.lo.toNat * 2 ^ p) ≤ x.lo.toNat * 2 ^ p)
     && decide (x.hi.toNat * 2 ^ p ≤ sqrtCeil (x.hi.toNat * 2 ^ p) (root (x.hi.toNat * 2 ^ p))
          * sqrtCeil (x.hi.toNat * 2 ^ p) (root (x.hi.toNat * 2 ^ p)))⟩

/-- The precision at which the two constants below are written out. -/
def literalBits : Nat := 400

/-- floor(π · 2^400). -/
def piLiteral : Nat :=
  0x3243f6a8885a308d313198a2e03707344a4093822299f31d0082efa98ec4e6c89452821e638d01377be5466cf34e90c6cc0ac

/-- floor(ln 10 · 2^400). -/
def lnTenLiteral : Nat :=
  0x24d763776aaa2b05ba95b58ae0b4c28a38a3fb3e76977e43a0f187a0807c0b5ca58bc0b5ec6a0417331c32f00b17c35a0b188

/-- A constant whose floor at 400 bits is given, at a precision p ≤ 400. -/
def ofLiteral (p literal : Nat) : Ivl :=
  ⟨(literal / 2 ^ (literalBits - p) : Nat), (literal / 2 ^ (literalBits - p) : Nat) + 1, decide (p ≤ literalBits)⟩

/-- π. -/
def pi (p : Nat) : Ivl := ofLiteral p piLiteral

/-- ln 10. -/
def lnTen (p : Nat) : Ivl := ofLiteral p lnTenLiteral

/-- Two rationals around a real, as an interval. -/
def ofRationals (p : Nat) (lo hi : ℚ) : Ivl := ⟨⌊lo * 2 ^ p⌋, ⌈hi * 2 ^ p⌉, true⟩

/-- The first n terms of the alternating series of arctan(1/q). -/
def arctanSum (q n : Nat) : ℚ := ∑ i ∈ Finset.range n, (-1) ^ i * ((1 / q : ℚ) ^ (2 * i + 1) / (2 * i + 1))

/-- π at any precision, by Machin's formula π = 16·arctan(1/5) - 4·arctan(1/239); an even number of terms of an arctan series
lies below it, an odd number above. -/
def piSeries (p : Nat) : Ivl :=
  ofRationals p (16 * arctanSum 5 (2 * p) - 4 * arctanSum 239 (2 * p + 1))
    (16 * arctanSum 5 (2 * p + 1) - 4 * arctanSum 239 (2 * p))

/-- The first n terms of the series of -ln(1 - 9/10) = ln 10. -/
def lnTenSum (n : Nat) : ℚ := ∑ i ∈ Finset.range n, (9 / 10 : ℚ) ^ (i + 1) / (i + 1)

/-- ln 10 at any precision; what the first 8p terms leave out is at most (9/10)^(8p + 1) / (1/10). -/
def lnTenSeries (p : Nat) : Ivl :=
  ofRationals p (lnTenSum (8 * p) - (9 / 10) ^ (8 * p + 1) / (1 / 10)) (lnTenSum (8 * p) + (9 / 10) ^ (8 * p + 1) / (1 / 10))

/-- How the designer's reals are enclosed: the two constants, how many terms of the exponential series are taken, and the
integer square root. -/
structure Means where
  pi    : Ivl
  lnTen : Ivl
  terms : Nat
  root  : Nat → Nat

/-- The means at a fixed precision p ≤ 400: the constants are written out. -/
def quickMeans (p : Nat) : Means := { pi := pi p, lnTen := lnTen p, terms := p / 4 + 24, root := sqrtFloor }

/-- The means at any precision p and any number n + 1 of terms. -/
def openMeans (n p : Nat) : Means := { pi := piSeries p, lnTen := lnTenSeries p, terms := n + 1, root := Nat.sqrt }

/-- Partial sums of the exponential series: `even` and `odd` are those of cos and sin, `all` that of exp, and `term` is the
first term not yet added, x^n/n!. -/
structure Series where
  even : Ivl
  odd  : Ivl
  all  : Ivl
  term : Ivl
deriving DecidableEq, Repr

/-- The term x^k/k! goes to the sum of exp, and with its sign to that of cos or sin. -/
def seriesStep (p : Nat) (x : Ivl) (k : Nat) (a : Series) : Series :=
  ⟨match k % 4 with
     | 0 => add a.even a.term
     | 2 => sub a.even a.term
     | _ => a.even,
   match k % 4 with
     | 1 => add a.odd a.term
     | 3 => sub a.odd a.term
     | _ => a.odd,
   add a.all a.term,
   divNat (mul p a.term x) (k + 1)⟩

/-- The sums of the terms 0 .. n-1. -/
def series (p : Nat) (x : Ivl) : Nat → Series
  | 0 => ⟨point p 0, point p 0, point p 0, point p 1⟩
  | n + 1 => seriesStep p x n (series p x n)

/-- cos from the first n terms. -/
def cos (n p : Nat) (x : Ivl) : Ivl := widen (series p (within p n x) n).even (series p (within p n x) n).term

/-- sin from the first n terms. -/
def sin (n p : Nat) (x : Ivl) : Ivl := widen (series p (within p n x) n).odd (series p (within p n x) n).term

/-- exp from the first n terms. -/
def exp (n p : Nat) (x : Ivl) : Ivl := widen (series p (within p n x) n).all (series p (within p n x) n).term

/-- The magnitude that |n| · 2^-p rounds to. -/
def magAt (p : Nat) (n : Int) : Nat := F32.roundMag (n * 2 ^ 149).natAbs (2 ^ p)

/-- round32 of every real in the interval, where it is the same for all of them: the interval is the point 0, or it lies on one
side of 0 and both ends round to the same datum. -/
def round32 (p : Nat) (x : Ivl) : Option Word :=
  if x.ok then
    if x.lo = 0 ∧ x.hi = 0 then some (F32.roundReal 0 1)
    else if (0 < x.lo ∨ x.hi < 0) ∧
        F32.roundReal (x.lo * 2 ^ 149) (2 ^ p) = F32.roundReal (x.hi * 2 ^ 149) (2 ^ p) then
      some (F32.roundReal (x.lo * 2 ^ 149) (2 ^ p))
    else none
  else none

/-- The even one of two neighbouring data, where the ends of an interval on one side of 0 round to neighbours: what a real
halfway between them rounds to. -/
def roundTie (p : Nat) (x : Ivl) : Option Word :=
  if x.ok ∧ (0 < x.lo ∨ x.hi < 0) ∧ (magAt p x.lo = magAt p x.hi + 1 ∨ magAt p x.hi = magAt p x.lo + 1) then
    some (F32.pack (decide (x.hi < 0)) (min (magAt p x.lo) (magAt p x.hi) + min (magAt p x.lo) (magAt p x.hi) % 2))
  else none

/-- The answer of g at the first k, k + 1, … where it answers, and none where it answers nowhere. Evaluating it ends only in the
first case; as a definition it has its value in both. -/
def firstAnswer (g : Nat → Option Word) (k : Nat) : Option Word :=
  match g k with
  | some w => some w
  | none => firstAnswer g (k + 1)
partial_fixpoint

/-- round32 (00_scope.md R10) of the real that intervals f n p enclose as finely as one likes. If some interval decides, its
answer. If none ever does, the real is a tie or 0: a tie lies between two neighbours and goes to the even one, and 0 lies
between no two. -/
def roundLimit (f : Nat → Nat → Ivl) : Word :=
  match firstAnswer (fun k => round32 k.unpair.2 (f k.unpair.1 k.unpair.2)) 0 with
  | some w => w
  | none => (firstAnswer (fun k => roundTie k.unpair.2 (f k.unpair.1 k.unpair.2)) 0).getD (F32.roundReal 0 1)

end Ivl

end Sys2Proof.Machine
end

