-- ==== Sys2Proof/Machine/Designer.lean ====
section
/-! DEFINITION. The CoefficientDesigner (40_designer.md). Every function here is pure (R120): its inputs are sanitized settings
and ACT_RATE, as binary32 words. -/

namespace Sys2Proof.Machine

/-- The five coefficients before rounding, as intervals. -/
structure IvlCoeffs where
  b0 : Ivl
  b1 : Ivl
  b2 : Ivl
  a1 : Ivl
  a2 : Ivl
deriving DecidableEq, Repr

namespace Design

/-- round32 of the five exact coefficients, where the intervals decide all five (40_designer.md R123). -/
def roundCoeffs (p : Nat) (c : IvlCoeffs) : Option Coeffs :=
  match Ivl.round32 p c.b0, Ivl.round32 p c.b1, Ivl.round32 p c.b2, Ivl.round32 p c.a1, Ivl.round32 p c.a2 with
  | some b0, some b1, some b2, some a1, some a2 => some ⟨b0, b1, b2, a1, a2⟩
  | _, _, _, _, _ => none

/-- round32 of the five exact coefficients, however close they are to a rounding boundary (40_designer.md R123). -/
def limitCoeffs (f : Nat → Nat → IvlCoeffs) : Coeffs :=
  ⟨Ivl.roundLimit fun n p => (f n p).b0, Ivl.roundLimit fun n p => (f n p).b1, Ivl.roundLimit fun n p => (f n p).b2,
   Ivl.roundLimit fun n p => (f n p).a1, Ivl.roundLimit fun n p => (f n p).a2⟩

/-- The working precisions that are tried first. -/
def firstBits : Nat := 192

def secondBits : Nat := 384

/-- The exactly rounded coefficients of a formula over intervals: at the first precision that decides them all, else at whatever
precision each of them takes (40_designer.md R123). -/
def exactCoeffs (f : Ivl.Means → Nat → IvlCoeffs) : Coeffs :=
  match roundCoeffs firstBits (f (Ivl.quickMeans firstBits) firstBits) with
  | some c => c
  | none =>
    match roundCoeffs secondBits (f (Ivl.quickMeans secondBits) secondBits) with
    | some c => c
    | none => limitCoeffs fun n p => f (Ivl.openMeans n p) p

/-- The ratio of two positive finite binary32 values. -/
def ratio (p : Nat) (x y : Word) : Ivl := Ivl.ofRatio p (F32.units x) (F32.units y).toNat

/-- The value of a finite binary32 word. -/
def value (p : Nat) (x : Word) : Ivl := Ivl.ofRatio p (F32.units x) (2 ^ 149)

/-- Whether f is exactly a quarter of the rate, where the trigonometric values are 0 and 1. -/
def quarterRate (freq rate : Word) : Bool := decide (4 * F32.units freq = F32.units rate)

/-- dbToGain(gainDb) = 10^(gainDb / 20) (40_designer.md R124), as exp((gainDb / 20) · ln 10). -/
def dbToGain (m : Ivl.Means) (p : Nat) (gainDb : Word) : Ivl :=
  Ivl.exp m.terms p (Ivl.mul p (Ivl.divNat (value p gainDb) 20) m.lnTen)

/-- w0 = 2·π·f / R (40_designer.md R125). -/
def omega (m : Ivl.Means) (p : Nat) (freq rate : Word) : Ivl :=
  Ivl.mul p (Ivl.mul p (Ivl.point p 2) m.pi) (ratio p freq rate)

/-- Whether w0 is exactly π/6 or 5π/6, where sin(w0) = 1/2. With sin = 1 these are the only rational values of the sine on
(0, π); exact values there keep the 0 dB peak, whose coefficients may then be ties or 0, within the first precision. -/
def sinIsHalf (freq rate : Word) : Bool :=
  decide (12 * F32.units freq = F32.units rate) || decide (12 * F32.units freq = 5 * F32.units rate)

/-- sin(w0); exactly 1 at a quarter of the rate, exactly 1/2 at a twelfth and five twelfths. -/
def sinOmega (m : Ivl.Means) (p : Nat) (freq rate : Word) : Ivl :=
  if quarterRate freq rate then Ivl.point p 1
  else if sinIsHalf freq rate then Ivl.ofRatio p 1 2
  else Ivl.sin m.terms p (omega m p freq rate)

/-- cos(w0); exactly 0 at a quarter of the rate. -/
def cosOmega (m : Ivl.Means) (p : Nat) (freq rate : Word) : Ivl :=
  if quarterRate freq rate then Ivl.point p 0 else Ivl.cos m.terms p (omega m p freq rate)

/-- The cookbook peak from A, sin(w0), cos(w0) and Q (40_designer.md R125). -/
def peakFrom (p : Nat) (amp sinW cosW q : Ivl) : IvlCoeffs :=
  let alpha := Ivl.div p sinW (Ivl.mul p (Ivl.point p 2) q)
  let a0 := Ivl.add (Ivl.point p 1) (Ivl.div p alpha amp)
  let middle := Ivl.div p (Ivl.mul p (Ivl.point p (-2)) cosW) a0
  { b0 := Ivl.div p (Ivl.add (Ivl.point p 1) (Ivl.mul p alpha amp)) a0
    b1 := middle
    b2 := Ivl.div p (Ivl.sub (Ivl.point p 1) (Ivl.mul p alpha amp)) a0
    a1 := middle
    a2 := Ivl.div p (Ivl.sub (Ivl.point p 1) (Ivl.div p alpha amp)) a0 }

/-- The peak's exact coefficients at precision p, with A = sqrt(g) (40_designer.md R125). -/
def peakIvl (rate freq q gainDb : Word) (m : Ivl.Means) (p : Nat) : IvlCoeffs :=
  peakFrom p (Ivl.sqrt m.root p (dbToGain m p gainDb)) (sinOmega m p freq rate) (cosOmega m p freq rate) (value p q)

/-- designPeak(sampleRate, freq, Q, dbToGain(gainDb)) with DESIGN_ARITH = exact (40_designer.md R123, R125). -/
def peakExact (rate freq q gainDb : Word) : Coeffs := exactCoeffs (peakIvl rate freq q gainDb)

/-- 1 / Q_k = 2·cos((2k + 1)·π / (2N)) (40_designer.md R126). -/
def invQ (m : Ivl.Means) (p order k : Nat) : Ivl :=
  Ivl.mul p (Ivl.point p 2) (Ivl.cos m.terms p (Ivl.divNat (Ivl.mul p (Ivl.point p (2 * k + 1)) m.pi) (2 * order)))

/-- Q_k (40_designer.md R126). -/
def sectionQ (m : Ivl.Means) (p order k : Nat) : Ivl := Ivl.div p (Ivl.point p 1) (invQ m p order k)

/-- tan(π·f / R); exactly 1 at a quarter of the rate. -/
def tanHalf (m : Ivl.Means) (p : Nat) (freq rate : Word) : Ivl :=
  if quarterRate freq rate then Ivl.point p 1
  else Ivl.div p (Ivl.sin m.terms p (Ivl.mul p m.pi (ratio p freq rate)))
    (Ivl.cos m.terms p (Ivl.mul p m.pi (ratio p freq rate)))

/-- The highpass section from K and Q (40_designer.md R127). -/
def highpassFrom (p : Nat) (k q : Ivl) : IvlCoeffs :=
  let kk := Ivl.mul p k k
  let kq := Ivl.div p k q
  let c := Ivl.div p (Ivl.point p 1) (Ivl.add (Ivl.add (Ivl.point p 1) kq) kk)
  { b0 := c
    b1 := Ivl.mul p (Ivl.point p (-2)) c
    b2 := c
    a1 := Ivl.mul p (Ivl.mul p (Ivl.point p 2) c) (Ivl.sub kk (Ivl.point p 1))
    a2 := Ivl.mul p c (Ivl.add (Ivl.sub (Ivl.point p 1) kq) kk) }

/-- The lowpass section from M and Q (40_designer.md R128). b1 is round32(2·c) as R128's pseudocode has it. Where c is subnormal that
need not be 2·b0, as R128's corner case says it is: the model takes the pseudocode (assumption 16). -/
def lowpassFrom (p : Nat) (m q : Ivl) : IvlCoeffs :=
  let mm := Ivl.mul p m m
  let mq := Ivl.div p m q
  let c := Ivl.div p (Ivl.point p 1) (Ivl.add (Ivl.add (Ivl.point p 1) mq) mm)
  { b0 := c
    b1 := Ivl.mul p (Ivl.point p 2) c
    b2 := c
    a1 := Ivl.mul p (Ivl.mul p (Ivl.point p 2) c) (Ivl.sub (Ivl.point p 1) mm)
    a2 := Ivl.mul p c (Ivl.add (Ivl.sub (Ivl.point p 1) mq) mm) }

/-- Section k of the highpass cascade at precision p, K = tan(π·f / R) (40_designer.md R127). -/
def highpassIvl (freq rate : Word) (order k : Nat) (m : Ivl.Means) (p : Nat) : IvlCoeffs :=
  highpassFrom p (tanHalf m p freq rate) (sectionQ m p order k)

/-- Section k of the lowpass cascade at precision p, M = 1 / tan(π·f / R) (40_designer.md R128). -/
def lowpassIvl (freq rate : Word) (order k : Nat) (m : Ivl.Means) (p : Nat) : IvlCoeffs :=
  lowpassFrom p (Ivl.div p (Ivl.point p 1) (tanHalf m p freq rate)) (sectionQ m p order k)

/-- Section k of the highpass design with DESIGN_ARITH = exact (40_designer.md R123, R127). -/
def highpassExact (freq rate : Word) (order k : Nat) : Coeffs := exactCoeffs (highpassIvl freq rate order k)

/-- Section k of the lowpass design with DESIGN_ARITH = exact (40_designer.md R123, R128). -/
def lowpassExact (freq rate : Word) (order k : Nat) : Coeffs := exactCoeffs (lowpassIvl freq rate order k)

/-- Section k of the highpass design (40_designer.md R123, R127). -/
def highpassSection (arith : DesignArith) (freq rate : Word) (order k : Nat) : Coeffs :=
  match arith with
  | .supplied => Config.suppliedHighpass freq rate order k
  | .exact => highpassExact freq rate order k

/-- Section k of the lowpass design (40_designer.md R123, R128). -/
def lowpassSection (arith : DesignArith) (freq rate : Word) (order k : Nat) : Coeffs :=
  match arith with
  | .supplied => Config.suppliedLowpass freq rate order k
  | .exact => lowpassExact freq rate order k

end Design

/-- designPeak (40_designer.md R125), its linear gain being dbToGain of the sanitized PKG (R124). -/
def designPeak (arith : DesignArith) (rate freq q gainDb : Word) : Coeffs :=
  match arith with
  | .supplied => Config.suppliedPeak rate freq q gainDb
  | .exact => Design.peakExact rate freq q gainDb

/-- designHighpassCascade (40_designer.md R127): sections 0 .. order/2 - 1 in ascending k. -/
def designHighpassCascade (arith : DesignArith) (freq rate : Word) (order : Nat) : List Coeffs :=
  (List.range (order / 2)).map (Design.highpassSection arith freq rate order)

/-- designLowpassCascade (40_designer.md R128). -/
def designLowpassCascade (arith : DesignArith) (freq rate : Word) (order : Nat) : List Coeffs :=
  (List.range (order / 2)).map (Design.lowpassSection arith freq rate order)

/-- The filter order of a slope index (40_designer.md R129). -/
def orderOfSlope (slope : Nat) : Nat := 2 * (slope + 1)

end Sys2Proof.Machine
end

