-- ==== Sys2Proof/Machine/Engine.lean ====
section
/-! DEFINITION. The meanings of the four commands: execute(pend.cmd) and the return to IDLE, one atomic step (43_engine.md R201
to R207). -/

namespace Sys2Proof.Machine

/-- NOP: nothing, and the command ends (43_engine.md R202). -/
def execNop (s : State) : Host.Outcome State Fault Refusal := .next (endCommand s)

/-- Zero both delay elements, of bypassed stages too (43_engine.md R205). -/
def zeroDelays (st : Stage) : Stage := { st with s1 := 0, s2 := 0 }

/-- The writes of a PREPARE whose checks passed (43_engine.md R205). -/
def applyPrepare (s : State) : State :=
  { s.mapStages zeroDelays with
    actRate := s.pend.rate
    actMax := s.pend.maxBlock
    status := { s.status with prepared := true } }

/-- PREPARE (43_engine.md R205): code 2 before code 3 (60_exceptions.md R246). -/
def execPrepare (s : State) : Host.Outcome State Fault Refusal :=
  if !rateAcceptable s.pend.rate then .next (violate .rateInvalid s)
  else if !maxBlockAcceptable s.params s.pend.maxBlock then .next (violate .maxBlockInvalid s)
  else .next (endCommand (applyPrepare s))

/-- One channel's stages after the three assignments of 43_engine.md R206: peak, low-cut, high-cut, designed from sanitized
settings and ACT_RATE. -/
def designInto (arith : DesignArith) (rate : Word) (sane : Settings) (ch : Chain) : Chain :=
  ch.assign (designPeak arith rate sane.pkf sane.pkq sane.pkg)
    sane.lcs.toNat (designHighpassCascade arith sane.lcf rate (orderOfSlope sane.lcs.toNat))
    sane.hcs.toNat (designLowpassCascade arith sane.hcf rate (orderOfSlope sane.hcs.toNat))

/-- The writes of an update body whose checks passed (43_engine.md R206, R212): both channels get copies of one computation. -/
def applyUpdate (sane : Settings) (clamped : Bool) (s : State) : State :=
  { s with
    left := designInto s.params.designArith s.actRate sane s.left
    right := designInto s.params.designArith s.actRate sane s.right
    snap := sane
    status := recordClamp clamped s.status }

/-- How the update body ends. -/
inductive UpdateResult where
  /-- Done: the command goes on. -/
  | updated (s : State)
  /-- The command has ended, by fail or Fault. -/
  | ended (s : State)
deriving DecidableEq, Repr

/-- `updateBody(pend.S)` (43_engine.md R206). -/
def updateBody (s : State) : UpdateResult :=
  if !s.status.prepared then .ended (violate .notPrepared s)
  else
    match validate s.pend.settings s.actRate s.params.buildMode with
    | .fault code => .ended (raiseFault code s)
    | .fail code => .ended (failCommand code s)
    | .ok sane clamped => .updated (applyUpdate sane clamped s)

/-- UPDATE (43_engine.md R206). -/
def execUpdate (s : State) : Host.Outcome State Fault Refusal :=
  match updateBody s with
  | .updated t => .next (endCommand t)
  | .ended t => .next t

/-- One channel of a block: its chain and its words after chainProcess (42_datapath.md R174). -/
def processChannel (s : State) (c : Channel) (xs : List Word) : Chain × List Word :=
  chainProcess s.params.denormalMode (channelDraws s.drawClock c) (s.chain c) xs

/-- Both channels of a block (42_datapath.md R176), from the words of the two buffers: chains, buffers, and the count of sample
times that indexes the free NaN draws. -/
def applyBlock (xs ys : List Word) (s : State) : State :=
  { s with
    left := (processChannel s .left xs).1
    right := (processChannel s .right ys).1
    mem := ((s.mem.writeBlock (bufferOffset .left 0) (processChannel s .left xs).2).writeBlock
      (bufferOffset .right 0) (processChannel s .right ys).2)
    drawClock := s.drawClock + xs.length }

/-- The samples of a PROCESS after its update: a word never written is the model fault Unwritten (10_state.md R36). -/
def processSamples (count : Nat) (s : State) : Host.Outcome State Fault Refusal :=
  match s.mem.readBlock (bufferOffset .left 0) count, s.mem.readBlock (bufferOffset .right 0) count with
  | some xs, some ys => .next (endCommand (snapDelays (applyBlock xs ys s)))
  | _, _ => .fault .unwritten

/-- PROCESS N (43_engine.md R207): code 1, code 4, the update, then the samples. -/
def execProcess (count : Nat) (s : State) : Host.Outcome State Fault Refusal :=
  if !s.status.prepared then .next (violate .notPrepared s)
  else if s.actMax.toNat < count then .next (violate .blockTooLong s)
  else
    match updateBody s with
    | .updated t => processSamples count t
    | .ended t => .next t

end Sys2Proof.Machine
end

