-- ==== Sys2Proof/Machine/Dispatch.lean ====
section
/-! DEFINITION. One arm per command: execute(pend.cmd) and phase <- IDLE (43_engine.md R201). -/

namespace Sys2Proof.Machine

def exec (i : Instr) (s : State) : Host.Outcome State Fault Refusal :=
  match i with
  | .nop => Sys2Proof.Machine.execNop s
  | .prepare => Sys2Proof.Machine.execPrepare s
  | .update => Sys2Proof.Machine.execUpdate s
  | .process count => Sys2Proof.Machine.execProcess count s

end Sys2Proof.Machine
end

