-- ==== Sys2Proof/Machine/Sequencer.lean ====
section
/-! DEFINITION. Which agent moves next, and how a command word is placed for the next step. -/

namespace Sys2Proof.Machine

/-- The core's move: the command in progress completes (43_engine.md R201). An idle core has nothing to do. -/
def coreMove (s : State) : Host.Outcome State Fault Refusal :=
  match s.phase with
  | .busy => exec s.pend.cmd s
  | .idle => .next s

/-- One outside event (assumption 1). -/
def eventMove (e : HostEvent) (s : State) : Host.Outcome State Fault Refusal :=
  match e with
  | .write addr size v => hostWrite addr size v s
  | .read addr size => hostRead addr size s
  | .complete => coreMove s
  | .reset => .next (resetMachine s)

/-- The oldest outside event, or the core's own move when none is left (70_reset_and_hazards.md R283: every accepted command
completes). -/
def advance (s : State) : Host.Outcome State Fault Refusal :=
  match s.events with
  | [] => coreMove s
  | e :: rest => eventMove e { s with events := rest }

/-- A command word placed so that the next step runs it: a legal word is accepted as by the CMD write of 43_engine.md R200 and
its completion is the next event; an illegal word is a CMD write that is the next event. -/
def placeCommand (w : Word) (s : State) : State :=
  match decode w with
  | .command i => { acceptCommand i s with events := .complete :: s.events }
  | .illegal _ => { s with events := .write s.params.base 4 w :: s.events }

end Sys2Proof.Machine
end

