-- ==== Sys2Proof/Machine/Step.lean ====
section
/-! DEFINITION. The step function and the placing of an instruction for the next step. -/

namespace Sys2Proof.Machine

/-- One step of the machine. An instance outside the domains of 00_scope.md R8 is refused (60_exceptions.md R247). -/
def step (s : State) : Host.Outcome State Fault Refusal :=
  if s.params.wellFormed then advance s else .refused .outsideParameterDomain

/-- The instruction of a table row placed so that the very next step runs it. -/
def State.withFetchWord (s : State) (nbits w : Nat) : State := placeCommand (tableWord nbits w) s

end Sys2Proof.Machine
end

