-- ==== Sys2Proof/Safety.lean ====
section
/-! DEFINITION. The terms in which claims are stated: the invariant of the machine, safe states, what it means that a binary32
datum is the rounding of a real number, and the sane settings of 43_engine.md R204. -/

namespace Sys2Proof.Machine

/-- The stages 0..oi of a cascade are enabled and the others bypassed (10_state.md R34). -/
def Cascade.prefixEnabled (c : Cascade) (oi : Nat) : Prop :=
  ∀ k : Fin 4, (c.get k).byp = decide (oi < k.val)

/-- 10_state.md R34: some order index 0..3 fits the bypass flags. -/
def Cascade.Contiguous (c : Cascade) : Prop := ∃ oi, oi ≤ 3 ∧ c.prefixEnabled oi

/-- A settings value inside the limits of its field, and not NaN (43_engine.md R204). -/
def Field.inRange (f : Field) (v : Word) : Bool :=
  !(f.isFloat && F32.isNaN v) && !(f.lt v f.limits.1) && !(f.lt f.limits.2.1 v)

/-- Every field inside its limits: what validation leaves (43_engine.md R204). -/
def Settings.InRange (s : Settings) : Prop := ∀ f : Field, f.inRange (s.get f) = true

/-- Every frequency below half the rate (43_engine.md R204). -/
def Settings.BelowNyquist (s : Settings) (rate : Word) : Prop :=
  atOrAboveNyquist s.lcf rate = false ∧ atOrAboveNyquist s.hcf rate = false ∧ atOrAboveNyquist s.pkf rate = false

/-- The value of a field after the clamp of 43_engine.md R204 (release). -/
def Field.clampValue (f : Field) (v : Word) : Word :=
  if f.lt v f.limits.1 then f.limits.1 else if f.lt f.limits.2.1 v then f.limits.2.1 else v

/-- The settings after the clamps of 43_engine.md R204 (release). -/
def Settings.clampAll (s : Settings) : Settings :=
  { lcf := Field.lcf.clampValue s.lcf, lcs := Field.lcs.clampValue s.lcs, hcf := Field.hcf.clampValue s.hcf,
    hcs := Field.hcs.clampValue s.hcs, pkf := Field.pkf.clampValue s.pkf, pkq := Field.pkq.clampValue s.pkq,
    pkg := Field.pkg.clampValue s.pkg }

/-- No f32 setting is NaN. -/
def Settings.NoNaN (s : Settings) : Prop := ∀ f : Field, (f.isFloat && F32.isNaN (s.get f)) = false

/-- A byte offset lies in a buffer word that exists (20_memory.md R62). -/
def InBuffers (p : Params) (a : Nat) : Prop :=
  ∃ c i, i < p.bufCap ∧ bufferOffset c i ≤ a ∧ a < bufferOffset c i + 4

/-- Buffer words are written whole (20_memory.md R60, R72): the four bytes of a word are all written or all unwritten. -/
def WholeWords (p : Params) (m : Memory) : Prop :=
  ∀ c i k, i < p.bufCap → k < 4 →
    (Memory.readByte m (bufferOffset c i + k)).isSome = (Memory.readByte m (bufferOffset c i)).isSome

/-- The two channels hold equal coefficients and bypass flags (10_state.md R39). -/
def StereoCopies (l r : Chain) : Prop :=
  ∀ j : Fin 9, (l.get j).coeffs = (r.get j).coeffs ∧ (l.get j).byp = (r.get j).byp

/-- What holds in every state that a run from reset reaches. -/
structure State.Inv (s : State) : Prop where
  /-- 00_scope.md R8. -/
  params : s.params.wellFormed = true
  /-- The canonical form of sample memory. -/
  memWf : s.mem.wf = true
  /-- Only existing buffer words hold data (20_memory.md R62). -/
  memInside : ∀ a, (Memory.readByte s.mem a).isSome = true → InBuffers s.params a
  /-- 20_memory.md R72. -/
  memWhole : WholeWords s.params s.mem
  /-- 10_state.md R34, for each of the four cascades. -/
  cascades : ∀ c, (s.chain c).lowCut.Contiguous ∧ (s.chain c).highCut.Contiguous
  /-- 10_state.md R39. -/
  stereo : StereoCopies s.left s.right
  /-- 43_engine.md R212: the SNAP_ registers hold sanitized settings. -/
  snapSane : s.snap.InRange
  /-- 20_memory.md R81: ACT_MAX ≤ BUF_CAP. -/
  actMaxFits : s.actMax.toNat ≤ s.params.bufCap
  /-- 43_engine.md R205: a latched rate is finite and positive. -/
  rateLatched : s.status.prepared = true → rateAcceptable s.actRate = true
  /-- 10_state.md R25: the latches keep their reset values until a PREPARE succeeds. -/
  latchesReset : s.status.prepared = false → s.actRate = 0 ∧ s.actMax = 0
  /-- 60_exceptions.md R245: a faulted core runs no command. -/
  faultIdle : s.status.fault = true → s.phase = .idle
  /-- 60_exceptions.md R244, R245: release builds never fault. -/
  releaseNoFault : s.params.buildMode = .release → s.status.fault = false
  /-- 43_engine.md R211: debug builds never fail and never clamp. -/
  debugNoFail : s.params.buildMode = .debug → s.status.errFail = false ∧ s.status.errClamp = false
  /-- 30_encoding.md R92: an accepted command came from a command word. -/
  pendEncodable : s.pend.cmd.wellFormed = true

/-- "A model treats a state with FAULT = 1 as never final" (60_exceptions.md R245): what a claim about the end of a run assumes. -/
def State.Final (s : State) : Prop := s.phase = .idle ∧ s.status.fault = false

/-- How a command that violates a check ends (60_exceptions.md R244, R245): in release builds it fails, in debug builds the core
faults; nothing but STATUS and the phase changes. -/
def State.endedBy (code : Cause) (s : State) : State :=
  match s.params.buildMode with
  | .release => { s with phase := .idle, status := { s.status with errFail := true, cause := code } }
  | .debug => { s with phase := .idle, status := { s.status with fault := true, cause := code } }

/-- Slot k of the low-cut cascade (10_state.md R31). -/
def lowSlot (k : Fin 4) : Fin 9 := ⟨k.val, by omega⟩

/-- Slot 5 + k: stage k of the high-cut cascade (10_state.md R31). -/
def highSlot (k : Fin 4) : Fin 9 := ⟨5 + k.val, by omega⟩

/-- A cascade band after assign(oi, coeffs), seen through its four stages (41_cascade.md R151, R153): stages 0..oi hold the new
coefficients and are enabled, the others keep theirs and are bypassed, and no delay element changes. -/
def AssignedStage (oi : Nat) (coeffs : List Coeffs) (k : Fin 4) (before after : Stage) : Prop :=
  after.s1 = before.s1 ∧ after.s2 = before.s2 ∧ after.byp = decide (oi < k.val) ∧
    (k.val ≤ oi → coeffs[k.val]? = some after.coeffs) ∧ (oi < k.val → after.coeffs = before.coeffs)

/-- The host's next event is a bus write. -/
def State.nextWrite (s : State) (addr size : Nat) (v : Word) (rest : List HostEvent) : Prop :=
  s.params.wellFormed = true ∧ s.events = .write addr size v :: rest

/-- The host's next event is a bus read. -/
def State.nextRead (s : State) (addr size : Nat) (rest : List HostEvent) : Prop :=
  s.params.wellFormed = true ∧ s.events = .read addr size :: rest

/-- The unmapped word offsets of 20_memory.md R62, and what lies outside the window. -/
def UnmappedOffset (p : Params) (offset : Nat) : Prop :=
  offset / 4 = 0x03C / 4 ∨ (0x05C ≤ offset ∧ offset < 0x400) ∨ (0x520 ≤ offset ∧ offset < 0x600) ∨
    (0x720 ≤ offset ∧ offset < 0x10000) ∨ (0x10000 ≤ offset ∧ offset < 0x20000 ∧ p.bufCap ≤ (offset - 0x10000) / 4) ∨
    (0x20000 ≤ offset ∧ offset < 0x30000 ∧ p.bufCap ≤ (offset - 0x20000) / 4) ∨ 0x30000 ≤ offset

namespace F32

/-- Half a unit in the last place above the greatest finite value: 2^128 - 2^103, in units of 2^-149 (2^277 - 2^252). From
here on a real rounds to infinity. -/
def overflowUnits : Nat := (2 ^ 25 - 1) * 2 ^ 252

/-- fromf32 of 00_scope.md R10, for a finite w. -/
def rat (w : Word) : ℚ := (units w : ℚ) / 2 ^ 149

/-- w is round32 of the real r · 2^-149 (00_scope.md R10): the nearest binary32 value, ties to even, overflowing to infinity,
with the sign of r (that a nonzero r too small for binary32 goes to the zero of its sign is assumption 15). For r = 0 the sign is
left open (assumption 10). -/
def IsRounding (r : ℝ) (w : Word) : Prop :=
  isNaN w = false ∧
  (0 < r → sign w = false) ∧
  (r < 0 → sign w = true) ∧
  (isFinite w = true → |r| < (overflowUnits : ℝ) ∧ ∀ v : Word, isFinite v = true →
    |(units w : ℝ) - r| ≤ |(units v : ℝ) - r| ∧
    (|(units w : ℝ) - r| = |(units v : ℝ) - r| → units v ≠ units w → mag w % 2 = 0)) ∧
  (isInf w = true → (overflowUnits : ℝ) ≤ |r|)

end F32

/-- None of the nine operations of a stageStep (42_datapath.md R170), with the operands they have there, rounds. -/
def StepExact (m : DenormalMode) (draw : Nat → BitVec 23) (st : Stage) (x : Word) : Prop :=
  let p0 := F32.mul m (draw 0) st.coeffs.b0 x
  let y := F32.add m (draw 1) p0 st.s1
  let p1 := F32.mul m (draw 2) st.coeffs.b1 x
  let q1 := F32.mul m (draw 3) st.coeffs.a1 y
  let t := F32.sub m (draw 4) p1 q1
  let n1 := F32.add m (draw 5) t st.s2
  let p2 := F32.mul m (draw 6) st.coeffs.b2 x
  let q2 := F32.mul m (draw 7) st.coeffs.a2 y
  let n2 := F32.sub m (draw 8) p2 q2
  F32.rat p0 = F32.rat st.coeffs.b0 * F32.rat x ∧ F32.rat y = F32.rat p0 + F32.rat st.s1 ∧
    F32.rat p1 = F32.rat st.coeffs.b1 * F32.rat x ∧ F32.rat q1 = F32.rat st.coeffs.a1 * F32.rat y ∧
    F32.rat t = F32.rat p1 - F32.rat q1 ∧ F32.rat n1 = F32.rat t + F32.rat st.s2 ∧
    F32.rat p2 = F32.rat st.coeffs.b2 * F32.rat x ∧ F32.rat q2 = F32.rat st.coeffs.a2 * F32.rat y ∧
    F32.rat n2 = F32.rat p2 - F32.rat q2

end Sys2Proof.Machine
end

