-- ==== Sys2Proof/Certificates/Slice0/Obligations.lean ====
section
/-! DEFINITION. The statements for the provers. Each docstring says which rule of spec/ it formalises, and which log entry a clause
rests on that is the model's choice. -/

open Sys2Proof Sys2Proof.Machine

/-! ### Encoding -/

/-- Words written out from 30_encoding.md R90, R91 decode to their commands, and words of R93 are illegal
(95_test_vectors.md V-E10). -/
def Obligations.CommandWordsDecode : Prop :=
  decode 0x00000000 = .command .nop ∧ decode 0x00000001 = .command .prepare ∧ decode 0x00000002 = .command .update ∧
    decode 0x00000003 = .command (.process 0) ∧ decode 0x00040003 = .command (.process 4) ∧
    decode 0xFFFF0003 = .command (.process 65535) ∧ decode 0x00000004 = .illegal .reservedOpcode ∧
    decode 0x0000000F = .illegal .reservedOpcode ∧ decode 0x00000013 = .illegal .reservedField ∧
    decode 0x00010001 = .illegal .countNotAllowed ∧ decode 0x00010000 = .illegal .countNotAllowed ∧
    decode 0x0000FFFF = .illegal .reservedField

/-- Decode and encode agree for every command and every count its field admits, as a word and as bytes (30_encoding.md R90 to R92,
R94). -/
def Obligations.DecodeOfEncodeIsTheCommand : Prop :=
  ∀ (i : Instr) (rest : List Byte), i.wellFormed = true →
    decode (encode i) = .command i ∧ decodeBytes (encodeBytes i ++ rest) = (.command i, rest)

/-- Each command has one word: a word that decodes to a command is that command's encoding (30_encoding.md R91, R94). -/
def Obligations.EncodeOfDecodedIsTheWord : Prop :=
  ∀ (w : Word) (i : Instr), decode w = .command i → encode i = w ∧ i.wellFormed = true

/-- 30_encoding.md R93: the illegal words are exactly those with OP 4 to 15, a nonzero RSV, or a nonzero N without PROCESS; writing
one to CMD of an idle unfaulted core sets ERR_ILLEGAL and changes nothing else, in both build modes. -/
def Obligations.IllegalWordsSetOnlyErrIllegal : Prop :=
  ∀ w : Word,
    ((∃ why, decode w = .illegal why) ↔
      (4 ≤ w.toNat % 16 ∨ w.toNat / 16 % 4096 ≠ 0 ∨ (w.toNat % 16 ≠ 3 ∧ w.toNat / 65536 ≠ 0))) ∧
    ∀ (s : State) (rest : List HostEvent) (why : Illegal), decode w = .illegal why →
      s.nextWrite s.params.base 4 w rest → s.phase = .idle → s.status.fault = false →
      step s = .next { s with events := rest, status := { s.status with errIllegal := true } }

/-! ### Sequencing -/

/-- 43_engine.md R200: what a CMD write does, in its order of checks. -/
def Obligations.CommandWriteFollowsAcceptance : Prop :=
  ∀ (s : State) (w : Word) (rest : List HostEvent), s.nextWrite s.params.base 4 w rest →
    (s.status.fault = true → step s = .next { s with events := rest }) ∧
    (s.status.fault = false → s.phase = .busy →
      step s = .next { s with events := rest, status := { s.status with errBusy := true } }) ∧
    (s.status.fault = false → s.phase = .idle → ∀ why, decode w = .illegal why →
      step s = .next { s with events := rest, status := { s.status with errIllegal := true } }) ∧
    (s.status.fault = false → s.phase = .idle → ∀ i, decode w = .command i →
      step s = .next { s with
        events := rest, phase := .busy
        pend := { cmd := i, settings := s.settings, rate := s.sampleRate, maxBlock := s.maxBlock } })

/-- A step completes the command in progress by its meaning: where the outside says `complete`, and where nothing else is left to
happen (43_engine.md R201; that `events` carries the completion time is the model's, assumption 1). -/
def Obligations.StepCompletesThePendingCommand : Prop :=
  ∀ (s : State) (rest : List HostEvent), s.params.wellFormed = true → s.phase = .busy →
    (s.events = .complete :: rest → step s = exec s.pend.cmd { s with events := rest }) ∧
    (s.events = [] → step s = exec s.pend.cmd s)

/-- A step runs the decoded instruction: a legal word written to CMD of an idle unfaulted core, and then its completion, are two
steps, and the second is the meaning of the decoded command at the accepted state (43_engine.md R200, R201). -/
def Obligations.WrittenCommandRunsAsDecoded : Prop :=
  ∀ (s : State) (w : Word) (i : Instr) (rest : List HostEvent),
    s.nextWrite s.params.base 4 w (.complete :: rest) → s.phase = .idle → s.status.fault = false → decode w = .command i →
    ∃ t, step s = .next t ∧
      t = { s with
        events := .complete :: rest, phase := .busy
        pend := { cmd := i, settings := s.settings, rate := s.sampleRate, maxBlock := s.maxBlock } } ∧
      step t = exec i { t with events := rest }

/-- A word placed by withFetchWord is what the very next step runs (the model's interface, assumption 4). -/
def Obligations.PlacedWordRunsNext : Prop :=
  ∀ (s : State) (n : Nat) (i : Instr), s.params.wellFormed = true → n < 2 ^ 32 →
    decode (BitVec.ofNat 32 n) = .command i →
    decodeTableWord 32 n = some i ∧
    step (s.withFetchWord 32 n) = exec i { s with
      phase := .busy
      pend := { cmd := i, settings := s.settings, rate := s.sampleRate, maxBlock := s.maxBlock } }

/-- 43_engine.md R201, 70_reset_and_hazards.md R283: from a busy core every run that does not stop is idle after finitely many steps:
the command has completed, or a reset event has abandoned it. That this takes at most one step for each outside event and one
more, and that a command completes where no event is left, is the model's choice (assumption 1). -/
def Obligations.AcceptedCommandCompletes : Prop :=
  ∀ s : State, s.phase = .busy →
    ∃ k, k ≤ s.events.length + 1 ∧ ∀ t, Sys2Proof.core.run k s = .next t → t.phase = .idle

/-- The hidden sequencer state is not observable while IDLE (10_state.md R29): another `pend` changes no step, except that the
idle next state still holds that other value. -/
def Obligations.IdlePendingIsUnobservable : Prop :=
  ∀ (s : State) (p : Pending), s.phase = .idle →
    (∀ t, step s = .next t →
      step { s with pend := p } = .next t ∨ (t.phase = .idle ∧ step { s with pend := p } = .next { t with pend := p })) ∧
    (∀ r, step s = .fault r → step { s with pend := p } = .fault r) ∧
    (∀ r, step s = .refused r → step { s with pend := p } = .refused r)

/-! ### The commands -/

/-- 43_engine.md R202: NOP runs in every state and changes nothing but BUSY. -/
def Obligations.NopCompletesAndChangesNothing : Prop :=
  ∀ s : State, exec .nop s = .next { s with phase := .idle }

/-- 43_engine.md R205: a PREPARE whose accepted rate is finite and positive and whose accepted block size is in 1..BUF_CAP latches
both, sets PREPARED, zeroes the 36 delay elements, and changes nothing else. -/
def Obligations.PrepareCompletes : Prop :=
  ∀ s : State, F32.isNaN s.pend.rate = false → F32.isFinite s.pend.rate = true → 0 < F32.units s.pend.rate →
    1 ≤ s.pend.maxBlock.toNat → s.pend.maxBlock.toNat ≤ s.params.bufCap →
    ∃ t, exec .prepare s = .next t ∧ t.phase = .idle ∧ t.actRate = s.pend.rate ∧ t.actMax = s.pend.maxBlock ∧
      t.status = { s.status with prepared := true } ∧
      (∀ c j, t.stage c j = { s.stage c j with s1 := 0, s2 := 0 }) ∧
      t.params = s.params ∧ t.pend = s.pend ∧ t.settings = s.settings ∧ t.sampleRate = s.sampleRate ∧
      t.maxBlock = s.maxBlock ∧ t.snap = s.snap ∧ t.mem = s.mem ∧ t.events = s.events ∧ t.returned = s.returned ∧
      t.drawClock = s.drawClock

/-- 60_exceptions.md R246, 43_engine.md R205 to R207: the order of the checks of PREPARE (code 2, then 3), of UPDATE (code 1, then
validation's) and of PROCESS (code 1, code 4, then validation's). A violated check ends the command, with only STATUS and the
phase changed. -/
def Obligations.ViolatedChecksEndCommandsInOrder : Prop :=
  ∀ (s : State) (n : Nat),
    ((F32.isNaN s.pend.rate = true ∨ F32.isFinite s.pend.rate = false ∨ F32.units s.pend.rate ≤ 0) →
      exec .prepare s = .next (s.endedBy .rateInvalid)) ∧
    (F32.isNaN s.pend.rate = false → F32.isFinite s.pend.rate = true → 0 < F32.units s.pend.rate →
      (s.pend.maxBlock.toNat = 0 ∨ s.params.bufCap < s.pend.maxBlock.toNat) →
      exec .prepare s = .next (s.endedBy .maxBlockInvalid)) ∧
    (s.status.prepared = false →
      exec .update s = .next (s.endedBy .notPrepared) ∧ exec (.process n) s = .next (s.endedBy .notPrepared)) ∧
    (s.status.prepared = true → s.actMax.toNat < n → exec (.process n) s = .next (s.endedBy .blockTooLong)) ∧
    (s.status.prepared = true → ∀ code,
      (validate s.pend.settings s.actRate s.params.buildMode = .fail code ∨
        validate s.pend.settings s.actRate s.params.buildMode = .fault code) →
      exec .update s = .next (s.endedBy code) ∧ (n ≤ s.actMax.toNat → exec (.process n) s = .next (s.endedBy code)))

/-- 43_engine.md R206, R209, R212: an UPDATE that is prepared and validates writes the designed coefficients and the bypass flags of
both channels, the SNAP_ registers, and ERR_CLAMP if it clamped; no delay element, and nothing else, changes. -/
def Obligations.UpdateCompletes : Prop :=
  ∀ (s : State) (sane : Settings) (clamped : Bool), s.status.prepared = true →
    validate s.pend.settings s.actRate s.params.buildMode = .ok sane clamped →
    ∃ t, exec .update s = .next t ∧ t.phase = .idle ∧ t.snap = sane ∧
      t.status = { s.status with errClamp := s.status.errClamp || clamped } ∧
      (∀ c, t.stage c 4 = { s.stage c 4 with
        coeffs := designPeak s.params.designArith s.actRate sane.pkf sane.pkq sane.pkg }) ∧
      (∀ c k, AssignedStage sane.lcs.toNat
        (designHighpassCascade s.params.designArith sane.lcf s.actRate (2 * (sane.lcs.toNat + 1))) k
        (s.stage c (lowSlot k)) (t.stage c (lowSlot k))) ∧
      (∀ c k, AssignedStage sane.hcs.toNat
        (designLowpassCascade s.params.designArith sane.hcf s.actRate (2 * (sane.hcs.toNat + 1))) k
        (s.stage c (highSlot k)) (t.stage c (highSlot k))) ∧
      t.params = s.params ∧ t.pend = s.pend ∧ t.settings = s.settings ∧ t.sampleRate = s.sampleRate ∧
      t.maxBlock = s.maxBlock ∧ t.actRate = s.actRate ∧ t.actMax = s.actMax ∧ t.mem = s.mem ∧ t.events = s.events ∧
      t.returned = s.returned ∧ t.drawClock = s.drawClock

/-- 43_engine.md R206, 40_designer.md R121: running UPDATE again on the state an UPDATE left changes nothing. -/
def Obligations.UpdateTwiceIsUpdateOnce : Prop :=
  ∀ s t : State, exec .update s = .next t → exec .update t = .next t

/-- 43_engine.md R207: a PROCESS that is prepared, short enough and validates, and whose words are all written, runs the update and
then chainProcess over both buffers' first N words. The word lists are the samples; the NaN draws are Config.nanDraw at the
block's sample times (a free value, assumption 2). -/
def Obligations.ProcessCompletes : Prop :=
  ∀ (s : State) (n : Nat) (sane : Settings) (clamped : Bool) (samples : Channel → List Word),
    s.params.wellFormed = true → s.status.prepared = true → n ≤ s.actMax.toNat → s.actMax.toNat ≤ s.params.bufCap →
    validate s.pend.settings s.actRate s.params.buildMode = .ok sane clamped →
    (∀ c, s.mem.readBlock (bufferOffset c 0) n = some (samples c)) →
    ∃ t, exec (.process n) s = .next t ∧ t.phase = .idle ∧ t.snap = sane ∧
      t.status = { s.status with errClamp := s.status.errClamp || clamped } ∧
      ∀ c, ∃ ch ys,
        chainProcess s.params.denormalMode (fun j i op => Config.nanDraw (s.drawClock + i) c.index j op)
          (designInto s.params.designArith s.actRate sane (s.chain c)) (samples c) = (ch, ys) ∧
        t.mem.readBlock (bufferOffset c 0) n = some ys ∧
        ∀ j, t.stage c j = (match s.params.snapToZero with
          | .off => ch.get j
          | .on => snapStage (ch.get j))

/-- 10_state.md R36: a PROCESS that passes its checks and whose range holds a word with an unwritten byte, in either buffer, is the
model fault Unwritten. -/
def Obligations.ProcessOnUnwrittenWordFaults : Prop :=
  ∀ (s : State) (n i : Nat) (c : Channel) (sane : Settings) (clamped : Bool), s.status.prepared = true →
    n ≤ s.actMax.toNat → validate s.pend.settings s.actRate s.params.buildMode = .ok sane clamped →
    i < n → s.mem.readWord (bufferOffset c i) = none → exec (.process n) s = .fault .unwritten

/-- 43_engine.md R208: PROCESS with N = 0 does exactly what UPDATE does where SNAP_TO_ZERO is off. Where it is on, the state snap
that ends every PROCESS (42_datapath.md R179) follows. -/
def Obligations.ZeroLengthProcessIsUpdate : Prop :=
  ∀ s : State,
    (s.params.snapToZero = .off → exec (.process 0) s = exec .update s) ∧
    (s.params.snapToZero = .on → ∀ sane clamped, s.status.prepared = true →
      validate s.pend.settings s.actRate s.params.buildMode = .ok sane clamped →
      ∀ t, exec .update s = .next t → exec (.process 0) s = .next (t.mapStages snapStage))

/-- 60_exceptions.md R249, 43_engine.md R210, R211: a command fails (release only) or faults (debug only) with nothing changed but
STATUS and the phase, or it ends with FAULT, ERR_FAIL and CAUSE as they were. -/
def Obligations.CommandsFailFaultOrComplete : Prop :=
  ∀ (i : Instr) (s t : State), exec i s = .next t →
    (∃ code, code ≠ .none ∧ t = s.endedBy code) ∨
      (t.phase = .idle ∧ t.status.fault = s.status.fault ∧ t.status.errFail = s.status.errFail ∧
        t.status.cause = s.status.cause ∧
        (s.params.buildMode = .debug → t.status.errClamp = s.status.errClamp))

/-- The frame of the four commands (43_engine.md R202, R205 to R207): what none of them changes, what only PREPARE changes, what only
UPDATE and PROCESS change, and what NOP leaves. -/
def Obligations.CommandFrame : Prop :=
  ∀ (i : Instr) (s t : State), exec i s = .next t →
    t.params = s.params ∧ t.pend = s.pend ∧ t.settings = s.settings ∧ t.sampleRate = s.sampleRate ∧
    t.maxBlock = s.maxBlock ∧ t.events = s.events ∧ t.returned = s.returned ∧ t.phase = .idle ∧
    t.status.errIllegal = s.status.errIllegal ∧ t.status.errBusy = s.status.errBusy ∧
    (i ≠ .prepare → t.actRate = s.actRate ∧ t.actMax = s.actMax ∧ t.status.prepared = s.status.prepared) ∧
    ((i = .nop ∨ i = .prepare) → t.snap = s.snap ∧ t.status.errClamp = s.status.errClamp ∧
      ∀ c j, (t.stage c j).coeffs = (s.stage c j).coeffs ∧ (t.stage c j).byp = (s.stage c j).byp) ∧
    ((i = .nop ∨ i = .update) → ∀ c j, (t.stage c j).s1 = (s.stage c j).s1 ∧ (t.stage c j).s2 = (s.stage c j).s2)

/-- The memory frame (20_memory.md R81, 42_datapath.md R174): NOP, PREPARE and UPDATE leave every byte; PROCESS N leaves every byte
outside the first N words of the two buffers. -/
def Obligations.CommandMemoryFrame : Prop :=
  ∀ (i : Instr) (s t : State) (a : Nat), exec i s = .next t →
    ((i = .nop ∨ i = .prepare ∨ i = .update) → t.mem.readByte a = s.mem.readByte a) ∧
    (∀ n, i = .process n →
      (∀ c, a < bufferOffset c 0 ∨ bufferOffset c 0 + 4 * n ≤ a) → t.mem.readByte a = s.mem.readByte a)

/-- 20_memory.md R66, R77, 43_engine.md R203: a command uses only what acceptance latched. Other values in SAMPLE_RATE, MAX_BLOCK and
the settings registers change nothing that it does. That the two runs agree even in the bits of a NaN result is the model's
choice: its draws depend on the sample time, the channel, the slot and the operation alone (assumption 2). -/
def Obligations.CommandsIgnoreTheLiveRegisters : Prop :=
  ∀ (i : Instr) (s : State) (settings : Settings) (rate block : Word),
    (∀ t, exec i s = .next t →
      exec i { s with settings := settings, sampleRate := rate, maxBlock := block } =
        .next { t with settings := settings, sampleRate := rate, maxBlock := block }) ∧
    (∀ r, exec i s = .fault r → exec i { s with settings := settings, sampleRate := rate, maxBlock := block } = .fault r)

/-! ### Validation -/

/-- 43_engine.md R204: the limits are 20 Hz to 20 kHz, 0 to 3, Q_MIN to 10 and -24 to 24 dB, as values in units of 2^-149. -/
def Obligations.SettingsLimitsAreTheStatedValues : Prop :=
  (∀ f : Field, f = .lcf ∨ f = .hcf ∨ f = .pkf →
    F32.units f.limits.1 = 20 * 2 ^ 149 ∧ F32.units f.limits.2.1 = 20000 * 2 ^ 149 ∧ f.limits.2.2 = .freqRange) ∧
  (∀ f : Field, f = .lcs ∨ f = .hcs → f.limits.1.toNat = 0 ∧ f.limits.2.1.toNat = 3 ∧ f.limits.2.2 = .slopeRange) ∧
  (Field.pkq.limits.1 = 0x3DCCCCCD ∧ F32.units Field.pkq.limits.2.1 = 10 * 2 ^ 149 ∧ Field.pkq.limits.2.2 = .qRange) ∧
  (F32.units Field.pkg.limits.1 = -24 * 2 ^ 149 ∧ F32.units Field.pkg.limits.2.1 = 24 * 2 ^ 149 ∧
    Field.pkg.limits.2.2 = .gainRange)

/-- 40_designer.md R122: what validation lets through is inside the designers' domain, in both build modes. -/
def Obligations.ValidatedSettingsAreInTheDesignDomain : Prop :=
  ∀ (settings : Settings) (rate : Word) (mode : BuildMode) (sane : Settings) (clamped : Bool),
    validate settings rate mode = .ok sane clamped → sane.InRange ∧ sane.BelowNyquist rate

/-- 43_engine.md R204, release: without a NaN, every field is clamped to its limits, and validation succeeds exactly if the clamped
frequencies lie below Nyquist; it says whether a field changed. A NaN fails with code 9, a frequency at or above Nyquist with
code 10. -/
def Obligations.ReleaseValidationClampsOrFails : Prop :=
  ∀ (settings : Settings) (rate : Word),
    (settings.NoNaN → settings.clampAll.BelowNyquist rate →
      validate settings rate .release = .ok settings.clampAll (decide (settings.clampAll ≠ settings))) ∧
    (settings.NoNaN → ¬ settings.clampAll.BelowNyquist rate → validate settings rate .release = .fail .aboveNyquist) ∧
    (¬ settings.NoNaN → validate settings rate .release = .fail .settingNan)

/-- 43_engine.md R204, R211, 60_exceptions.md R246, debug: the first field in register order that is NaN or out of range faults, with
code 9 or its range code; then the Nyquist checks fault with code 10; otherwise the settings stand as they are. -/
def Obligations.DebugValidationFaultsOnTheFirstViolation : Prop :=
  ∀ (settings : Settings) (rate : Word),
    validate settings rate .debug =
      match [Field.lcf, .lcs, .hcf, .hcs, .pkf, .pkq, .pkg].find? (fun f => !f.inRange (settings.get f)) with
      | some f => .fault (if f.isFloat && F32.isNaN (settings.get f) then .settingNan else f.limits.2.2)
      | none =>
        if F32.units rate ≤ 2 * F32.units settings.lcf ∨ F32.units rate ≤ 2 * F32.units settings.hcf ∨
            F32.units rate ≤ 2 * F32.units settings.pkf then .fault .aboveNyquist
        else .ok settings false

/-! ### Binary32 arithmetic -/

/-- 00_scope.md R10: ⊕ and ⊖ of finite data are the exact sum and difference rounded once to nearest, ties to even; an exact zero
sum is -0 only if both operands are negative. -/
def Obligations.SumAndDifferenceAreRoundedOnce : Prop :=
  ∀ (draw : BitVec 23) (x y : Word), F32.isFinite x = true → F32.isFinite y = true →
    F32.IsRounding ((F32.units x : ℝ) + F32.units y) (F32.add .ieee draw x y) ∧
    F32.IsRounding ((F32.units x : ℝ) - F32.units y) (F32.sub .ieee draw x y) ∧
    (F32.units x + F32.units y = 0 → F32.sign (F32.add .ieee draw x y) = (F32.sign x && F32.sign y)) ∧
    (F32.units x - F32.units y = 0 → F32.sign (F32.sub .ieee draw x y) = (F32.sign x && !F32.sign y))

/-- 00_scope.md R10: ⊗ of finite data is the exact product (in units of 2^-149) rounded once, with the product's sign. -/
def Obligations.ProductIsRoundedOnce : Prop :=
  ∀ (draw : BitVec 23) (x y : Word), F32.isFinite x = true → F32.isFinite y = true →
    F32.IsRounding ((F32.units x : ℝ) * F32.units y / 2 ^ 149) (F32.mul .ieee draw x y) ∧
    F32.sign (F32.mul .ieee draw x y) = (F32.sign x != F32.sign y)

/-- 42_datapath.md R180, 00_scope.md R10: the IEEE results with a NaN or infinite operand, whatever the NaN draw: a NaN operand, an
infinite x with a finite y, a finite x with an infinite y, and two infinities. -/
def Obligations.NonFiniteOperandsFollowIeee : Prop :=
  ∀ (m : DenormalMode) (draw : BitVec 23) (x y : Word),
    ((F32.isNaN x = true ∨ F32.isNaN y = true) →
      F32.isNaN (F32.add m draw x y) = true ∧ F32.isNaN (F32.sub m draw x y) = true ∧
        F32.isNaN (F32.mul m draw x y) = true) ∧
    (F32.isInf x = true → F32.isFinite y = true →
      F32.add m draw x y = x ∧ F32.sub m draw x y = x ∧
        (F32.isZero (F32.flush m y) = true → F32.isNaN (F32.mul m draw x y) = true) ∧
        (F32.isZero (F32.flush m y) = false →
          F32.mul m draw x y = F32.pack (F32.sign x != F32.sign y) F32.infMag)) ∧
    (F32.isFinite x = true → F32.isInf y = true →
      F32.add m draw x y = y ∧ F32.sub m draw x y = F32.neg y ∧
        (F32.isZero (F32.flush m x) = true → F32.isNaN (F32.mul m draw x y) = true) ∧
        (F32.isZero (F32.flush m x) = false →
          F32.mul m draw x y = F32.pack (F32.sign x != F32.sign y) F32.infMag)) ∧
    (F32.isInf x = true → F32.isInf y = true →
      (F32.sign x = F32.sign y → F32.add m draw x y = x ∧ F32.isNaN (F32.sub m draw x y) = true) ∧
      (F32.sign x ≠ F32.sign y → F32.isNaN (F32.add m draw x y) = true ∧ F32.sub m draw x y = x) ∧
      F32.mul m draw x y = F32.pack (F32.sign x != F32.sign y) F32.infMag)

/-- 42_datapath.md R178: with `ftz` no sum, difference or product is subnormal, and a subnormal operand acts as a zero of its sign.
On operands that are not subnormal the result is the `ieee` result, or, where that is subnormal, a zero of its sign. -/
def Obligations.FlushToZeroFlushesOperandsAndResults : Prop :=
  ∀ (draw : BitVec 23) (x y : Word),
    F32.isSubnormal (F32.add .ftz draw x y) = false ∧ F32.isSubnormal (F32.sub .ftz draw x y) = false ∧
    F32.isSubnormal (F32.mul .ftz draw x y) = false ∧
    (F32.isSubnormal x = true →
      F32.add .ftz draw x y = F32.add .ftz draw (F32.pack (F32.sign x) 0) y ∧
      F32.sub .ftz draw x y = F32.sub .ftz draw (F32.pack (F32.sign x) 0) y ∧
      F32.mul .ftz draw x y = F32.mul .ftz draw (F32.pack (F32.sign x) 0) y) ∧
    (F32.isSubnormal y = true →
      F32.add .ftz draw x y = F32.add .ftz draw x (F32.pack (F32.sign y) 0) ∧
      F32.sub .ftz draw x y = F32.sub .ftz draw x (F32.pack (F32.sign y) 0) ∧
      F32.mul .ftz draw x y = F32.mul .ftz draw x (F32.pack (F32.sign y) 0)) ∧
    (F32.isSubnormal x = false → F32.isSubnormal y = false →
      ∀ ieee ftz : Word,
        (ieee = F32.add .ieee draw x y ∧ ftz = F32.add .ftz draw x y) ∨
          (ieee = F32.sub .ieee draw x y ∧ ftz = F32.sub .ftz draw x y) ∨
          (ieee = F32.mul .ieee draw x y ∧ ftz = F32.mul .ftz draw x y) →
        (F32.isSubnormal ieee = false → ftz = ieee) ∧ (F32.isSubnormal ieee = true → ftz = F32.pack (F32.sign ieee) 0))

/-! ### The designer -/

/-- 40_designer.md R123 to R125: each `exact` peak coefficient is round32 of the cookbook formula in exact reals, for every input of
the domain of R122. Which zero stands for the exact value 0, and for a nonzero value too small for binary32, is the model's
choice (assumptions 10 and 15). -/
def Obligations.PeakDesignIsRoundedExactly : Prop :=
  ∀ rate freq q gain : Word, F32.isFinite rate = true → F32.isFinite freq = true → F32.isFinite q = true →
    F32.isFinite gain = true → 0 < F32.units freq → 2 * F32.units freq < F32.units rate → 0 < F32.units q →
    let c : Coeffs := designPeak .exact rate freq q gain
    let value : Word → ℝ := fun w => (F32.units w : ℝ) / 2 ^ 149
    let g : ℝ := (10 : ℝ) ^ (value gain / 20)
    let A : ℝ := Real.sqrt g
    let w0 : ℝ := 2 * Real.pi * value freq / value rate
    let alpha : ℝ := Real.sin w0 / (2 * value q)
    let a0 : ℝ := 1 + alpha / A
    F32.IsRounding ((1 + alpha * A) / a0 * 2 ^ 149) c.b0 ∧
    F32.IsRounding (-2 * Real.cos w0 / a0 * 2 ^ 149) c.b1 ∧
    F32.IsRounding ((1 - alpha * A) / a0 * 2 ^ 149) c.b2 ∧
    F32.IsRounding (-2 * Real.cos w0 / a0 * 2 ^ 149) c.a1 ∧
    F32.IsRounding ((1 - alpha / A) / a0 * 2 ^ 149) c.a2

/-- 40_designer.md R123, R126, R127: each coefficient of section k of the `exact` highpass of even order N, 0 ≤ k ≤ N/2 - 1, is
round32 of the formula in exact reals, for every frequency and rate of the domain of R122. Zeros as in the peak's statement
(assumptions 10 and 15). -/
def Obligations.HighpassDesignIsRoundedExactly : Prop :=
  ∀ (freq rate : Word) (order k : Nat), F32.isFinite rate = true → F32.isFinite freq = true →
    0 < F32.units freq → 2 * F32.units freq < F32.units rate → order % 2 = 0 → k < order / 2 →
    ∃ c : Coeffs, (designHighpassCascade .exact freq rate order)[k]? = some c ∧
      let value : Word → ℝ := fun w => (F32.units w : ℝ) / 2 ^ 149
      let K : ℝ := Real.tan (Real.pi * value freq / value rate)
      let Q : ℝ := 1 / (2 * Real.cos ((2 * k + 1) * Real.pi / (2 * order)))
      let g : ℝ := 1 / (1 + K / Q + K ^ 2)
      F32.IsRounding (g * 2 ^ 149) c.b0 ∧
      F32.IsRounding (-2 * g * 2 ^ 149) c.b1 ∧
      F32.IsRounding (g * 2 ^ 149) c.b2 ∧
      F32.IsRounding (2 * g * (K ^ 2 - 1) * 2 ^ 149) c.a1 ∧
      F32.IsRounding (g * (1 - K / Q + K ^ 2) * 2 ^ 149) c.a2

/-- 40_designer.md R123, R126, R128: the same for the `exact` lowpass, with M = 1/tan(π f / R). Zeros as in the peak's statement
(assumptions 10 and 15): at a very high rate b0, b1 and b2 are too small for binary32. That b1 is round32(2g), and not twice b0,
where g is subnormal is the model's choice between the two sentences of R128 (assumption 16). -/
def Obligations.LowpassDesignIsRoundedExactly : Prop :=
  ∀ (freq rate : Word) (order k : Nat), F32.isFinite rate = true → F32.isFinite freq = true →
    0 < F32.units freq → 2 * F32.units freq < F32.units rate → order % 2 = 0 → k < order / 2 →
    ∃ c : Coeffs, (designLowpassCascade .exact freq rate order)[k]? = some c ∧
      let value : Word → ℝ := fun w => (F32.units w : ℝ) / 2 ^ 149
      let M : ℝ := 1 / Real.tan (Real.pi * value freq / value rate)
      let Q : ℝ := 1 / (2 * Real.cos ((2 * k + 1) * Real.pi / (2 * order)))
      let g : ℝ := 1 / (1 + M / Q + M ^ 2)
      F32.IsRounding (g * 2 ^ 149) c.b0 ∧
      F32.IsRounding (2 * g * 2 ^ 149) c.b1 ∧
      F32.IsRounding (g * 2 ^ 149) c.b2 ∧
      F32.IsRounding (2 * g * (1 - M ^ 2) * 2 ^ 149) c.a1 ∧
      F32.IsRounding (g * (1 - M / Q + M ^ 2) * 2 ^ 149) c.a2

/-- 40_designer.md R131: each cut design returns exactly order/2 coefficient sets for order ∈ {2, 4, 6, 8}. -/
def Obligations.CutDesignsReturnHalfOrderSections : Prop :=
  ∀ (arith : DesignArith) (freq rate : Word) (order : Nat), order = 2 ∨ order = 4 ∨ order = 6 ∨ order = 8 →
    2 * (designHighpassCascade arith freq rate order).length = order ∧
    2 * (designLowpassCascade arith freq rate order).length = order

/-! ### SlopeCascade -/

/-- 41_cascade.md R152: after assign(oi, coeffs) exactly the stages 0..oi are not bypassed. -/
def Obligations.AssignEnablesExactlyThePrefix : Prop :=
  ∀ (c : Cascade) (oi : Nat) (coeffs : List Coeffs), oi ≤ 3 → coeffs.length = oi + 1 →
    ∀ k : Fin 4, ((c.assign oi coeffs).get k).byp = false ↔ k.val ≤ oi

/-! ### Datapath -/

/-- 42_datapath.md R175: stage-major and sample-major processing leave the same buffer words and the same stages. That they agree
in the bits of a NaN result too is the model's choice: a draw is named by the slot, the sample and the operation, not by the
order of evaluation (assumption 2). -/
def Obligations.StageMajorEqualsSampleMajor : Prop :=
  ∀ (m : DenormalMode) (draw : Nat → Nat → Nat → BitVec 23) (ch : Chain) (xs : List Word),
    chainProcess m draw ch xs = chainProcessBySample m draw ch 0 xs

/-- 42_datapath.md R177, 43_engine.md R207, R209: a PROCESS that is not too long leaves exactly the coefficients, bypass flags and
SNAP_ registers that UPDATE leaves: no sample changes one. -/
def Obligations.SamplesChangeNoCoefficient : Prop :=
  ∀ (s t u : State) (n : Nat), n ≤ s.actMax.toNat → exec .update s = .next u → exec (.process n) s = .next t →
    t.snap = u.snap ∧ t.status = u.status ∧
    ∀ c j, (t.stage c j).coeffs = (u.stage c j).coeffs ∧ (t.stage c j).byp = (u.stage c j).byp

/-- 42_datapath.md R172, 10_state.md R37: a stage that is bypassed after a PROCESS keeps its delay elements through it, the state
snap included. -/
def Obligations.BypassedStagesStayFrozen : Prop :=
  ∀ (s t : State) (n : Nat) (c : Channel) (j : Fin 9), exec (.process n) s = .next t → (t.stage c j).byp = true →
    (t.stage c j).s1 = (s.stage c j).s1 ∧ (t.stage c j).s2 = (s.stage c j).s2

/-- 42_datapath.md R180: a NaN sample makes the output and both delay elements NaN; a NaN in s1 makes every later output NaN, stays in
s1, and is in s2 too after one sample or more; a NaN in s2 reaches s1 with the next sample. -/
def Obligations.NanStaysInAStage : Prop :=
  ∀ (m : DenormalMode) (draw : Nat → Nat → BitVec 23) (st : Stage) (i : Nat) (x : Word) (xs : List Word),
    (F32.isNaN x = true → F32.isNaN (stageStep m (draw i) st x).2 = true ∧
      F32.isNaN (stageStep m (draw i) st x).1.s1 = true ∧ F32.isNaN (stageStep m (draw i) st x).1.s2 = true) ∧
    (F32.isNaN st.s2 = true → F32.isNaN (stageStep m (draw i) st x).1.s1 = true) ∧
    (F32.isNaN st.s1 = true → (∀ y ∈ (runStage m draw st i xs).2, F32.isNaN y = true) ∧
      F32.isNaN (runStage m draw st i xs).1.s1 = true ∧ (xs ≠ [] → F32.isNaN (runStage m draw st i xs).1.s2 = true))

/-- 42_datapath.md R181: with b0 = 1.0, b1 = a1, b2 = a2 (the neutral coefficients, and every 0 dB peak) and zero delays of any signs,
a finite sample whose products with b1 and b2 are finite comes out equal in value, a nonzero one bit for bit, and the delays
stay zeros. -/
def Obligations.IdentityStagePassesItsInput : Prop :=
  ∀ (draw : Nat → BitVec 23) (d : BitVec 23) (st : Stage) (x : Word), st.coeffs.b0 = 0x3F800000 →
    st.coeffs.b1 = st.coeffs.a1 → st.coeffs.b2 = st.coeffs.a2 → F32.isZero st.s1 = true → F32.isZero st.s2 = true →
    F32.isFinite x = true → F32.isFinite (F32.mul .ieee d st.coeffs.b1 x) = true →
    F32.isFinite (F32.mul .ieee d st.coeffs.b2 x) = true →
    F32.units (stageStep .ieee draw st x).2 = F32.units x ∧
    (F32.isZero x = false → (stageStep .ieee draw st x).2 = x) ∧
    F32.isZero (stageStep .ieee draw st x).1.s1 = true ∧ F32.isZero (stageStep .ieee draw st x).1.s2 = true

/-- 42_datapath.md R171: where none of the nine operations of each stageStep rounds, three samples in a row through a stage satisfy
the difference equation y[n] = b0·x[n] + b1·x[n-1] + b2·x[n-2] - a1·y[n-1] - a2·y[n-2]. -/
def Obligations.ExactStepsFollowTheDifferenceEquation : Prop :=
  ∀ (m : DenormalMode) (d0 d1 d2 : Nat → BitVec 23) (st st0 st1 st2 : Stage) (x0 x1 x2 y0 y1 y2 : Word),
    StepExact m d0 st x0 → StepExact m d1 st0 x1 → StepExact m d2 st1 x2 →
    stageStep m d0 st x0 = (st0, y0) → stageStep m d1 st0 x1 = (st1, y1) → stageStep m d2 st1 x2 = (st2, y2) →
    F32.rat y2 = F32.rat st.coeffs.b0 * F32.rat x2 + F32.rat st.coeffs.b1 * F32.rat x1 + F32.rat st.coeffs.b2 * F32.rat x0
      - F32.rat st.coeffs.a1 * F32.rat y1 - F32.rat st.coeffs.a2 * F32.rat y0

/-- 42_datapath.md R179: with SNAP_TO_ZERO on, a delay value of an enabled stage stays if it is below -T or above T and becomes +0.0
otherwise (a NaN too); a bypassed stage keeps its values; with `off` nothing happens. -/
def Obligations.SnapZeroesSmallDelays : Prop :=
  ∀ (s : State) (c : Channel) (j : Fin 9),
    (s.params.snapToZero = .off → snapDelays s = s) ∧
    (s.params.snapToZero = .on →
      ((s.stage c j).byp = true → (snapDelays s).stage c j = s.stage c j) ∧
      ((s.stage c j).byp = false →
        ((snapDelays s).stage c j).coeffs = (s.stage c j).coeffs ∧ ((snapDelays s).stage c j).byp = false ∧
        ∀ v v', (v = (s.stage c j).s1 ∧ v' = ((snapDelays s).stage c j).s1) ∨
            (v = (s.stage c j).s2 ∧ v' = ((snapDelays s).stage c j).s2) →
          (F32.isNaN v = false ∧ (F32.units v < -F32.units 0x322BCC77 ∨ F32.units 0x322BCC77 < F32.units v) → v' = v) ∧
          (F32.isNaN v = true ∨ (-F32.units 0x322BCC77 ≤ F32.units v ∧ F32.units v ≤ F32.units 0x322BCC77) → v' = 0)))

/-- 10_state.md R39, 42_datapath.md R176: a channel's result does not depend on the other channel's stages or buffer. That the two
runs agree in the bits of a NaN result too is the model's choice: from equal drawClock a channel's draws are its own
(assumption 2). -/
def Obligations.ChannelsDoNotInterfere : Prop :=
  ∀ (n : Nat) (c : Channel) (s s' t t' : State), s.params.wellFormed = true → s.actMax.toNat ≤ s.params.bufCap →
    s'.params = s.params → s'.pend = s.pend → s'.status = s.status → s'.actRate = s.actRate → s'.actMax = s.actMax →
    s'.drawClock = s.drawClock → s'.chain c = s.chain c →
    (∀ a, bufferOffset c 0 ≤ a → a < bufferOffset c 0 + 0x10000 → s'.mem.readByte a = s.mem.readByte a) →
    exec (.process n) s = .next t → exec (.process n) s' = .next t' →
    t'.chain c = t.chain c ∧
    ∀ a, bufferOffset c 0 ≤ a → a < bufferOffset c 0 + 0x10000 → t'.mem.readByte a = t.mem.readByte a

/-! ### The host bus -/

/-- 20_memory.md R63: a misaligned access, one that is not 4 bytes, and one to an unmapped offset, read or write, is the model fault
BusError. (Outside the window is the model's choice, assumption 6.) -/
def Obligations.BadAccessesAreBusErrors : Prop :=
  ∀ (s : State) (addr size : Nat) (v : Word) (rest : List HostEvent),
    (size ≠ 4 ∨ addr % 4 ≠ 0 ∨ addr < s.params.base ∨ UnmappedOffset s.params (addr - s.params.base)) →
    (s.nextWrite addr size v rest → step s = .fault .busError) ∧ (s.nextRead addr size rest → step s = .fault .busError)

/-- 20_memory.md R62, R69, R70, 30_encoding.md R100: the offsets of the registers, the stage words and the buffer words. -/
def Obligations.RegisterMapIsAsTabled : Prop :=
  ∀ p : Params, p.wellFormed = true →
    ([(0x000, Reg.cmd), (0x004, .status), (0x008, .sampleRate), (0x00C, .maxBlock), (0x010, .actRate), (0x014, .actMax),
      (0x018, .id), (0x01C, .cap), (0x020, .setting .lcf), (0x024, .setting .lcs), (0x028, .setting .hcf),
      (0x02C, .setting .hcs), (0x030, .setting .pkf), (0x034, .setting .pkq), (0x038, .setting .pkg), (0x040, .snap .lcf),
      (0x044, .snap .lcs), (0x048, .snap .hcf), (0x04C, .snap .hcs), (0x050, .snap .pkf), (0x054, .snap .pkq),
      (0x058, .snap .pkg)] : List (Nat × Reg)).all (fun e => target p (p.base + e.1) 4 == some e.2) = true ∧
    (∀ (c : Channel) (j : Fin 9) (w : Fin 8),
      target p (p.base + 0x400 + 0x200 * c.index + 0x20 * j.val + 4 * w.val) 4 = some (.stage c j w)) ∧
    (∀ (c : Channel) (i : Nat), i < p.bufCap →
      target p (p.base + 0x10000 + 0x10000 * c.index + 4 * i) 4 = some (.buffer c i))

/-- 20_memory.md R71: while BUSY, an access of either kind to a buffer, STG, ACT_ or SNAP_ place is the model fault HostRace. -/
def Obligations.AccessesWhileBusyAreRaces : Prop :=
  ∀ (s : State) (addr : Nat) (v : Word) (rest : List HostEvent) (r : Reg), s.phase = .busy →
    target s.params addr 4 = some r →
    ((∃ c j w, r = .stage c j w) ∨ (∃ c i, r = .buffer c i) ∨ (∃ f, r = .snap f) ∨ r = .actRate ∨ r = .actMax) →
    (s.nextWrite addr 4 v rest → step s = .fault .hostRace) ∧ (s.nextRead addr 4 rest → step s = .fault .hostRace)

/-- 20_memory.md R73: a read returns one word and changes nothing else. -/
def Obligations.ReadsHaveNoSideEffects : Prop :=
  ∀ (s t : State) (addr size : Nat) (rest : List HostEvent), s.nextRead addr size rest → step s = .next t →
    ∃ v, t = { s with events := rest, returned := v :: s.returned }

/-- 20_memory.md R62, R65, 10_state.md R22 to R28: what reads of the control registers return, in either phase those that R71 allows
while BUSY and the read of CMD, and the others while IDLE. That a read of CMD returns 0 while BUSY too, where R71 does not list
it, is the model's reading (assumption 7), and that the others are readable from the completion on, before a STATUS read has
shown BUSY = 0, is its choice (assumption 17). -/
def Obligations.ControlRegisterReads : Prop :=
  ∀ (s : State) (offset : Nat) (v : Word) (rest : List HostEvent), s.nextRead (s.params.base + offset) 4 rest →
    ((offset, v) ∈ ([(0x000, 0), (0x008, s.sampleRate), (0x00C, s.maxBlock), (0x018, 0x45510001),
        (0x01C, BitVec.ofNat 32 s.params.bufCap), (0x020, s.settings.lcf), (0x024, s.settings.lcs), (0x028, s.settings.hcf),
        (0x02C, s.settings.hcs), (0x030, s.settings.pkf), (0x034, s.settings.pkq), (0x038, s.settings.pkg)] : List (Nat × Word)) ∨
      (s.phase = .idle ∧ (offset, v) ∈ ([(0x010, s.actRate), (0x014, s.actMax), (0x040, s.snap.lcf), (0x044, s.snap.lcs),
        (0x048, s.snap.hcf), (0x04C, s.snap.hcs), (0x050, s.snap.pkf), (0x054, s.snap.pkq),
        (0x058, s.snap.pkg)] : List (Nat × Word)))) →
    step s = .next { s with events := rest, returned := v :: s.returned }

/-- 30_encoding.md R98, R99, 10_state.md R27: a STATUS read, in any phase, returns the flags at their bits, the number of the CAUSE
code at bits 11:8, and 0 elsewhere; the codes are numbered 0 to 10. -/
def Obligations.StatusReadShowsTheFlags : Prop :=
  (∀ (s : State) (rest : List HostEvent), s.nextRead (s.params.base + 0x004) 4 rest →
    ∃ v : Word, step s = .next { s with events := rest, returned := v :: s.returned } ∧
      v.getLsbD 0 = decide (s.phase = .busy) ∧ v.getLsbD 1 = s.status.prepared ∧ v.getLsbD 2 = s.status.fault ∧
      v.getLsbD 3 = false ∧ v.getLsbD 4 = s.status.errIllegal ∧ v.getLsbD 5 = s.status.errBusy ∧
      v.getLsbD 6 = s.status.errClamp ∧ v.getLsbD 7 = s.status.errFail ∧
      v.toNat / 2 ^ 8 = s.status.cause.code) ∧
  [Cause.none, .notPrepared, .rateInvalid, .maxBlockInvalid, .blockTooLong, .slopeRange, .freqRange, .qRange, .gainRange,
    .settingNan, .aboveNyquist].map Cause.code = List.range 11

/-- 20_memory.md R67: a STATUS write, in any phase, clears exactly the flags of bits 4 to 7 whose bit is 1. -/
def Obligations.StatusWriteClearsExactlyTheSetBits : Prop :=
  ∀ (s : State) (v : Word) (rest : List HostEvent), s.nextWrite (s.params.base + 0x004) 4 v rest →
    step s = .next { s with
      events := rest
      status := { s.status with
        errIllegal := if v.getLsbD 4 then false else s.status.errIllegal
        errBusy := if v.getLsbD 5 then false else s.status.errBusy
        errClamp := if v.getLsbD 6 then false else s.status.errClamp
        errFail := if v.getLsbD 7 then false else s.status.errFail } }

/-- 20_memory.md R66, 10_state.md R22 to R24: any value is stored in a settings register, SAMPLE_RATE or MAX_BLOCK, at any time, and
nothing else changes. -/
def Obligations.SettingsWritesStoreAnyValueAtAnyTime : Prop :=
  ∀ (s : State) (v : Word) (rest : List HostEvent),
    (s.nextWrite (s.params.base + 0x008) 4 v rest → step s = .next { s with events := rest, sampleRate := v }) ∧
    (s.nextWrite (s.params.base + 0x00C) 4 v rest → step s = .next { s with events := rest, maxBlock := v }) ∧
    (s.nextWrite (s.params.base + 0x020) 4 v rest →
      step s = .next { s with events := rest, settings := { s.settings with lcf := v } }) ∧
    (s.nextWrite (s.params.base + 0x024) 4 v rest →
      step s = .next { s with events := rest, settings := { s.settings with lcs := v } }) ∧
    (s.nextWrite (s.params.base + 0x028) 4 v rest →
      step s = .next { s with events := rest, settings := { s.settings with hcf := v } }) ∧
    (s.nextWrite (s.params.base + 0x02C) 4 v rest →
      step s = .next { s with events := rest, settings := { s.settings with hcs := v } }) ∧
    (s.nextWrite (s.params.base + 0x030) 4 v rest →
      step s = .next { s with events := rest, settings := { s.settings with pkf := v } }) ∧
    (s.nextWrite (s.params.base + 0x034) 4 v rest →
      step s = .next { s with events := rest, settings := { s.settings with pkq := v } }) ∧
    (s.nextWrite (s.params.base + 0x038) 4 v rest →
      step s = .next { s with events := rest, settings := { s.settings with pkg := v } })

/-- 20_memory.md R65: a write to a read-only register is accepted and has no effect. (ID and CAP while BUSY: assumption 7. The others
from the completion on: assumption 17.) -/
def Obligations.ReadOnlyWritesAreIgnored : Prop :=
  ∀ (s : State) (addr : Nat) (v : Word) (rest : List HostEvent) (r : Reg), s.nextWrite addr 4 v rest →
    target s.params addr 4 = some r →
    (r = .id ∨ r = .cap ∨
      (s.phase = .idle ∧ (r = .actRate ∨ r = .actMax ∨ (∃ f, r = .snap f) ∨ ∃ c j w, r = .stage c j w))) →
    step s = .next { s with events := rest }

/-- 20_memory.md R70, 30_encoding.md R100: the stage readback of an idle core. That it is allowed from the completion on, before a
STATUS read has shown BUSY = 0, is the model's choice (assumption 17). -/
def Obligations.StageReadbackShowsTheStage : Prop :=
  ∀ (s : State) (c : Channel) (j : Fin 9) (w : Fin 8) (rest : List HostEvent),
    s.nextRead (s.params.base + 0x400 + 0x200 * c.index + 0x20 * j.val + 4 * w.val) 4 rest → s.phase = .idle →
    step s = .next { s with
      events := rest
      returned := [(s.stage c j).coeffs.b0, (s.stage c j).coeffs.b1, (s.stage c j).coeffs.b2, (s.stage c j).coeffs.a1,
          (s.stage c j).coeffs.a2, (s.stage c j).s1, (s.stage c j).s2,
          (if (s.stage c j).byp then 1 else 0)].getD w.val 0 :: s.returned }

/-- 20_memory.md R69, R64, 10_state.md R36: a word written to a buffer of an idle core, any of the 2^32, is what the next read of it
returns, it lies little-endian in memory, and every byte outside it is as before; a read of a word that holds a value, whoever
wrote it, returns that value; a read of a word that was never written is the model fault Unwritten. That these accesses are
allowed from a completion on, before a STATUS read has shown BUSY = 0, is the model's choice (assumption 17). -/
def Obligations.BufferWordsReadBackAsWritten : Prop :=
  ∀ (s : State) (c : Channel) (i : Nat) (rest : List HostEvent), i < s.params.bufCap → s.phase = .idle →
    (∀ v : Word, s.nextWrite (s.params.base + 0x10000 + 0x10000 * c.index + 4 * i) 4 v
        (.read (s.params.base + 0x10000 + 0x10000 * c.index + 4 * i) 4 :: rest) →
      ∃ t, step s = .next t ∧
        step t = .next { t with events := rest, returned := v :: s.returned } ∧
        (∀ k, k < 4 → t.mem.readByte (bufferOffset c i + k) = some (BitVec.ofNat 8 (v.toNat / 256 ^ k))) ∧
        (∀ a, a < bufferOffset c i ∨ bufferOffset c i + 4 ≤ a → t.mem.readByte a = s.mem.readByte a) ∧
        t = { s with events := .read (s.params.base + 0x10000 + 0x10000 * c.index + 4 * i) 4 :: rest, mem := t.mem }) ∧
    (∀ v : Word, s.mem.readWord (bufferOffset c i) = some v →
      s.nextRead (s.params.base + 0x10000 + 0x10000 * c.index + 4 * i) 4 rest →
      step s = .next { s with events := rest, returned := v :: s.returned }) ∧
    (s.mem.readWord (bufferOffset c i) = none →
      s.nextRead (s.params.base + 0x10000 + 0x10000 * c.index + 4 * i) 4 rest → step s = .fault .unwritten)

/-! ### Reset, faults and the invariant -/

/-- 70_reset_and_hazards.md R271: the reset values the spec gives, for every instance. -/
def Obligations.ResetValuesAreAsTabled : Prop :=
  ∀ p : Params, p.bufCap < 2 ^ 32 →
    let s := State.resetOf p
    s.phase = .idle ∧
    s.settings = { lcf := 0x41A00000, lcs := 0, hcf := 0x469C4000, hcs := 0, pkf := 0x443B8000, pkq := 0x3F800000, pkg := 0 } ∧
    s.snap = s.settings ∧ s.sampleRate = 0 ∧ s.maxBlock.toNat = p.bufCap ∧ s.actRate = 0 ∧ s.actMax = 0 ∧
    statusWord s.phase s.status = 0 ∧ readReg s .id = some 0x45510001 ∧ readReg s .cap = some (BitVec.ofNat 32 p.bufCap) ∧
    (∀ c i, s.mem.readWord (bufferOffset c i) = none) ∧
    ∀ c j, s.stage c j = { coeffs := ⟨0x3F800000, 0, 0, 0, 0⟩, s1 := 0, s2 := 0, byp := decide (j ∉ ([0, 4, 5] : List (Fin 9))) }

/-- 70_reset_and_hazards.md R270, R271: reset abandons a command in progress and sets every state element of the spec that has a
reset value to it. The value of `pend`, which R271 leaves undefined, is the model's choice (assumption 3), and so is what
`returned` and `drawClock`, the model's own fields, do (assumption 2). -/
def Obligations.ResetRestoresTheResetState : Prop :=
  ∀ (s : State) (rest : List HostEvent), s.params.wellFormed = true → s.events = .reset :: rest →
    step s = .next { State.resetOf s.params with events := rest, returned := s.returned, drawClock := s.drawClock }

/-- 60_exceptions.md R245: only reset leaves the fault state, whatever else happens. -/
def Obligations.FaultIsLeftOnlyByReset : Prop :=
  ∀ s t : State, s.status.fault = true → step s = .next t → t.status.fault = true ∨ ∃ rest, s.events = .reset :: rest

/-- 10_state.md R33: the peak stage's flag is 0, reads back as 0, and keeps nothing that is written to it, so the peak stage always
processes; every other slot reads back as written, and a write leaves the other slots. -/
def Obligations.PeakStageIsNeverBypassed : Prop :=
  ∀ (ch : Chain) (st : Stage) (m : DenormalMode) (draw : Nat → Nat → BitVec 23) (xs : List Word),
    (ch.get 4).byp = false ∧ stageWord (ch.get 4) 7 = 0 ∧ ((ch.set 4 st).get 4) = { st with byp := false } ∧
    blockTurn m draw (ch.get 4) xs = runStage m draw (ch.get 4) 0 xs ∧
    ∀ j : Fin 9, (j ≠ 4 → (ch.set j st).get j = st) ∧ ∀ k, k ≠ j → (ch.set j st).get k = ch.get k

/-- The invariant holds at reset of every instance (10_state.md R34, 70_reset_and_hazards.md R272). -/
def Obligations.ResetMeetsTheInvariant : Prop := ∀ p : Params, p.wellFormed = true → (State.resetOf p).Inv

/-- Every step keeps the invariant: the canonical memory, whole written words inside the buffers, the cascade invariant of 10_state.md
R34, equal coefficients of both channels (R39), sane SNAP_ registers (43_engine.md R212), ACT_MAX ≤ BUF_CAP (20_memory.md
R81), and what the build modes exclude (43_engine.md R211). The parameters never change (00_scope.md R8). -/
def Obligations.StepKeepsTheInvariant : Prop :=
  ∀ s t : State, s.Inv → step s = .next t → t.Inv ∧ t.params = s.params
end

