-- ==== Sys2Proof/Laws/Rounding.lean ====
section
/-! SUPPORT. Binary32 data as integers, and what rounding does: `roundReal n d` is the rounding of n/d (00_scope.md R10). -/

namespace Sys2Proof.Machine.F32

theorem mag_lt (x : Word) : mag x < 2 ^ 31 := Nat.mod_lt _ (by norm_num)

theorem mag_pack {n : Bool} {m : Nat} (h : m < 2 ^ 31) : mag (pack n m) = m := by
  cases n <;> simp only [mag, pack, BitVec.toNat_ofNat] <;> norm_num <;> omega

theorem sign_pack {n : Bool} {m : Nat} (h : m < 2 ^ 31) : sign (pack n m) = n := by
  cases n <;> simp only [sign, pack, BitVec.toNat_ofNat] <;> norm_num <;> omega

theorem pack_sign_mag (x : Word) : pack (sign x) (mag x) = x := by
  apply BitVec.eq_of_toNat_eq
  have := x.isLt
  by_cases h : 2 ^ 31 ≤ x.toNat <;> simp only [pack, sign, mag, h, decide_true, decide_false, BitVec.toNat_ofNat] <;>
    norm_num at * <;> omega

theorem sign_neg (x : Word) : sign (neg x) = !sign x := sign_pack (mag_lt x)

theorem mag_neg (x : Word) : mag (neg x) = mag x := mag_pack (mag_lt x)

theorem units_pack {n : Bool} {m : Nat} (h : m < 2 ^ 31) :
    units (pack n m) = if n then -(magUnits m : Int) else (magUnits m : Int) := by
  rw [units, sign_pack h, mag_pack h]

theorem units_neg (x : Word) : units (neg x) = -units x := by
  rw [units, units, sign_neg, mag_neg]
  cases sign x <;> simp

theorem isNaN_quietNaN (d : BitVec 23) : isNaN (quietNaN d) = true := by
  have h : 0x7FC00000 + d.toNat % 2 ^ 22 < 2 ^ 31 := by omega
  rw [isNaN, quietNaN, mag_pack h]
  exact decide_eq_true (by unfold infMag; omega)

theorem isNaN_neg (x : Word) : isNaN (neg x) = isNaN x := by rw [isNaN, isNaN, mag_neg]

/-- The distance to the next magnitude. -/
theorem magUnits_succ (m : Nat) : magUnits (m + 1) = magUnits m + 2 ^ (m / 2 ^ 23 - 1) := by
  unfold magUnits
  by_cases h1 : m + 1 < 2 ^ 23
  · rw [if_pos h1, if_pos (by omega), Nat.div_eq_of_lt (by omega)]; rfl
  · rw [if_neg h1]
    by_cases h2 : m < 2 ^ 23
    · obtain rfl : m = 2 ^ 23 - 1 := by omega
      norm_num
    · rw [if_neg h2]
      by_cases h3 : m % 2 ^ 23 = 2 ^ 23 - 1
      · have h4 : (m + 1) % 2 ^ 23 = 0 := by omega
        have h5 : (m + 1) / 2 ^ 23 - 1 = (m / 2 ^ 23 - 1) + 1 := by omega
        rw [h4, h5, h3, pow_succ]
        ring
      · have h4 : (m + 1) % 2 ^ 23 = m % 2 ^ 23 + 1 := by omega
        have h5 : (m + 1) / 2 ^ 23 = m / 2 ^ 23 := by omega
        rw [h4, h5]
        ring

theorem magUnits_strictMono : StrictMono magUnits :=
  strictMono_nat_of_lt_succ fun m => by rw [magUnits_succ]; exact Nat.lt_add_of_pos_right (by positivity)

/-- Magnitudes in binade k. -/
theorem magUnits_binade {k j : Nat} (h : k = 0 ∨ 2 ^ 23 ≤ j) (h2 : j ≤ 2 ^ 24) :
    magUnits (k * 2 ^ 23 + j) = j * 2 ^ k := by
  have key : ∀ j, (k = 0 ∨ 2 ^ 23 ≤ j) → j < 2 ^ 24 → magUnits (k * 2 ^ 23 + j) = j * 2 ^ k := by
    intro j h h2
    unfold magUnits
    by_cases h3 : k * 2 ^ 23 + j < 2 ^ 23
    · obtain rfl : k = 0 := by omega
      simp at h3 ⊢; omega
    · rw [if_neg h3]
      have h4 : (k * 2 ^ 23 + j) % 2 ^ 23 = j - 2 ^ 23 := by omega
      have h5 : (k * 2 ^ 23 + j) / 2 ^ 23 - 1 = k := by omega
      rw [h4, h5, show 2 ^ 23 + (j - 2 ^ 23) = j by omega]
  rcases h2.lt_or_eq with h2 | rfl
  · exact key j h h2
  · have := magUnits_succ (k * 2 ^ 23 + (2 ^ 24 - 1))
    rw [key _ (by omega) (by norm_num)] at this
    have h5 : (k * 2 ^ 23 + (2 ^ 24 - 1)) / 2 ^ 23 - 1 = k := by omega
    rw [h5] at this
    rw [show k * 2 ^ 23 + 2 ^ 24 = k * 2 ^ 23 + (2 ^ 24 - 1) + 1 by omega, this]
    have : 2 ^ 24 * 2 ^ k = (2 ^ 24 - 1) * 2 ^ k + 2 ^ k := by ring
    exact this.symm

/-- The rounded quotient is within a half, and even if exactly a half away. -/
theorem roundQuot_spec {num den : Nat} (h : 0 < den) :
    2 * (roundQuot num den * den) ≤ 2 * num + den ∧ 2 * num ≤ 2 * (roundQuot num den * den) + den ∧
      ((2 * (roundQuot num den * den) = 2 * num + den ∨ 2 * num = 2 * (roundQuot num den * den) + den) →
        roundQuot num den % 2 = 0) := by
  have hd := Nat.div_add_mod num den
  have hm := Nat.mod_lt num h
  unfold roundQuot
  generalize num / den = q at *
  generalize num % den = r at *
  split_ifs with h1 h2
  · refine ⟨by nlinarith, by nlinarith, ?_⟩
    rintro (h3 | h3) <;> nlinarith
  · have e : (q + 1) * den = den * q + den := by ring
    refine ⟨by rw [e]; omega, by rw [e]; omega, ?_⟩
    rintro (h3 | h3) <;> rw [e] at h3 <;> omega
  · have hr : 2 * r = den := by omega
    rcases Nat.mod_two_eq_zero_or_one q with h4 | h4
    · rw [h4, add_zero]
      have e : q * den = den * q := by ring
      exact ⟨by rw [e]; omega, by rw [e]; omega, fun _ => h4⟩
    · rw [h4]
      have e : (q + 1) * den = den * q + den := by ring
      exact ⟨by rw [e]; omega, by rw [e]; omega, fun _ => by omega⟩

theorem binade_bounds {num den : Nat} (h : 0 < den) :
    num < 2 ^ 24 * (den * 2 ^ binade num den) ∧ (binade num den = 0 ∨ 2 ^ 23 * (den * 2 ^ binade num den) ≤ num) := by
  unfold binade
  have h1 : num / den < 2 ^ (Nat.log2 (num / den) + 1) := Nat.lt_log2_self
  have hlt : ∀ x, num / den < x → num < x * den := fun x hx => (Nat.div_lt_iff_lt_mul h).mp hx
  constructor
  · have h2 : (2 : Nat) ^ (Nat.log2 (num / den) + 1) ≤ 2 ^ (24 + (Nat.log2 (num / den) - 23)) :=
      Nat.pow_le_pow_right (by norm_num) (by omega)
    have h3 := hlt _ (lt_of_lt_of_le h1 h2)
    rw [pow_add] at h3
    calc num < _ := h3
      _ = _ := by ring
  · by_cases h4 : Nat.log2 (num / den) ≤ 23
    · exact .inl (by omega)
    · right
      have hne : num / den ≠ 0 := by intro h0; rw [h0] at h4; simp at h4
      have h5 : 2 ^ Nat.log2 (num / den) ≤ num / den := Nat.log2_self_le hne
      have h6 : (2 : Nat) ^ (23 + (Nat.log2 (num / den) - 23)) = 2 ^ Nat.log2 (num / den) := by
        congr 1; omega
      rw [← h6] at h5
      have h7 := (Nat.le_div_iff_mul_le h).mp h5
      rw [pow_add] at h7
      calc _ = _ := by ring
        _ ≤ num := h7

/-- The magnitude before the cap at infinity. -/
def openMag (num den : Nat) : Nat := binade num den * 2 ^ 23 + roundQuot num (den * 2 ^ binade num den)

/-- What rounding finds: a magnitude m with j = its significand in binade k, within half a quantum of the value. -/
theorem openMag_spec {num den : Nat} (h : 0 < den) :
    ∃ k j : Nat, openMag num den = k * 2 ^ 23 + j ∧ j ≤ 2 ^ 24 ∧ (k = 0 ∨ 2 ^ 23 ≤ j) ∧
      (k = 0 ∨ 2 ^ 23 * (2 : ℝ) ^ k ≤ (num : ℝ) / den) ∧
      |(j * 2 ^ k : ℝ) - (num : ℝ) / den| ≤ 2 ^ k / 2 ∧
      (|(j * 2 ^ k : ℝ) - (num : ℝ) / den| = 2 ^ k / 2 → j % 2 = 0) := by
  obtain ⟨hb1, hb2⟩ := binade_bounds (num := num) h
  have hd : 0 < den * 2 ^ binade num den := by positivity
  obtain ⟨hq1, hq2, hq3⟩ := roundQuot_spec (num := num) hd
  refine ⟨binade num den, roundQuot num (den * 2 ^ binade num den), rfl, ?_⟩
  generalize binade num den = k at *
  generalize roundQuot num (den * 2 ^ k) = j at *
  have hdR : (0 : ℝ) < den := by exact_mod_cast h
  have hkR : (0 : ℝ) < 2 ^ k := by positivity
  have r1 : (2 : ℝ) * (j * (den * 2 ^ k)) ≤ 2 * num + den * 2 ^ k := by exact_mod_cast hq1
  have r2 : (2 : ℝ) * num ≤ 2 * (j * (den * 2 ^ k)) + den * 2 ^ k := by exact_mod_cast hq2
  have e : (num : ℝ) / den * den = num := by field_simp
  refine ⟨?_, ?_, ?_, ?_, ?_⟩
  · by_contra hc
    have : (2 ^ 24 + 1) * (den * 2 ^ k) ≤ j * (den * 2 ^ k) := Nat.mul_le_mul_right _ (by omega)
    nlinarith
  · rcases hb2 with hb2 | hb2
    · exact .inl hb2
    · right
      by_contra hc
      have : j * (den * 2 ^ k) + (den * 2 ^ k) ≤ 2 ^ 23 * (den * 2 ^ k) := by
        have := Nat.mul_le_mul_right (den * 2 ^ k) (show j + 1 ≤ 2 ^ 23 by omega)
        linarith
      omega
  · rcases hb2 with hb2 | hb2
    · exact .inl hb2
    · right
      rw [le_div_iff₀ hdR]
      have : ((2 ^ 23 * (den * 2 ^ k) : ℕ) : ℝ) ≤ num := by exact_mod_cast hb2
      push_cast at this
      linarith
  · rw [abs_le]
    constructor
    · by_contra hc
      push Not at hc
      have := mul_lt_mul_of_pos_right hc hdR
      nlinarith
    · by_contra hc
      push Not at hc
      have := mul_lt_mul_of_pos_right hc hdR
      nlinarith
  · intro he
    apply hq3
    rcases abs_choice ((j * 2 ^ k : ℝ) - (num : ℝ) / den) with ha | ha
    · left
      rw [ha] at he
      have := congrArg (· * (den : ℝ)) he
      simp only [sub_mul, e] at this
      have h2 : (2 : ℝ) * (j * (den * 2 ^ k)) = 2 * num + den * 2 ^ k := by linarith
      exact_mod_cast h2
    · right
      rw [ha] at he
      have := congrArg (· * (den : ℝ)) he
      simp only [neg_mul, sub_mul, e] at this
      have h2 : (2 : ℝ) * num = 2 * (j * (den * 2 ^ k)) + den * 2 ^ k := by linarith
      exact_mod_cast h2

/-- Among all magnitudes the rounded one is nearest, with ties to even. -/
theorem openMag_nearest {num den : Nat} (h : 0 < den) (m : Nat) :
    |(magUnits (openMag num den) : ℝ) - (num : ℝ) / den| ≤ |(magUnits m : ℝ) - (num : ℝ) / den| ∧
      (|(magUnits (openMag num den) : ℝ) - (num : ℝ) / den| = |(magUnits m : ℝ) - (num : ℝ) / den| →
        m ≠ openMag num den → openMag num den % 2 = 0) := by
  obtain ⟨k, j, hm, hj, hjk, hv, hn, ht⟩ := openMag_spec (num := num) h
  rw [hm, magUnits_binade hjk hj]
  set v : ℝ := (num : ℝ) / den
  have hkR : (0 : ℝ) < 2 ^ k := by positivity
  push_cast
  have even : j % 2 = 0 → (k * 2 ^ 23 + j) % 2 = 0 := by omega
  rcases lt_trichotomy m (k * 2 ^ 23 + j) with hlt | rfl | hgt
  · -- a smaller magnitude
    have hpos : 0 < k * 2 ^ 23 + j := by omega
    have hle : magUnits m ≤ magUnits (k * 2 ^ 23 + j - 1) := magUnits_strictMono.monotone (by omega)
    have hs := magUnits_succ (k * 2 ^ 23 + j - 1)
    rw [Nat.sub_add_cancel hpos, magUnits_binade hjk hj] at hs
    by_cases hc : k = 0 ∨ 2 ^ 23 < j
    · have hk2 : k ≤ (k * 2 ^ 23 + j - 1) / 2 ^ 23 - 1 := by omega
      have hp : (2 : Nat) ^ k ≤ 2 ^ ((k * 2 ^ 23 + j - 1) / 2 ^ 23 - 1) := Nat.pow_le_pow_right (by norm_num) hk2
      have hR : (magUnits m : ℝ) + 2 ^ k ≤ j * 2 ^ k := by
        have : magUnits m + 2 ^ k ≤ j * 2 ^ k := by omega
        exact_mod_cast this
      rw [abs_le] at hn
      have h1 : |(magUnits m : ℝ) - v| = v - magUnits m := by
        rw [abs_of_nonpos (by linarith)]; ring
      have h2 : |(j * 2 ^ k : ℝ) - v| ≤ 2 ^ k / 2 := abs_le.mpr hn
      rw [h1]
      refine ⟨by linarith, fun he _ => even (ht ?_)⟩
      linarith
    · push Not at hc
      obtain rfl : j = 2 ^ 23 := by omega
      have hv' := hv.resolve_left hc.1
      have hlt' : (magUnits m : ℝ) < 2 ^ 23 * 2 ^ k := by
        have : magUnits m < 2 ^ 23 * 2 ^ k := by
          have : 0 < (2 : Nat) ^ ((k * 2 ^ 23 + 2 ^ 23 - 1) / 2 ^ 23 - 1) := by positivity
          omega
        exact_mod_cast this
      push_cast at *
      rw [abs_of_nonpos (by linarith), abs_of_nonpos (by linarith)]
      exact ⟨by linarith, fun he => by linarith⟩
  · rw [magUnits_binade hjk hj]
    push_cast
    exact ⟨le_refl _, fun _ hne => absurd rfl hne⟩
  · have hle : magUnits (k * 2 ^ 23 + j + 1) ≤ magUnits m := magUnits_strictMono.monotone (by omega)
    have hs := magUnits_succ (k * 2 ^ 23 + j)
    rw [magUnits_binade hjk hj] at hs
    have hk2 : k ≤ (k * 2 ^ 23 + j) / 2 ^ 23 - 1 := by omega
    have hp : (2 : Nat) ^ k ≤ 2 ^ ((k * 2 ^ 23 + j) / 2 ^ 23 - 1) := Nat.pow_le_pow_right (by norm_num) hk2
    have hR : (j * 2 ^ k : ℝ) + 2 ^ k ≤ magUnits m := by
      have : j * 2 ^ k + 2 ^ k ≤ magUnits m := by omega
      exact_mod_cast this
    have h2 := hn
    rw [abs_le] at hn
    have h1 : |(magUnits m : ℝ) - v| = magUnits m - v := abs_of_nonneg (by linarith)
    rw [h1]
    refine ⟨by linarith, fun he _ => even (ht ?_)⟩
    linarith

/-- The cap at infinity acts exactly from the overflow threshold on. -/
theorem openMag_lt_infMag {num den : Nat} (h : 0 < den) :
    openMag num den < infMag ↔ (num : ℝ) / den < (overflowUnits : ℝ) := by
  obtain ⟨k, j, hm, hj, hjk, hv, hn, ht⟩ := openMag_spec (num := num) h
  rw [hm]
  set v : ℝ := (num : ℝ) / den
  have hkR : (0 : ℝ) < 2 ^ k := by positivity
  have hov : (overflowUnits : ℝ) = 33554431 * 2 ^ 252 := by
    rw [overflowUnits, Nat.cast_mul, Nat.cast_pow]; norm_num
  have e253 : (2 : ℝ) ^ 253 = 2 * 2 ^ 252 := by rw [pow_succ]; ring
  have e254 : (2 : ℝ) ^ 254 = 4 * 2 ^ 252 := by rw [pow_succ, e253]; ring
  have hX : (0 : ℝ) < 2 ^ 252 := by positivity
  have hmono : ∀ a b : Nat, a ≤ b → (2 : ℝ) ^ a ≤ 2 ^ b := fun a b hab => pow_le_pow_right₀ (by norm_num) hab
  have m252 := hmono k 252
  have m254 := hmono 254 k
  rw [e254] at m254
  rw [hov]
  have cast_le : ∀ n : Nat, j ≤ n → (j : ℝ) ≤ n := fun n hn => by exact_mod_cast hn
  constructor
  · intro hlt
    have hk : k ≤ 253 := by unfold infMag at hlt; omega
    rcases (show k ≤ 252 ∨ k = 253 by omega) with hk | rfl
    · rw [abs_le] at hn
      have h2 := m252 hk
      have h3 : (j : ℝ) * 2 ^ k ≤ 16777216 * 2 ^ 252 := mul_le_mul (by exact_mod_cast hj) h2 hkR.le (by positivity)
      generalize (2 : ℝ) ^ 252 = X at *
      linarith
    · rw [e253] at hn ht
      have hj' : j ≤ 16777215 := by unfold infMag at hlt; omega
      rcases hj'.lt_or_eq with hj2 | hj2
      · have h1 := mul_le_mul_of_nonneg_right (cast_le 16777214 (by omega)) hX.le
        push_cast at h1
        rw [abs_le] at hn
        generalize (2 : ℝ) ^ 252 = X at *
        linarith
      · have h1 := mul_le_mul_of_nonneg_right (cast_le 16777215 hj') hX.le
        push_cast at h1
        have hlt' := lt_of_le_of_ne hn fun he => by have := ht he; omega
        rw [abs_lt] at hlt'
        generalize (2 : ℝ) ^ 252 = X at *
        linarith
  · intro hlt
    by_contra hc
    rw [abs_le] at hn
    rcases (show 254 ≤ k ∨ (k = 253 ∧ j = 16777216) by unfold infMag at hc; omega) with hk | ⟨rfl, rfl⟩
    · have h2 := m254 hk
      have h3 := hv.resolve_left (by omega)
      generalize (2 : ℝ) ^ 252 = X at *
      linarith
    · rw [e253] at hn
      push_cast at hn
      generalize (2 : ℝ) ^ 252 = X at *
      linarith

theorem roundMag_eq (num den : Nat) : roundMag num den = min (openMag num den) infMag := rfl

theorem roundMag_le (num den : Nat) : roundMag num den ≤ infMag := min_le_right _ _

theorem abs_units (x : Word) : |units x| = magUnits (mag x) := by
  rw [units]; cases sign x <;> simp

theorem units_nonneg_of_sign {x : Word} (h : sign x = false) : 0 ≤ units x := by rw [units, h]; simp

theorem magUnits_zero : magUnits 0 = 0 := rfl

theorem units_eq_zero {x : Word} : units x = 0 ↔ mag x = 0 := by
  rw [← abs_eq_zero, abs_units]
  constructor
  · intro h
    have h' : magUnits (mag x) = magUnits 0 := by rw [magUnits_zero]; exact_mod_cast h
    exact magUnits_strictMono.injective h'
  · intro h; rw [h]; rfl

/-- The rounding of a nonnegative rational to the magnitude, with a sign in front. -/
theorem isRounding_pack {num den : Nat} (h : 0 < den) (neg : Bool) (hz : num ≠ 0) :
    IsRounding (if neg then -((num : ℝ) / den) else (num : ℝ) / den) (pack neg (roundMag num den)) := by
  have hle := roundMag_le num den
  have hlt : roundMag num den < 2 ^ 31 := lt_of_le_of_lt hle (by norm_num [infMag])
  have hdR : (0 : ℝ) < den := by exact_mod_cast h
  have hv : 0 < (num : ℝ) / den := div_pos (by exact_mod_cast Nat.pos_of_ne_zero hz) hdR
  have habs : |(if neg then -((num : ℝ) / den) else (num : ℝ) / den)| = (num : ℝ) / den := by
    cases neg <;> simp [abs_of_pos hv, abs_neg]
  refine ⟨?_, ?_, ?_, ?_, ?_⟩
  · rw [isNaN, mag_pack hlt]; simpa using hle
  · intro hp; rw [sign_pack hlt]; cases neg
    · rfl
    · simp at hp; linarith
  · intro hp; rw [sign_pack hlt]; cases neg
    · simp at hp; linarith
    · rfl
  · intro hf
    rw [isFinite, mag_pack hlt, decide_eq_true_eq] at hf
    have ho : openMag num den < infMag := by rw [roundMag_eq] at hf; omega
    have he : roundMag num den = openMag num den := by rw [roundMag_eq]; omega
    refine ⟨by rw [habs]; exact (openMag_lt_infMag h).mp ho, ?_⟩
    intro v hvf
    rw [units_pack hlt, mag_pack hlt, he]
    obtain ⟨n1, n2⟩ := openMag_nearest (num := num) h (mag v)
    obtain ⟨z1, z2⟩ := openMag_nearest (num := num) h 0
    rw [magUnits_zero] at z1 z2
    -- distances on the signed line
    have dist_self : |((if neg then -(magUnits (openMag num den) : Int) else (magUnits (openMag num den) : Int) : Int) : ℝ)
        - (if neg then -((num : ℝ) / den) else (num : ℝ) / den)| =
        |(magUnits (openMag num den) : ℝ) - (num : ℝ) / den| := by
      cases neg
      · simp
      · simp only [if_true]; push_cast; rw [← abs_neg]; congr 1; ring
    rw [dist_self]
    by_cases hs : sign v = neg
    · have dist_v : |((units v : Int) : ℝ) - (if neg then -((num : ℝ) / den) else (num : ℝ) / den)| =
          |(magUnits (mag v) : ℝ) - (num : ℝ) / den| := by
        rw [units, hs]
        cases neg
        · simp
        · simp only [if_true]; push_cast; rw [← abs_neg]; congr 1; ring
      rw [dist_v]
      refine ⟨n1, fun he2 hne => n2 he2 ?_⟩
      intro hm
      apply hne
      rw [units, hs, hm]
    · have dist_v : |((units v : Int) : ℝ) - (if neg then -((num : ℝ) / den) else (num : ℝ) / den)| =
          (magUnits (mag v) : ℝ) + (num : ℝ) / den := by
        rw [units]
        have hnn : (0 : ℝ) ≤ (magUnits (mag v) : ℝ) := by positivity
        cases neg
        · have : sign v = true := by simpa using hs
          rw [this]; simp only [if_true, Bool.false_eq_true, if_false]; push_cast
          rw [abs_of_nonpos (by linarith)]; ring
        · have : sign v = false := by simpa using hs
          rw [this]; simp only [if_true, Bool.false_eq_true, if_false]; push_cast
          rw [abs_of_nonneg (by linarith)]; ring
      have z0 : |((0 : ℕ) : ℝ) - (num : ℝ) / den| = (num : ℝ) / den := by
        rw [Nat.cast_zero, zero_sub, abs_neg, abs_of_pos hv]
      rw [z0] at z1 z2
      have hnn : (0 : ℝ) ≤ (magUnits (mag v) : ℝ) := by positivity
      rw [dist_v]
      refine ⟨by linarith, fun he2 hne => ?_⟩
      apply z2 (by linarith)
      intro h0
      have hv0 : (magUnits (mag v) : ℝ) = 0 := by linarith
      have hv1 : mag v = 0 := by
        apply magUnits_strictMono.injective
        rw [magUnits_zero]; exact_mod_cast hv0
      apply hne
      rw [units_eq_zero.mpr hv1, ← h0, magUnits_zero]
      cases neg <;> simp
  · intro hi
    rw [isInf, mag_pack hlt, decide_eq_true_eq] at hi
    have ho : ¬ openMag num den < infMag := by rw [roundMag_eq] at hi; omega
    rw [habs]
    exact not_lt.mp fun hc => ho ((openMag_lt_infMag h).mpr hc)

/-- A zero of either sign is a rounding of 0. -/
theorem isRounding_zero (neg : Bool) : IsRounding 0 (pack neg 0) := by
  have hm : mag (pack neg 0) = 0 := mag_pack (by norm_num)
  have hu : units (pack neg 0) = 0 := units_eq_zero.mpr hm
  refine ⟨by rw [isNaN, hm]; rfl, fun h => absurd h (lt_irrefl _), fun h => absurd h (lt_irrefl _), ?_, ?_⟩
  · intro _
    refine ⟨by rw [abs_zero]; exact_mod_cast (by unfold overflowUnits; positivity : 0 < overflowUnits), fun v _ => ⟨by rw [hu]; simp, fun _ _ => by rw [hm]⟩⟩
  · intro hi; rw [isInf, hm] at hi; exact absurd (of_decide_eq_true hi) (by unfold infMag; omega)

/-- `roundReal n d` is the rounding of n / d. -/
theorem isRounding_roundReal (n : Int) {den : Nat} (h : 0 < den) : IsRounding ((n : ℝ) / den) (roundReal n den) := by
  unfold roundReal
  by_cases hz : n = 0
  · rw [if_pos hz, hz]
    simpa using isRounding_zero Config.roundedZeroSign
  · rw [if_neg hz]
    have := isRounding_pack (num := n.natAbs) h (decide (n < 0)) (by omega)
    have he : (if decide (n < 0) then -((n.natAbs : ℝ) / den) else (n.natAbs : ℝ) / den) = (n : ℝ) / den := by
      by_cases hn : n < 0
      · rw [if_pos (decide_eq_true hn), ← neg_div]
        congr 1
        rw [Nat.cast_natAbs, abs_of_neg hn]; simp
      · rw [if_neg (by simpa using hn)]
        congr 1
        rw [Nat.cast_natAbs, abs_of_nonneg (not_lt.mp hn)]
    rwa [he] at this

/-- A datum that is the rounding of both ends of an interval that does not contain 0 is the rounding of every real in it. -/
theorem IsRounding.between {a b r : ℝ} {w : Word} (ha : IsRounding a w) (hb : IsRounding b w) (h1 : a ≤ r) (h2 : r ≤ b)
    (h0 : 0 < a ∨ b < 0 ∨ (a = 0 ∧ b = 0)) : IsRounding r w := by
  obtain ⟨an, ap, am, af, ai⟩ := ha
  obtain ⟨_, bp, bm, bf, bi⟩ := hb
  refine ⟨an, ?_, ?_, ?_, ?_⟩
  · intro hr
    rcases h0 with h | h | ⟨rfl, rfl⟩
    · exact ap h
    · linarith
    · linarith
  · intro hr
    rcases h0 with h | h | ⟨rfl, rfl⟩
    · linarith
    · exact bm h
    · linarith
  · intro hf
    obtain ⟨at1, an1⟩ := af hf
    obtain ⟨bt1, bn1⟩ := bf hf
    rw [abs_lt] at at1 bt1
    refine ⟨abs_lt.mpr ⟨by linarith, by linarith⟩, fun v hv => ?_⟩
    obtain ⟨a1, a2⟩ := an1 v hv
    obtain ⟨b1, b2⟩ := bn1 v hv
    generalize (units w : ℝ) = x at *
    generalize hy : (units v : ℝ) = y at *
    have cases_abs : ∀ t : ℝ, |x - t| ≤ |y - t| ↔ 0 ≤ (y - x) * (y + x - 2 * t) := by
      intro t
      rw [← sq_le_sq, ← sub_nonneg]
      constructor <;> intro h <;> nlinarith
    have eq_abs : ∀ t : ℝ, |x - t| = |y - t| ↔ 0 = (y - x) * (y + x - 2 * t) := by
      intro t
      rw [← sq_eq_sq_iff_abs_eq_abs, ← sub_eq_zero]
      constructor <;> intro h <;> nlinarith
    rw [cases_abs] at a1 b1
    refine ⟨(cases_abs r).mpr ?_, fun he hne => ?_⟩
    · rcases le_total 0 (y - x) with hc | hc
      · nlinarith
      · nlinarith
    · by_cases hxy : y = x
      · exact a2 (by rw [hxy]) hne
      · rw [eq_abs] at he
        have hmid : y + x - 2 * r = 0 := by
          rcases mul_eq_zero.mp he.symm with h | h
          · exact absurd (sub_eq_zero.mp h) hxy
          · exact h
        rcases lt_or_gt_of_ne hxy with hc | hc
        · apply a2 _ hne
          rw [eq_abs]
          have : y + x - 2 * a ≤ 0 := by
            by_contra hcc; push Not at hcc; nlinarith
          have : y + x - 2 * a = 0 := by linarith
          rw [this]; ring
        · apply b2 _ hne
          rw [eq_abs]
          have : 0 ≤ y + x - 2 * b := by
            by_contra hcc; push Not at hcc; nlinarith
          have : y + x - 2 * b = 0 := by linarith
          rw [this]; ring
  · intro hi
    have a1 := ai hi
    have b1 := bi hi
    rcases h0 with h | h | ⟨rfl, rfl⟩
    · rw [abs_of_pos h] at a1
      rw [abs_of_pos (by linarith)]; linarith
    · rw [abs_of_neg h] at b1
      rw [abs_of_neg (by linarith)]; linarith
    · have : r = 0 := le_antisymm h2 h1
      rw [this]; simpa using a1

end Sys2Proof.Machine.F32
end

