-- ==== Sys2Proof/Laws/Arith.lean ====
section
/-! SUPPORT. What the binary32 operations answer on finite operands, and what flushing keeps (00_scope.md R10, 42_datapath.md
R178). -/

namespace Sys2Proof.Machine.F32

theorem infMag_eq : infMag = 2139095040 := rfl

theorem isNaN_iff {x : Word} : isNaN x = true ↔ infMag < mag x := by simp [isNaN]

theorem isInf_iff {x : Word} : isInf x = true ↔ mag x = infMag := by simp [isInf]

theorem isFinite_iff {x : Word} : isFinite x = true ↔ mag x < infMag := by simp [isFinite]

theorem isZero_iff {x : Word} : isZero x = true ↔ mag x = 0 := by simp [isZero]

theorem not_nan_inf_of_finite {x : Word} (h : isFinite x = true) : isNaN x = false ∧ isInf x = false := by
  simp only [isFinite, isNaN, isInf, decide_eq_true_eq, decide_eq_false_iff_not] at *
  omega

theorem not_nan_zero_of_inf {x : Word} (h : isInf x = true) : isNaN x = false ∧ isZero x = false := by
  rw [isInf_iff] at h
  simp [isNaN, isZero, h, infMag_eq]

theorem finite_of_zero {x : Word} (h : isZero x = true) : isFinite x = true ∧ units x = 0 := by
  rw [isZero_iff] at h
  exact ⟨by simp [isFinite, h, infMag_eq], units_eq_zero.mpr h⟩

theorem isFinite_neg (x : Word) : isFinite (neg x) = isFinite x := by rw [isFinite, isFinite, mag_neg]

/-- Flushing changes neither the sign nor the class NaN, infinite, finite. -/
theorem flush_keeps (m : DenormalMode) (x : Word) :
    isNaN (flush m x) = isNaN x ∧ isInf (flush m x) = isInf x ∧ isFinite (flush m x) = isFinite x ∧
      sign (flush m x) = sign x := by
  cases m with
  | ieee => exact ⟨rfl, rfl, rfl, rfl⟩
  | ftz =>
    simp only [flush]
    split_ifs with h
    · simp only [isSubnormal, Bool.and_eq_true, decide_eq_true_eq] at h
      have h1 := h.1
      have h2 := h.2
      have h0 : 0 < 2 ^ 31 := by norm_num
      simp only [isNaN, isInf, isFinite, mag_pack h0, sign_pack h0]
      have := infMag_eq
      refine ⟨?_, ?_, ?_, trivial⟩ <;> (rw [decide_eq_decide]; omega)
    · exact ⟨rfl, rfl, rfl, rfl⟩

theorem flush_inf (m : DenormalMode) {x : Word} (h : isInf x = true) : flush m x = x := by
  cases m with
  | ieee => rfl
  | ftz =>
    rw [isInf_iff, infMag_eq] at h
    simp [flush, isSubnormal, h]

theorem add_of_finite (d : BitVec 23) {x y : Word} (hx : isFinite x = true) (hy : isFinite y = true) :
    add .ieee d x y = addFinite x y := by
  simp [add, flush, addIeee, not_nan_inf_of_finite hx, not_nan_inf_of_finite hy]

theorem mul_of_finite (d : BitVec 23) {x y : Word} (hx : isFinite x = true) (hy : isFinite y = true) :
    mul .ieee d x y =
      pack (sign x != sign y) (roundMag (magUnits (mag x) * magUnits (mag y)) (2 ^ 149)) := by
  simp [mul, flush, mulIeee, not_nan_inf_of_finite hx, not_nan_inf_of_finite hy]

end Sys2Proof.Machine.F32
end

