-- ==== Sys2Proof/Laws/State.lean ====
section
/-! SUPPORT. What each shared operation leaves in each field of State, true by rfl. -/

namespace Sys2Proof.Machine

@[simp] theorem endCommand_params (s : State) : (endCommand s).params = s.params := rfl
@[simp] theorem endCommand_phase (s : State) : (endCommand s).phase = .idle := rfl
@[simp] theorem endCommand_pend (s : State) : (endCommand s).pend = s.pend := rfl
@[simp] theorem endCommand_settings (s : State) : (endCommand s).settings = s.settings := rfl
@[simp] theorem endCommand_sampleRate (s : State) : (endCommand s).sampleRate = s.sampleRate := rfl
@[simp] theorem endCommand_maxBlock (s : State) : (endCommand s).maxBlock = s.maxBlock := rfl
@[simp] theorem endCommand_actRate (s : State) : (endCommand s).actRate = s.actRate := rfl
@[simp] theorem endCommand_actMax (s : State) : (endCommand s).actMax = s.actMax := rfl
@[simp] theorem endCommand_snap (s : State) : (endCommand s).snap = s.snap := rfl
@[simp] theorem endCommand_status (s : State) : (endCommand s).status = s.status := rfl
@[simp] theorem endCommand_left (s : State) : (endCommand s).left = s.left := rfl
@[simp] theorem endCommand_right (s : State) : (endCommand s).right = s.right := rfl
@[simp] theorem endCommand_mem (s : State) : (endCommand s).mem = s.mem := rfl
@[simp] theorem endCommand_events (s : State) : (endCommand s).events = s.events := rfl
@[simp] theorem endCommand_returned (s : State) : (endCommand s).returned = s.returned := rfl
@[simp] theorem endCommand_drawClock (s : State) : (endCommand s).drawClock = s.drawClock := rfl

@[simp] theorem failCommand_params (code : Cause) (s : State) : (failCommand code s).params = s.params := rfl
@[simp] theorem failCommand_phase (code : Cause) (s : State) : (failCommand code s).phase = .idle := rfl
@[simp] theorem failCommand_pend (code : Cause) (s : State) : (failCommand code s).pend = s.pend := rfl
@[simp] theorem failCommand_settings (code : Cause) (s : State) : (failCommand code s).settings = s.settings := rfl
@[simp] theorem failCommand_sampleRate (code : Cause) (s : State) : (failCommand code s).sampleRate = s.sampleRate := rfl
@[simp] theorem failCommand_maxBlock (code : Cause) (s : State) : (failCommand code s).maxBlock = s.maxBlock := rfl
@[simp] theorem failCommand_actRate (code : Cause) (s : State) : (failCommand code s).actRate = s.actRate := rfl
@[simp] theorem failCommand_actMax (code : Cause) (s : State) : (failCommand code s).actMax = s.actMax := rfl
@[simp] theorem failCommand_snap (code : Cause) (s : State) : (failCommand code s).snap = s.snap := rfl
@[simp] theorem failCommand_status (code : Cause) (s : State) : (failCommand code s).status = { s.status with errFail := true, cause := code } := rfl
@[simp] theorem failCommand_left (code : Cause) (s : State) : (failCommand code s).left = s.left := rfl
@[simp] theorem failCommand_right (code : Cause) (s : State) : (failCommand code s).right = s.right := rfl
@[simp] theorem failCommand_mem (code : Cause) (s : State) : (failCommand code s).mem = s.mem := rfl
@[simp] theorem failCommand_events (code : Cause) (s : State) : (failCommand code s).events = s.events := rfl
@[simp] theorem failCommand_returned (code : Cause) (s : State) : (failCommand code s).returned = s.returned := rfl
@[simp] theorem failCommand_drawClock (code : Cause) (s : State) : (failCommand code s).drawClock = s.drawClock := rfl

@[simp] theorem raiseFault_params (code : Cause) (s : State) : (raiseFault code s).params = s.params := rfl
@[simp] theorem raiseFault_phase (code : Cause) (s : State) : (raiseFault code s).phase = .idle := rfl
@[simp] theorem raiseFault_pend (code : Cause) (s : State) : (raiseFault code s).pend = s.pend := rfl
@[simp] theorem raiseFault_settings (code : Cause) (s : State) : (raiseFault code s).settings = s.settings := rfl
@[simp] theorem raiseFault_sampleRate (code : Cause) (s : State) : (raiseFault code s).sampleRate = s.sampleRate := rfl
@[simp] theorem raiseFault_maxBlock (code : Cause) (s : State) : (raiseFault code s).maxBlock = s.maxBlock := rfl
@[simp] theorem raiseFault_actRate (code : Cause) (s : State) : (raiseFault code s).actRate = s.actRate := rfl
@[simp] theorem raiseFault_actMax (code : Cause) (s : State) : (raiseFault code s).actMax = s.actMax := rfl
@[simp] theorem raiseFault_snap (code : Cause) (s : State) : (raiseFault code s).snap = s.snap := rfl
@[simp] theorem raiseFault_status (code : Cause) (s : State) : (raiseFault code s).status = { s.status with fault := true, cause := code } := rfl
@[simp] theorem raiseFault_left (code : Cause) (s : State) : (raiseFault code s).left = s.left := rfl
@[simp] theorem raiseFault_right (code : Cause) (s : State) : (raiseFault code s).right = s.right := rfl
@[simp] theorem raiseFault_mem (code : Cause) (s : State) : (raiseFault code s).mem = s.mem := rfl
@[simp] theorem raiseFault_events (code : Cause) (s : State) : (raiseFault code s).events = s.events := rfl
@[simp] theorem raiseFault_returned (code : Cause) (s : State) : (raiseFault code s).returned = s.returned := rfl
@[simp] theorem raiseFault_drawClock (code : Cause) (s : State) : (raiseFault code s).drawClock = s.drawClock := rfl

@[simp] theorem setErrIllegal_params (s : State) : (setErrIllegal s).params = s.params := rfl
@[simp] theorem setErrIllegal_phase (s : State) : (setErrIllegal s).phase = s.phase := rfl
@[simp] theorem setErrIllegal_pend (s : State) : (setErrIllegal s).pend = s.pend := rfl
@[simp] theorem setErrIllegal_settings (s : State) : (setErrIllegal s).settings = s.settings := rfl
@[simp] theorem setErrIllegal_sampleRate (s : State) : (setErrIllegal s).sampleRate = s.sampleRate := rfl
@[simp] theorem setErrIllegal_maxBlock (s : State) : (setErrIllegal s).maxBlock = s.maxBlock := rfl
@[simp] theorem setErrIllegal_actRate (s : State) : (setErrIllegal s).actRate = s.actRate := rfl
@[simp] theorem setErrIllegal_actMax (s : State) : (setErrIllegal s).actMax = s.actMax := rfl
@[simp] theorem setErrIllegal_snap (s : State) : (setErrIllegal s).snap = s.snap := rfl
@[simp] theorem setErrIllegal_status (s : State) : (setErrIllegal s).status = { s.status with errIllegal := true } := rfl
@[simp] theorem setErrIllegal_left (s : State) : (setErrIllegal s).left = s.left := rfl
@[simp] theorem setErrIllegal_right (s : State) : (setErrIllegal s).right = s.right := rfl
@[simp] theorem setErrIllegal_mem (s : State) : (setErrIllegal s).mem = s.mem := rfl
@[simp] theorem setErrIllegal_events (s : State) : (setErrIllegal s).events = s.events := rfl
@[simp] theorem setErrIllegal_returned (s : State) : (setErrIllegal s).returned = s.returned := rfl
@[simp] theorem setErrIllegal_drawClock (s : State) : (setErrIllegal s).drawClock = s.drawClock := rfl

@[simp] theorem setErrBusy_params (s : State) : (setErrBusy s).params = s.params := rfl
@[simp] theorem setErrBusy_phase (s : State) : (setErrBusy s).phase = s.phase := rfl
@[simp] theorem setErrBusy_pend (s : State) : (setErrBusy s).pend = s.pend := rfl
@[simp] theorem setErrBusy_settings (s : State) : (setErrBusy s).settings = s.settings := rfl
@[simp] theorem setErrBusy_sampleRate (s : State) : (setErrBusy s).sampleRate = s.sampleRate := rfl
@[simp] theorem setErrBusy_maxBlock (s : State) : (setErrBusy s).maxBlock = s.maxBlock := rfl
@[simp] theorem setErrBusy_actRate (s : State) : (setErrBusy s).actRate = s.actRate := rfl
@[simp] theorem setErrBusy_actMax (s : State) : (setErrBusy s).actMax = s.actMax := rfl
@[simp] theorem setErrBusy_snap (s : State) : (setErrBusy s).snap = s.snap := rfl
@[simp] theorem setErrBusy_status (s : State) : (setErrBusy s).status = { s.status with errBusy := true } := rfl
@[simp] theorem setErrBusy_left (s : State) : (setErrBusy s).left = s.left := rfl
@[simp] theorem setErrBusy_right (s : State) : (setErrBusy s).right = s.right := rfl
@[simp] theorem setErrBusy_mem (s : State) : (setErrBusy s).mem = s.mem := rfl
@[simp] theorem setErrBusy_events (s : State) : (setErrBusy s).events = s.events := rfl
@[simp] theorem setErrBusy_returned (s : State) : (setErrBusy s).returned = s.returned := rfl
@[simp] theorem setErrBusy_drawClock (s : State) : (setErrBusy s).drawClock = s.drawClock := rfl

@[simp] theorem acceptCommand_params (i : Instr) (s : State) : (acceptCommand i s).params = s.params := rfl
@[simp] theorem acceptCommand_phase (i : Instr) (s : State) : (acceptCommand i s).phase = .busy := rfl
@[simp] theorem acceptCommand_pend (i : Instr) (s : State) : (acceptCommand i s).pend = latchOperands i s := rfl
@[simp] theorem acceptCommand_settings (i : Instr) (s : State) : (acceptCommand i s).settings = s.settings := rfl
@[simp] theorem acceptCommand_sampleRate (i : Instr) (s : State) : (acceptCommand i s).sampleRate = s.sampleRate := rfl
@[simp] theorem acceptCommand_maxBlock (i : Instr) (s : State) : (acceptCommand i s).maxBlock = s.maxBlock := rfl
@[simp] theorem acceptCommand_actRate (i : Instr) (s : State) : (acceptCommand i s).actRate = s.actRate := rfl
@[simp] theorem acceptCommand_actMax (i : Instr) (s : State) : (acceptCommand i s).actMax = s.actMax := rfl
@[simp] theorem acceptCommand_snap (i : Instr) (s : State) : (acceptCommand i s).snap = s.snap := rfl
@[simp] theorem acceptCommand_status (i : Instr) (s : State) : (acceptCommand i s).status = s.status := rfl
@[simp] theorem acceptCommand_left (i : Instr) (s : State) : (acceptCommand i s).left = s.left := rfl
@[simp] theorem acceptCommand_right (i : Instr) (s : State) : (acceptCommand i s).right = s.right := rfl
@[simp] theorem acceptCommand_mem (i : Instr) (s : State) : (acceptCommand i s).mem = s.mem := rfl
@[simp] theorem acceptCommand_events (i : Instr) (s : State) : (acceptCommand i s).events = s.events := rfl
@[simp] theorem acceptCommand_returned (i : Instr) (s : State) : (acceptCommand i s).returned = s.returned := rfl
@[simp] theorem acceptCommand_drawClock (i : Instr) (s : State) : (acceptCommand i s).drawClock = s.drawClock := rfl

@[simp] theorem mapStages_params (f : Stage → Stage) (s : State) : (s.mapStages f).params = s.params := rfl
@[simp] theorem mapStages_phase (f : Stage → Stage) (s : State) : (s.mapStages f).phase = s.phase := rfl
@[simp] theorem mapStages_pend (f : Stage → Stage) (s : State) : (s.mapStages f).pend = s.pend := rfl
@[simp] theorem mapStages_settings (f : Stage → Stage) (s : State) : (s.mapStages f).settings = s.settings := rfl
@[simp] theorem mapStages_sampleRate (f : Stage → Stage) (s : State) : (s.mapStages f).sampleRate = s.sampleRate := rfl
@[simp] theorem mapStages_maxBlock (f : Stage → Stage) (s : State) : (s.mapStages f).maxBlock = s.maxBlock := rfl
@[simp] theorem mapStages_actRate (f : Stage → Stage) (s : State) : (s.mapStages f).actRate = s.actRate := rfl
@[simp] theorem mapStages_actMax (f : Stage → Stage) (s : State) : (s.mapStages f).actMax = s.actMax := rfl
@[simp] theorem mapStages_snap (f : Stage → Stage) (s : State) : (s.mapStages f).snap = s.snap := rfl
@[simp] theorem mapStages_status (f : Stage → Stage) (s : State) : (s.mapStages f).status = s.status := rfl
@[simp] theorem mapStages_left (f : Stage → Stage) (s : State) : (s.mapStages f).left = s.left.mapStages f := rfl
@[simp] theorem mapStages_right (f : Stage → Stage) (s : State) : (s.mapStages f).right = s.right.mapStages f := rfl
@[simp] theorem mapStages_mem (f : Stage → Stage) (s : State) : (s.mapStages f).mem = s.mem := rfl
@[simp] theorem mapStages_events (f : Stage → Stage) (s : State) : (s.mapStages f).events = s.events := rfl
@[simp] theorem mapStages_returned (f : Stage → Stage) (s : State) : (s.mapStages f).returned = s.returned := rfl
@[simp] theorem mapStages_drawClock (f : Stage → Stage) (s : State) : (s.mapStages f).drawClock = s.drawClock := rfl

@[simp] theorem applyPrepare_params (s : State) : (applyPrepare s).params = s.params := rfl
@[simp] theorem applyPrepare_phase (s : State) : (applyPrepare s).phase = s.phase := rfl
@[simp] theorem applyPrepare_pend (s : State) : (applyPrepare s).pend = s.pend := rfl
@[simp] theorem applyPrepare_settings (s : State) : (applyPrepare s).settings = s.settings := rfl
@[simp] theorem applyPrepare_sampleRate (s : State) : (applyPrepare s).sampleRate = s.sampleRate := rfl
@[simp] theorem applyPrepare_maxBlock (s : State) : (applyPrepare s).maxBlock = s.maxBlock := rfl
@[simp] theorem applyPrepare_actRate (s : State) : (applyPrepare s).actRate = s.pend.rate := rfl
@[simp] theorem applyPrepare_actMax (s : State) : (applyPrepare s).actMax = s.pend.maxBlock := rfl
@[simp] theorem applyPrepare_snap (s : State) : (applyPrepare s).snap = s.snap := rfl
@[simp] theorem applyPrepare_status (s : State) : (applyPrepare s).status = { s.status with prepared := true } := rfl
@[simp] theorem applyPrepare_left (s : State) : (applyPrepare s).left = s.left.mapStages zeroDelays := rfl
@[simp] theorem applyPrepare_right (s : State) : (applyPrepare s).right = s.right.mapStages zeroDelays := rfl
@[simp] theorem applyPrepare_mem (s : State) : (applyPrepare s).mem = s.mem := rfl
@[simp] theorem applyPrepare_events (s : State) : (applyPrepare s).events = s.events := rfl
@[simp] theorem applyPrepare_returned (s : State) : (applyPrepare s).returned = s.returned := rfl
@[simp] theorem applyPrepare_drawClock (s : State) : (applyPrepare s).drawClock = s.drawClock := rfl

@[simp] theorem applyUpdate_params (sane : Settings) (clamped : Bool) (s : State) : (applyUpdate sane clamped s).params = s.params := rfl
@[simp] theorem applyUpdate_phase (sane : Settings) (clamped : Bool) (s : State) : (applyUpdate sane clamped s).phase = s.phase := rfl
@[simp] theorem applyUpdate_pend (sane : Settings) (clamped : Bool) (s : State) : (applyUpdate sane clamped s).pend = s.pend := rfl
@[simp] theorem applyUpdate_settings (sane : Settings) (clamped : Bool) (s : State) : (applyUpdate sane clamped s).settings = s.settings := rfl
@[simp] theorem applyUpdate_sampleRate (sane : Settings) (clamped : Bool) (s : State) : (applyUpdate sane clamped s).sampleRate = s.sampleRate := rfl
@[simp] theorem applyUpdate_maxBlock (sane : Settings) (clamped : Bool) (s : State) : (applyUpdate sane clamped s).maxBlock = s.maxBlock := rfl
@[simp] theorem applyUpdate_actRate (sane : Settings) (clamped : Bool) (s : State) : (applyUpdate sane clamped s).actRate = s.actRate := rfl
@[simp] theorem applyUpdate_actMax (sane : Settings) (clamped : Bool) (s : State) : (applyUpdate sane clamped s).actMax = s.actMax := rfl
@[simp] theorem applyUpdate_snap (sane : Settings) (clamped : Bool) (s : State) : (applyUpdate sane clamped s).snap = sane := rfl
@[simp] theorem applyUpdate_status (sane : Settings) (clamped : Bool) (s : State) : (applyUpdate sane clamped s).status = recordClamp clamped s.status := rfl
@[simp] theorem applyUpdate_left (sane : Settings) (clamped : Bool) (s : State) : (applyUpdate sane clamped s).left = designInto s.params.designArith s.actRate sane s.left := rfl
@[simp] theorem applyUpdate_right (sane : Settings) (clamped : Bool) (s : State) : (applyUpdate sane clamped s).right = designInto s.params.designArith s.actRate sane s.right := rfl
@[simp] theorem applyUpdate_mem (sane : Settings) (clamped : Bool) (s : State) : (applyUpdate sane clamped s).mem = s.mem := rfl
@[simp] theorem applyUpdate_events (sane : Settings) (clamped : Bool) (s : State) : (applyUpdate sane clamped s).events = s.events := rfl
@[simp] theorem applyUpdate_returned (sane : Settings) (clamped : Bool) (s : State) : (applyUpdate sane clamped s).returned = s.returned := rfl
@[simp] theorem applyUpdate_drawClock (sane : Settings) (clamped : Bool) (s : State) : (applyUpdate sane clamped s).drawClock = s.drawClock := rfl

@[simp] theorem applyBlock_params (xs ys : List Word) (s : State) : (applyBlock xs ys s).params = s.params := rfl
@[simp] theorem applyBlock_phase (xs ys : List Word) (s : State) : (applyBlock xs ys s).phase = s.phase := rfl
@[simp] theorem applyBlock_pend (xs ys : List Word) (s : State) : (applyBlock xs ys s).pend = s.pend := rfl
@[simp] theorem applyBlock_settings (xs ys : List Word) (s : State) : (applyBlock xs ys s).settings = s.settings := rfl
@[simp] theorem applyBlock_sampleRate (xs ys : List Word) (s : State) : (applyBlock xs ys s).sampleRate = s.sampleRate := rfl
@[simp] theorem applyBlock_maxBlock (xs ys : List Word) (s : State) : (applyBlock xs ys s).maxBlock = s.maxBlock := rfl
@[simp] theorem applyBlock_actRate (xs ys : List Word) (s : State) : (applyBlock xs ys s).actRate = s.actRate := rfl
@[simp] theorem applyBlock_actMax (xs ys : List Word) (s : State) : (applyBlock xs ys s).actMax = s.actMax := rfl
@[simp] theorem applyBlock_snap (xs ys : List Word) (s : State) : (applyBlock xs ys s).snap = s.snap := rfl
@[simp] theorem applyBlock_status (xs ys : List Word) (s : State) : (applyBlock xs ys s).status = s.status := rfl
@[simp] theorem applyBlock_left (xs ys : List Word) (s : State) : (applyBlock xs ys s).left = (processChannel s .left xs).1 := rfl
@[simp] theorem applyBlock_right (xs ys : List Word) (s : State) : (applyBlock xs ys s).right = (processChannel s .right ys).1 := rfl
@[simp] theorem applyBlock_mem (xs ys : List Word) (s : State) : (applyBlock xs ys s).mem = ((s.mem.writeBlock (bufferOffset .left 0) (processChannel s .left xs).2).writeBlock
      (bufferOffset .right 0) (processChannel s .right ys).2) := rfl
@[simp] theorem applyBlock_events (xs ys : List Word) (s : State) : (applyBlock xs ys s).events = s.events := rfl
@[simp] theorem applyBlock_returned (xs ys : List Word) (s : State) : (applyBlock xs ys s).returned = s.returned := rfl
@[simp] theorem applyBlock_drawClock (xs ys : List Word) (s : State) : (applyBlock xs ys s).drawClock = s.drawClock + xs.length := rfl

@[simp] theorem resetMachine_params (s : State) : (resetMachine s).params = s.params := rfl
@[simp] theorem resetMachine_phase (s : State) : (resetMachine s).phase = (State.resetOf s.params).phase := rfl
@[simp] theorem resetMachine_pend (s : State) : (resetMachine s).pend = (State.resetOf s.params).pend := rfl
@[simp] theorem resetMachine_settings (s : State) : (resetMachine s).settings = (State.resetOf s.params).settings := rfl
@[simp] theorem resetMachine_sampleRate (s : State) : (resetMachine s).sampleRate = (State.resetOf s.params).sampleRate := rfl
@[simp] theorem resetMachine_maxBlock (s : State) : (resetMachine s).maxBlock = (State.resetOf s.params).maxBlock := rfl
@[simp] theorem resetMachine_actRate (s : State) : (resetMachine s).actRate = (State.resetOf s.params).actRate := rfl
@[simp] theorem resetMachine_actMax (s : State) : (resetMachine s).actMax = (State.resetOf s.params).actMax := rfl
@[simp] theorem resetMachine_snap (s : State) : (resetMachine s).snap = (State.resetOf s.params).snap := rfl
@[simp] theorem resetMachine_status (s : State) : (resetMachine s).status = (State.resetOf s.params).status := rfl
@[simp] theorem resetMachine_left (s : State) : (resetMachine s).left = (State.resetOf s.params).left := rfl
@[simp] theorem resetMachine_right (s : State) : (resetMachine s).right = (State.resetOf s.params).right := rfl
@[simp] theorem resetMachine_mem (s : State) : (resetMachine s).mem = (State.resetOf s.params).mem := rfl
@[simp] theorem resetMachine_events (s : State) : (resetMachine s).events = s.events := rfl
@[simp] theorem resetMachine_returned (s : State) : (resetMachine s).returned = s.returned := rfl
@[simp] theorem resetMachine_drawClock (s : State) : (resetMachine s).drawClock = s.drawClock := rfl

theorem State.chain_left (s : State) : s.chain .left = s.left := rfl
theorem State.chain_right (s : State) : s.chain .right = s.right := rfl

@[simp] theorem mapStages_chain (f : Stage → Stage) (s : State) (c : Channel) :
    (s.mapStages f).chain c = (s.chain c).mapStages f := by cases c <;> rfl
@[simp] theorem endCommand_chain (s : State) (c : Channel) : (endCommand s).chain c = s.chain c := by cases c <;> rfl
@[simp] theorem failCommand_chain (code : Cause) (s : State) (c : Channel) : (failCommand code s).chain c = s.chain c := by
  cases c <;> rfl
@[simp] theorem raiseFault_chain (code : Cause) (s : State) (c : Channel) : (raiseFault code s).chain c = s.chain c := by
  cases c <;> rfl
@[simp] theorem applyPrepare_chain (s : State) (c : Channel) :
    (applyPrepare s).chain c = (s.chain c).mapStages zeroDelays := by cases c <;> rfl
@[simp] theorem applyUpdate_chain (sane : Settings) (clamped : Bool) (s : State) (c : Channel) :
    (applyUpdate sane clamped s).chain c = designInto s.params.designArith s.actRate sane (s.chain c) := by cases c <;> rfl

/-- A violation faults in debug builds and fails in release builds. -/
theorem violate_debug {s : State} (h : s.params.buildMode = .debug) (code : Cause) :
    violate code s = raiseFault code s := by simp [violate, h]
theorem violate_release {s : State} (h : s.params.buildMode = .release) (code : Cause) :
    violate code s = failCommand code s := by simp [violate, h]

/-- Everything a violation can do. -/
theorem violate_cases (code : Cause) (s : State) :
    (s.params.buildMode = .debug ∧ violate code s = raiseFault code s) ∨
      (s.params.buildMode = .release ∧ violate code s = failCommand code s) := by
  cases h : s.params.buildMode
  · exact .inr ⟨rfl, violate_release h code⟩
  · exact .inl ⟨rfl, violate_debug h code⟩

theorem snapDelays_off {s : State} (h : s.params.snapToZero = .off) : snapDelays s = s := by simp [snapDelays, h]
theorem snapDelays_on {s : State} (h : s.params.snapToZero = .on) : snapDelays s = s.mapStages snapStage := by
  simp [snapDelays, h]

@[simp] theorem snapDelays_params (s : State) : (snapDelays s).params = s.params := by unfold snapDelays; split <;> rfl
@[simp] theorem snapDelays_phase (s : State) : (snapDelays s).phase = s.phase := by unfold snapDelays; split <;> rfl
@[simp] theorem snapDelays_pend (s : State) : (snapDelays s).pend = s.pend := by unfold snapDelays; split <;> rfl
@[simp] theorem snapDelays_settings (s : State) : (snapDelays s).settings = s.settings := by unfold snapDelays; split <;> rfl
@[simp] theorem snapDelays_sampleRate (s : State) : (snapDelays s).sampleRate = s.sampleRate := by unfold snapDelays; split <;> rfl
@[simp] theorem snapDelays_maxBlock (s : State) : (snapDelays s).maxBlock = s.maxBlock := by unfold snapDelays; split <;> rfl
@[simp] theorem snapDelays_actRate (s : State) : (snapDelays s).actRate = s.actRate := by unfold snapDelays; split <;> rfl
@[simp] theorem snapDelays_actMax (s : State) : (snapDelays s).actMax = s.actMax := by unfold snapDelays; split <;> rfl
@[simp] theorem snapDelays_snap (s : State) : (snapDelays s).snap = s.snap := by unfold snapDelays; split <;> rfl
@[simp] theorem snapDelays_status (s : State) : (snapDelays s).status = s.status := by unfold snapDelays; split <;> rfl
@[simp] theorem snapDelays_mem (s : State) : (snapDelays s).mem = s.mem := by unfold snapDelays; split <;> rfl
@[simp] theorem snapDelays_events (s : State) : (snapDelays s).events = s.events := by unfold snapDelays; split <;> rfl
@[simp] theorem snapDelays_returned (s : State) : (snapDelays s).returned = s.returned := by unfold snapDelays; split <;> rfl
@[simp] theorem snapDelays_drawClock (s : State) : (snapDelays s).drawClock = s.drawClock := by unfold snapDelays; split <;> rfl

end Sys2Proof.Machine
end

