-- ==== Sys2Proof/Laws/Chain.lean ====
section
/-! SUPPORT. What reading, writing and mapping the slots of a chain does, and what assign does to a cascade and a chain. -/

namespace Sys2Proof.Machine

/-! ### Slots -/

theorem Chain.get_set_self (ch : Chain) {j : Fin 9} (st : Stage) (h : j ≠ 4) : (ch.set j st).get j = st := by
  fin_cases j <;> first | rfl | exact absurd rfl h

theorem Chain.get_set_peak (ch : Chain) (st : Stage) : (ch.set 4 st).get 4 = { st with byp := false } := rfl

theorem Chain.get_set_of_ne (ch : Chain) {j k : Fin 9} (st : Stage) (h : k ≠ j) : (ch.set j st).get k = ch.get k := by
  fin_cases j <;> fin_cases k <;> first | rfl | exact absurd rfl h

theorem Chain.byp_peak (ch : Chain) : (ch.get 4).byp = false := rfl

/-- Writing a stage whose flag is the slot's own flag reads back as written, in every slot. -/
theorem Chain.get_set_of_byp (ch : Chain) (j : Fin 9) {st : Stage} (h : st.byp = (ch.get j).byp) : (ch.set j st).get j = st := by
  by_cases hj : j = 4
  · subst hj
    rw [Chain.get_set_peak]
    rw [Chain.byp_peak] at h
    cases st; simp_all
  · exact Chain.get_set_self ch st hj

theorem Chain.ext_get {a b : Chain} (h : ∀ j, a.get j = b.get j) : a = b := by
  have h0 := h 0
  have h1 := h 1
  have h2 := h 2
  have h3 := h 3
  have h4 := h 4
  have h5 := h 5
  have h6 := h 6
  have h7 := h 7
  have h8 := h 8
  obtain ⟨⟨a0, a1, a2, a3⟩, ⟨c, s, t⟩, ⟨a5, a6, a7, a8⟩⟩ := a
  obtain ⟨⟨b0, b1, b2, b3⟩, ⟨c', s', t'⟩, ⟨b5, b6, b7, b8⟩⟩ := b
  simp_all [Chain.get, PeakStage.toStage]

/-- mapStages applies a function that keeps the flag to every slot. -/
theorem Chain.get_mapStages {f : Stage → Stage} (hf : ∀ st, (f st).byp = st.byp) (ch : Chain) (j : Fin 9) :
    (ch.mapStages f).get j = f (ch.get j) := by
  have h4 : f ch.peak.toStage = { f ch.peak.toStage with byp := false } := by
    have := hf ch.peak.toStage
    rw [show ch.peak.toStage.byp = false from rfl] at this
    rw [← this]
  fin_cases j <;> first | rfl | exact h4.symm

theorem Chain.mapStages_id {f : Stage → Stage} (hf : ∀ st, (f st).byp = st.byp) (ch : Chain) (h : ∀ j, f (ch.get j) = ch.get j) :
    ch.mapStages f = ch := Chain.ext_get fun j => by rw [Chain.get_mapStages hf, h]

theorem Cascade.get_lowCut (ch : Chain) (k : Fin 4) : ch.lowCut.get k = ch.get (lowSlot k) := by fin_cases k <;> rfl

theorem Cascade.get_highCut (ch : Chain) (k : Fin 4) : ch.highCut.get k = ch.get (highSlot k) := by fin_cases k <;> rfl

theorem State.stage_mapStages {f : Stage → Stage} (hf : ∀ st, (f st).byp = st.byp) (s : State) (c : Channel) (j : Fin 9) :
    (s.mapStages f).stage c j = f (s.stage c j) := by
  cases c <;> exact Chain.get_mapStages hf _ j

/-! ### assign -/

/-- What assign does to the stages of one cascade, for every order index and coefficient list that reach it. -/
theorem Cascade.assign_spec (c : Cascade) {oi : Nat} {coeffs : List Coeffs} (h : oi ≤ 3) (hl : coeffs.length = oi + 1) (k : Fin 4) :
    AssignedStage oi coeffs k (c.get k) ((c.assign oi coeffs).get k) := by
  unfold AssignedStage
  interval_cases oi
  · obtain ⟨a, rfl⟩ := List.length_eq_one_iff.mp hl
    fin_cases k <;>
      simp [Cascade.assign, Cascade.enableDown, Cascade.enable, Cascade.bypassAll, Cascade.get, Cascade.set, Stage.enableWith]
  · obtain ⟨a, b, rfl⟩ := List.length_eq_two.mp hl
    fin_cases k <;>
      simp [Cascade.assign, Cascade.enableDown, Cascade.enable, Cascade.bypassAll, Cascade.get, Cascade.set, Stage.enableWith]
  · obtain ⟨a, b, d, rfl⟩ := List.length_eq_three.mp hl
    fin_cases k <;>
      simp [Cascade.assign, Cascade.enableDown, Cascade.enable, Cascade.bypassAll, Cascade.get, Cascade.set, Stage.enableWith]
  · match coeffs, hl with
    | [a, b, d, e], _ =>
      fin_cases k <;>
        simp [Cascade.assign, Cascade.enableDown, Cascade.enable, Cascade.bypassAll, Cascade.get, Cascade.set, Stage.enableWith]

theorem Cascade.assign_prefixEnabled (c : Cascade) {oi : Nat} {coeffs : List Coeffs} (h : oi ≤ 3) (hl : coeffs.length = oi + 1) :
    (c.assign oi coeffs).prefixEnabled oi := fun k => (c.assign_spec h hl k).2.2.1

/-- Two cascades with equal coefficients and flags keep them equal under one assign. -/
theorem AssignedStage.eq_of {oi : Nat} {coeffs : List Coeffs} {k : Fin 4} {a a' b b' : Stage} (ha : AssignedStage oi coeffs k a a')
    (hb : AssignedStage oi coeffs k b b') (h : a.coeffs = b.coeffs) : a'.coeffs = b'.coeffs ∧ a'.byp = b'.byp := by
  obtain ⟨-, -, h1, h2, h3⟩ := ha
  obtain ⟨-, -, k1, k2, k3⟩ := hb
  refine ⟨?_, h1.trans k1.symm⟩
  by_cases hk : k.val ≤ oi
  · exact Option.some.inj ((h2 hk).symm.trans (k2 hk))
  · rw [h3 (by omega), k3 (by omega), h]

theorem designHighpassCascade_length (a : DesignArith) (f r : Word) (n : Nat) :
    (designHighpassCascade a f r n).length = n / 2 := by simp [designHighpassCascade]

theorem designLowpassCascade_length (a : DesignArith) (f r : Word) (n : Nat) :
    (designLowpassCascade a f r n).length = n / 2 := by simp [designLowpassCascade]

theorem designHighpassCascade_slope (a : DesignArith) (f r : Word) (s : Nat) :
    (designHighpassCascade a f r (orderOfSlope s)).length = s + 1 := by
  rw [designHighpassCascade_length, orderOfSlope]; omega

theorem designLowpassCascade_slope (a : DesignArith) (f r : Word) (s : Nat) :
    (designLowpassCascade a f r (orderOfSlope s)).length = s + 1 := by
  rw [designLowpassCascade_length, orderOfSlope]; omega

section

variable (a : DesignArith) (r : Word) (sane : Settings) (ch : Chain)

/-- The low-cut slots after the assignments of 43_engine.md R206. -/
theorem designInto_low (h : sane.lcs.toNat ≤ 3) (k : Fin 4) :
    AssignedStage sane.lcs.toNat (designHighpassCascade a sane.lcf r (orderOfSlope sane.lcs.toNat)) k
      (ch.get (lowSlot k)) ((designInto a r sane ch).get (lowSlot k)) := by
  rw [← Cascade.get_lowCut, ← Cascade.get_lowCut]
  exact Cascade.assign_spec _ h (designHighpassCascade_slope ..) k

/-- The high-cut slots after the assignments of 43_engine.md R206. -/
theorem designInto_high (h : sane.hcs.toNat ≤ 3) (k : Fin 4) :
    AssignedStage sane.hcs.toNat (designLowpassCascade a sane.hcf r (orderOfSlope sane.hcs.toNat)) k
      (ch.get (highSlot k)) ((designInto a r sane ch).get (highSlot k)) := by
  rw [← Cascade.get_highCut, ← Cascade.get_highCut]
  exact Cascade.assign_spec _ h (designLowpassCascade_slope ..) k

/-- The peak slot after the assignments of 43_engine.md R206. -/
theorem designInto_peak :
    (designInto a r sane ch).get 4 = { ch.get 4 with coeffs := designPeak a r sane.pkf sane.pkq sane.pkg } := rfl

/-- No assignment of 43_engine.md R206 writes a delay element. -/
theorem designInto_delays (hl : sane.lcs.toNat ≤ 3) (hh : sane.hcs.toNat ≤ 3) (j : Fin 9) :
    ((designInto a r sane ch).get j).s1 = (ch.get j).s1 ∧ ((designInto a r sane ch).get j).s2 = (ch.get j).s2 := by
  have low := fun k => And.intro (designInto_low a r sane ch hl k).1 (designInto_low a r sane ch hl k).2.1
  have high := fun k => And.intro (designInto_high a r sane ch hh k).1 (designInto_high a r sane ch hh k).2.1
  fin_cases j
  · exact low 0
  · exact low 1
  · exact low 2
  · exact low 3
  · exact ⟨rfl, rfl⟩
  · exact high 0
  · exact high 1
  · exact high 2
  · exact high 3

/-- Equal coefficients of two chains stay equal under the same assignments. -/
theorem designInto_stereo (hl : sane.lcs.toNat ≤ 3) (hh : sane.hcs.toNat ≤ 3) {l : Chain} (h : StereoCopies l ch) :
    StereoCopies (designInto a r sane l) (designInto a r sane ch) := by
  have low := fun k => (designInto_low a r sane l hl k).eq_of (designInto_low a r sane ch hl k) (h _).1
  have high := fun k => (designInto_high a r sane l hh k).eq_of (designInto_high a r sane ch hh k) (h _).1
  intro j
  fin_cases j
  · exact low 0
  · exact low 1
  · exact low 2
  · exact low 3
  · exact ⟨rfl, rfl⟩
  · exact high 0
  · exact high 1
  · exact high 2
  · exact high 3

end

end Sys2Proof.Machine
end

