-- ==== Sys2Proof/Laws/Interval.lean ====
section
/-! SUPPORT. The fixed-point intervals of the designer contain the exact reals they stand for (40_designer.md R123). -/

namespace Sys2Proof.Machine.Ivl

set_option Elab.async false

/-- If the interval says anything, the real lies inside. -/
def Contains (p : Nat) (x : Ivl) (r : ℝ) : Prop := x.ok = true → (x.lo : ℝ) ≤ r * 2 ^ p ∧ r * 2 ^ p ≤ x.hi

theorem floorDiv_le (a : Int) {b : Int} (h : 0 < b) : ((a / b : Int) : ℝ) ≤ (a : ℝ) / b := by
  rw [le_div_iff₀ (by exact_mod_cast h)]
  exact_mod_cast Int.ediv_mul_le a h.ne'

theorem le_ceilDiv (a : Int) {b : Int} (h : 0 < b) : (a : ℝ) / b ≤ ((ceilDiv a b : Int) : ℝ) := by
  have := floorDiv_le (-a) h
  rw [ceilDiv]
  push_cast at this ⊢
  rw [neg_div] at this
  linarith

theorem two_pow_pos (p : Nat) : (0 : ℝ) < 2 ^ p := by positivity

theorem contains_point (p : Nat) (n : Int) : Contains p (point p n) n := fun _ => by
  simp [point]

theorem contains_ofRatio (p : Nat) (n : Int) {d : Nat} : Contains p (ofRatio p n d) ((n : ℝ) / d) := fun h => by
  have hd : 0 < d := by simpa [ofRatio] using h
  have h1 := floorDiv_le (n * 2 ^ p) (b := d) (by exact_mod_cast hd)
  have h2 := le_ceilDiv (n * 2 ^ p) (b := d) (by exact_mod_cast hd)
  push_cast at h1 h2
  have e : (n : ℝ) / d * 2 ^ p = n * 2 ^ p / d := by ring
  simp only [ofRatio]
  rw [e]
  exact ⟨h1, h2⟩

theorem Contains.add {p : Nat} {x y : Ivl} {r s : ℝ} (hx : Contains p x r) (hy : Contains p y s) :
    Contains p (add x y) (r + s) := fun h => by
  simp only [Ivl.add, Bool.and_eq_true] at h ⊢
  obtain ⟨a, b⟩ := hx h.1
  obtain ⟨c, d⟩ := hy h.2
  push_cast
  exact ⟨by linarith, by linarith⟩

theorem Contains.neg {p : Nat} {x : Ivl} {r : ℝ} (hx : Contains p x r) : Contains p (neg x) (-r) := fun h => by
  obtain ⟨a, b⟩ := hx h
  simp only [Ivl.neg]
  push_cast
  exact ⟨by linarith, by linarith⟩

theorem Contains.sub {p : Nat} {x y : Ivl} {r s : ℝ} (hx : Contains p x r) (hy : Contains p y s) :
    Contains p (sub x y) (r - s) := by
  rw [sub_eq_add_neg]
  exact hx.add hy.neg

/-- A product of two reals lies between the least and the greatest product of the ends. -/
theorem product_between {a b c d x y : ℝ} (h1 : a ≤ x) (h2 : x ≤ b) (h3 : c ≤ y) (h4 : y ≤ d) :
    min (min (a * c) (a * d)) (min (b * c) (b * d)) ≤ x * y ∧ x * y ≤ max (max (a * c) (a * d)) (max (b * c) (b * d)) := by
  have lin : ∀ t : ℝ, min (t * c) (t * d) ≤ t * y ∧ t * y ≤ max (t * c) (t * d) := by
    intro t
    rcases le_total 0 t with ht | ht
    · exact ⟨min_le_of_left_le (mul_le_mul_of_nonneg_left h3 ht), le_max_of_le_right (mul_le_mul_of_nonneg_left h4 ht)⟩
    · exact ⟨min_le_of_right_le (mul_le_mul_of_nonpos_left h4 ht), le_max_of_le_left (mul_le_mul_of_nonpos_left h3 ht)⟩
  rcases le_total 0 y with hy | hy
  · exact ⟨min_le_of_left_le ((lin a).1.trans (mul_le_mul_of_nonneg_right h1 hy)),
      le_max_of_le_right ((mul_le_mul_of_nonneg_right h2 hy).trans (lin b).2)⟩
  · exact ⟨min_le_of_right_le ((lin b).1.trans (mul_le_mul_of_nonpos_right h2 hy)),
      le_max_of_le_left ((mul_le_mul_of_nonpos_right h1 hy).trans (lin a).2)⟩

theorem Contains.mul {p : Nat} {x y : Ivl} {r s : ℝ} (hx : Contains p x r) (hy : Contains p y s) :
    Contains p (mul p x y) (r * s) := fun h => by
  simp only [Ivl.mul, Bool.and_eq_true] at h ⊢
  obtain ⟨a, b⟩ := hx h.1
  obtain ⟨c, d⟩ := hy h.2
  obtain ⟨lo, hi⟩ := product_between a b c d
  have hp := two_pow_pos p
  have hpi : (0 : Int) < 2 ^ p := by positivity
  have e : r * s * 2 ^ p = r * 2 ^ p * (s * 2 ^ p) / 2 ^ p := by field_simp
  have h1 := floorDiv_le (least (x.lo * y.lo) (x.lo * y.hi) (x.hi * y.lo) (x.hi * y.hi)) hpi
  have h2 := le_ceilDiv (greatest (x.lo * y.lo) (x.lo * y.hi) (x.hi * y.lo) (x.hi * y.hi)) hpi
  rw [e]
  refine ⟨h1.trans ?_, le_trans ?_ h2⟩
  · simp only [least]; push_cast
    exact (div_le_div_iff_of_pos_right hp).mpr lo
  · simp only [greatest]; push_cast
    exact (div_le_div_iff_of_pos_right hp).mpr hi

theorem Contains.div {p : Nat} {x y : Ivl} {r s : ℝ} (hx : Contains p x r) (hy : Contains p y s) :
    Contains p (div p x y) (r / s) := fun h => by
  simp only [Ivl.div, Bool.and_eq_true, decide_eq_true_eq] at h ⊢
  obtain ⟨⟨hx1, hy1⟩, hpos⟩ := h
  obtain ⟨a, b⟩ := hx hx1
  obtain ⟨c, d⟩ := hy hy1
  have hp := two_pow_pos p
  have hl : (0 : ℝ) < y.lo := by exact_mod_cast hpos
  have hs : 0 < s * 2 ^ p := lt_of_lt_of_le hl c
  have hh : (0 : ℝ) < y.hi := lt_of_lt_of_le hs d
  have hhi : 0 < y.hi := by exact_mod_cast hh
  have e : r / s * 2 ^ p = r * 2 ^ p * 2 ^ p / (s * 2 ^ p) := by
    have : s ≠ 0 := by rintro rfl; simp at hs
    field_simp
  rw [e]
  have ha := mul_le_mul_of_nonneg_right a hp.le
  have hb := mul_le_mul_of_nonneg_right b hp.le
  constructor
  · push_cast
    rcases le_total 0 x.lo with h0 | h0
    · refine (min_le_right _ _).trans ((floorDiv_le _ hhi).trans ?_)
      have h0' : (0 : ℝ) ≤ x.lo * 2 ^ p := mul_nonneg (by exact_mod_cast h0) hp.le
      push_cast
      exact div_le_div₀ (h0'.trans ha) ha hs d
    · refine (min_le_left _ _).trans ((floorDiv_le _ hpos).trans ?_)
      have h0' : (x.lo : ℝ) * 2 ^ p ≤ 0 := mul_nonpos_of_nonpos_of_nonneg (by exact_mod_cast h0) hp.le
      push_cast
      rw [div_le_div_iff₀ hl hs]
      nlinarith
  · push_cast
    rcases le_total 0 x.hi with h0 | h0
    · refine le_trans ?_ (le_max_left _ _)
      refine le_trans ?_ (le_ceilDiv _ hpos)
      have h0' : (0 : ℝ) ≤ x.hi * 2 ^ p := mul_nonneg (by exact_mod_cast h0) hp.le
      push_cast
      exact div_le_div₀ h0' hb hl c
    · refine le_trans ?_ (le_max_right _ _)
      refine le_trans ?_ (le_ceilDiv _ hhi)
      have h0' : (x.hi : ℝ) * 2 ^ p ≤ 0 := mul_nonpos_of_nonpos_of_nonneg (by exact_mod_cast h0) hp.le
      push_cast
      rw [div_le_div_iff₀ hs hh]
      nlinarith

theorem Contains.divNat {p : Nat} {x : Ivl} {r : ℝ} (hx : Contains p x r) (n : Nat) :
    Contains p (divNat x n) (r / n) := fun h => by
  simp only [Ivl.divNat, Bool.and_eq_true, decide_eq_true_eq] at h ⊢
  obtain ⟨a, b⟩ := hx h.1
  have hn : (0 : Int) < n := by exact_mod_cast h.2
  have hnR : (0 : ℝ) < n := by exact_mod_cast h.2
  have e : r / n * 2 ^ p = r * 2 ^ p / n := by ring
  have h1 := floorDiv_le x.lo hn
  have h2 := le_ceilDiv x.hi hn
  push_cast at h1 h2
  rw [e]
  exact ⟨h1.trans ((div_le_div_iff_of_pos_right hnR).mpr a), le_trans ((div_le_div_iff_of_pos_right hnR).mpr b) h2⟩

theorem Contains.abs_mul_le {p : Nat} {x : Ivl} {r : ℝ} (hx : Contains p x r) (h : x.ok = true) :
    |r| * 2 ^ p ≤ (absBound x : Int) := by
  obtain ⟨a, b⟩ := hx h
  have hp := two_pow_pos p
  rw [← abs_of_pos hp, ← abs_mul, absBound]
  push_cast
  exact max_comm (-(x.lo : ℝ)) x.hi ▸ abs_le_max_abs_abs' a b
where
  abs_le_max_abs_abs' {a b c : ℝ} (h1 : a ≤ b) (h2 : b ≤ c) : |b| ≤ max c (-a) := by
    rw [abs_le']
    exact ⟨h2.trans (le_max_left _ _), (neg_le_neg h1).trans (le_max_right _ _)⟩

/-- What lies within twice |e| of r lies in the widened interval. -/
theorem Contains.widen {p : Nat} {x e : Ivl} {r s t : ℝ} (hx : Contains p x r) (he : Contains p e s)
    (h : |t - r| ≤ 2 * |s|) : Contains p (widen x e) t := fun hok => by
  simp only [Ivl.widen, Bool.and_eq_true] at hok ⊢
  obtain ⟨a, b⟩ := hx hok.1
  have hb := he.abs_mul_le hok.2
  have hp := two_pow_pos p
  rw [abs_le] at h
  rw [Int.cast_sub, Int.cast_add, Int.cast_mul]
  push_cast
  constructor <;> nlinarith

/-! ### Series -/

/-- The partial sums of the three series in exact reals. -/
noncomputable def evenSum (r : ℝ) (n : Nat) : ℝ :=
  ∑ k ∈ Finset.range n, if k % 4 = 0 then r ^ k / k.factorial else if k % 4 = 2 then -(r ^ k / k.factorial) else 0

noncomputable def oddSum (r : ℝ) (n : Nat) : ℝ :=
  ∑ k ∈ Finset.range n, if k % 4 = 1 then r ^ k / k.factorial else if k % 4 = 3 then -(r ^ k / k.factorial) else 0

noncomputable def allSum (r : ℝ) (n : Nat) : ℝ := ∑ k ∈ Finset.range n, r ^ k / k.factorial

theorem contains_series {p : Nat} {x : Ivl} {r : ℝ} (hx : Contains p x r) (n : Nat) :
    Contains p (series p x n).even (evenSum r n) ∧ Contains p (series p x n).odd (oddSum r n) ∧
      Contains p (series p x n).all (allSum r n) ∧ Contains p (series p x n).term (r ^ n / n.factorial) := by
  induction n with
  | zero =>
    have z := contains_point p 0
    have o := contains_point p 1
    simp only [Int.cast_zero, Int.cast_one] at z o
    refine ⟨by simpa [evenSum, series] using z, by simpa [oddSum, series] using z, by simpa [allSum, series] using z, ?_⟩
    simpa [series] using o
  | succ n ih =>
    obtain ⟨he, ho, ha, ht⟩ := ih
    refine ⟨?_, ?_, ?_, ?_⟩
    · rw [evenSum, Finset.sum_range_succ, ← evenSum]
      simp only [series, seriesStep]
      rcases (show n % 4 = 0 ∨ n % 4 = 1 ∨ n % 4 = 2 ∨ n % 4 = 3 by omega) with h | h | h | h <;> simp only [h]
      · simpa using he.add ht
      · simpa using he
      · simpa [sub_eq_add_neg] using he.sub ht
      · simpa using he
    · rw [oddSum, Finset.sum_range_succ, ← oddSum]
      simp only [series, seriesStep]
      rcases (show n % 4 = 0 ∨ n % 4 = 1 ∨ n % 4 = 2 ∨ n % 4 = 3 by omega) with h | h | h | h <;> simp only [h]
      · simpa using ho
      · simpa using ho.add ht
      · simpa using ho
      · simpa [sub_eq_add_neg] using ho.sub ht
    · rw [allSum, Finset.sum_range_succ, ← allSum]
      exact ha.add ht
    · have := (ht.mul hx).divNat (n + 1)
      have e : r ^ n / n.factorial * r / ((n + 1 : ℕ) : ℝ) = r ^ (n + 1) / ((n + 1).factorial : ℝ) := by
        rw [Nat.factorial_succ]
        push_cast
        have : (n.factorial : ℝ) ≠ 0 := by exact_mod_cast n.factorial_ne_zero
        field_simp
        ring
      rw [e] at this
      exact this

theorem I_pow_re_im (n : Nat) (a : ℝ) :
    ((a : ℂ) * Complex.I ^ n).re = (if n % 4 = 0 then a else if n % 4 = 2 then -a else 0) ∧
      ((a : ℂ) * Complex.I ^ n).im = (if n % 4 = 1 then a else if n % 4 = 3 then -a else 0) := by
  have h := Nat.div_add_mod n 4
  have hI : Complex.I ^ n = Complex.I ^ (n % 4) := by
    conv_lhs => rw [← h, pow_add, pow_mul, Complex.I_pow_four, one_pow, one_mul]
  rw [hI]
  rcases (show n % 4 = 0 ∨ n % 4 = 1 ∨ n % 4 = 2 ∨ n % 4 = 3 by omega) with h | h | h | h <;> rw [h] <;>
    simp [pow_succ]

theorem exp_I_partial (r : ℝ) (n : Nat) :
    (∑ m ∈ Finset.range n, ((r : ℂ) * Complex.I) ^ m / (m.factorial : ℂ)).re = evenSum r n ∧
      (∑ m ∈ Finset.range n, ((r : ℂ) * Complex.I) ^ m / (m.factorial : ℂ)).im = oddSum r n := by
  have e : ∀ m : Nat, ((r : ℂ) * Complex.I) ^ m / (m.factorial : ℂ) =
      ((r ^ m / m.factorial : ℝ) : ℂ) * Complex.I ^ m := by
    intro m; push_cast; rw [mul_pow]; ring
  simp only [e, Complex.re_sum, Complex.im_sum, evenSum, oddSum]
  exact ⟨Finset.sum_congr rfl fun m _ => (I_pow_re_im m _).1, Finset.sum_congr rfl fun m _ => (I_pow_re_im m _).2⟩

/-- What the first n terms leave out, for |r| ≤ (n + 1)/2. -/
theorem trig_remainder {r : ℝ} {n : Nat} (h : |r| ≤ (n + 1) / 2) :
    |Real.cos r - evenSum r n| ≤ 2 * |r ^ n / n.factorial| ∧ |Real.sin r - oddSum r n| ≤ 2 * |r ^ n / n.factorial| := by
  have hn : (0 : ℝ) < (n.succ : ℝ) := by positivity
  have hnorm : ‖(r : ℂ) * Complex.I‖ = |r| := by simp
  have hb : ‖(r : ℂ) * Complex.I‖ / (n.succ : ℝ) ≤ 1 / 2 := by
    rw [hnorm, div_le_iff₀ hn]; push_cast; linarith
  have hexp := Complex.exp_bound' hb
  rw [hnorm] at hexp
  have hrhs : |r| ^ n / (n.factorial : ℝ) * 2 = 2 * |r ^ n / n.factorial| := by
    rw [abs_div, abs_pow, Nat.abs_cast]; ring
  rw [hrhs] at hexp
  obtain ⟨hre, him⟩ := exp_I_partial r n
  have hE : Complex.exp ((r : ℂ) * Complex.I) = Complex.cos r + Complex.sin r * Complex.I := Complex.exp_mul_I _
  constructor
  · refine le_trans ?_ hexp
    refine le_trans (le_of_eq ?_) (Complex.abs_re_le_norm _)
    rw [Complex.sub_re, hre, hE]
    simp [← Complex.ofReal_cos, ← Complex.ofReal_sin]
  · refine le_trans ?_ hexp
    refine le_trans (le_of_eq ?_) (Complex.abs_im_le_norm _)
    rw [Complex.sub_im, him, hE]
    simp [← Complex.ofReal_cos, ← Complex.ofReal_sin]

theorem exp_remainder {r : ℝ} {n : Nat} (h : |r| ≤ (n + 1) / 2) :
    |Real.exp r - allSum r n| ≤ 2 * |r ^ n / n.factorial| := by
  have hn : (0 : ℝ) < (n.succ : ℝ) := by positivity
  have hnorm : ‖(r : ℂ)‖ = |r| := by simp
  have hb : ‖(r : ℂ)‖ / (n.succ : ℝ) ≤ 1 / 2 := by
    rw [hnorm, div_le_iff₀ hn]; push_cast; linarith
  have hexp := Complex.exp_bound' hb
  rw [hnorm] at hexp
  have hrhs : |r| ^ n / (n.factorial : ℝ) * 2 = 2 * |r ^ n / n.factorial| := by
    rw [abs_div, abs_pow, Nat.abs_cast]; ring
  rw [hrhs] at hexp
  have e : Complex.exp r - ∑ m ∈ Finset.range n, (r : ℂ) ^ m / (m.factorial : ℂ) =
      ((Real.exp r - allSum r n : ℝ) : ℂ) := by
    rw [allSum]; push_cast; rfl
  rw [e, Complex.norm_real, Real.norm_eq_abs] at hexp
  exact hexp

theorem contains_within {p n : Nat} {x : Ivl} {r : ℝ} (hx : Contains p x r) : Contains p (within p n x) r := fun h => by
  simp only [within, Bool.and_eq_true] at h ⊢
  exact hx h.1

theorem within_bound {p n : Nat} {x : Ivl} {r : ℝ} (hx : Contains p x r) (h : (within p n x).ok = true) :
    |r| ≤ (n + 1) / 2 := by
  simp only [within, Bool.and_eq_true, decide_eq_true_eq] at h
  have h1 := hx.abs_mul_le h.1
  have h2 : ((2 * absBound x : Int) : ℝ) ≤ (((n + 1) * 2 ^ p : Int) : ℝ) := by exact_mod_cast h.2
  push_cast at h2
  have hp := two_pow_pos p
  have : |r| * 2 ^ p * 2 ≤ (n + 1) * 2 ^ p := by linarith
  have : (|r| * 2) * 2 ^ p ≤ (n + 1) * 2 ^ p := by linarith
  have := le_of_mul_le_mul_right this hp
  linarith

theorem series_ok {p : Nat} {x : Ivl} {n : Nat} (hn : 0 < n) (h : (series p x n).term.ok = true) : x.ok = true := by
  obtain ⟨m, rfl⟩ : ∃ m, n = m + 1 := ⟨n - 1, by omega⟩
  simp only [series, seriesStep, divNat, mul, Bool.and_eq_true] at h
  exact h.1.2

theorem contains_cos {n p : Nat} {x : Ivl} {r : ℝ} (hn : 0 < n) (hx : Contains p x r) :
    Contains p (cos n p x) (Real.cos r) := by
  intro hok
  obtain ⟨he, _, _, ht⟩ := contains_series (contains_within (n := n) hx) n
  have hok' := hok
  simp only [cos, Ivl.widen, Bool.and_eq_true] at hok'
  have hw := within_bound (n := n) hx (series_ok hn hok'.2)
  exact he.widen ht (trig_remainder hw).1 hok

theorem contains_sin {n p : Nat} {x : Ivl} {r : ℝ} (hn : 0 < n) (hx : Contains p x r) :
    Contains p (sin n p x) (Real.sin r) := by
  intro hok
  obtain ⟨_, ho, _, ht⟩ := contains_series (contains_within (n := n) hx) n
  have hok' := hok
  simp only [sin, Ivl.widen, Bool.and_eq_true] at hok'
  have hw := within_bound (n := n) hx (series_ok hn hok'.2)
  exact ho.widen ht (trig_remainder hw).2 hok

theorem contains_exp {n p : Nat} {x : Ivl} {r : ℝ} (hn : 0 < n) (hx : Contains p x r) :
    Contains p (exp n p x) (Real.exp r) := by
  intro hok
  obtain ⟨_, _, ha, ht⟩ := contains_series (contains_within (n := n) hx) n
  have hok' := hok
  simp only [exp, Ivl.widen, Bool.and_eq_true] at hok'
  have hw := within_bound (n := n) hx (series_ok hn hok'.2)
  exact ha.widen ht (exp_remainder hw) hok

/-! ### Square roots -/

theorem le_of_mul_self_le {a b : ℝ} (hb : 0 ≤ b) (h : a * a ≤ b * b) : a ≤ b := by
  by_contra hc; push Not at hc; nlinarith

/-- Natural numbers whose squares enclose lo · 2^p and hi · 2^p enclose the square root. -/
theorem sqrt_between {p : Nat} {lo hi : Int} {r : ℝ} {u v : Nat} (h0 : 0 ≤ lo) (a : (lo : ℝ) ≤ r * 2 ^ p)
    (b : r * 2 ^ p ≤ hi) (hu : u * u ≤ lo.toNat * 2 ^ p) (hv : hi.toNat * 2 ^ p ≤ v * v) :
    (((u : Int) : Int) : ℝ) ≤ Real.sqrt r * 2 ^ p ∧ Real.sqrt r * 2 ^ p ≤ (((v : Int) : Int) : ℝ) := by
  have hp := two_pow_pos p
  have hlo : ((lo.toNat : ℕ) : ℝ) = lo := by exact_mod_cast Int.toNat_of_nonneg h0
  have hlo0 : (0 : ℝ) ≤ lo := by exact_mod_cast h0
  have hr0 : 0 ≤ r := by
    by_contra hc; push Not at hc
    nlinarith
  have hhi0 : 0 ≤ hi := by
    have : (0 : ℝ) ≤ hi := le_trans (mul_nonneg hr0 hp.le) b
    exact_mod_cast this
  have hhi : ((hi.toNat : ℕ) : ℝ) = hi := by exact_mod_cast Int.toNat_of_nonneg hhi0
  have hu' : (u : ℝ) * u ≤ lo * 2 ^ p := by rw [← hlo]; exact_mod_cast hu
  have hv' : (hi : ℝ) * 2 ^ p ≤ v * v := by rw [← hhi]; exact_mod_cast hv
  have hs := Real.sqrt_nonneg r
  have e : (Real.sqrt r * 2 ^ p) * (Real.sqrt r * 2 ^ p) = r * 2 ^ p * 2 ^ p := by
    calc _ = (Real.sqrt r * Real.sqrt r) * 2 ^ p * 2 ^ p := by ring
      _ = _ := by rw [Real.mul_self_sqrt hr0]
  simp only [Int.cast_natCast]
  constructor
  · apply le_of_mul_self_le (mul_nonneg hs hp.le)
    nlinarith
  · apply le_of_mul_self_le (by positivity)
    nlinarith

theorem Contains.sqrt {root : Nat → Nat} {p : Nat} {x : Ivl} {r : ℝ} (hx : Contains p x r) :
    Contains p (sqrt root p x) (Real.sqrt r) := by
  intro hok
  rw [Ivl.sqrt] at hok ⊢
  rw [Bool.and_eq_true, Bool.and_eq_true, Bool.and_eq_true, decide_eq_true_eq, decide_eq_true_eq, decide_eq_true_eq] at hok
  obtain ⟨⟨⟨h1, h2⟩, h3⟩, h4⟩ := hok
  exact sqrt_between h2 (hx h1).1 (hx h1).2 h3 h4

/-! ### Constants -/

/-- A literal at 400 bits, cut to fewer bits. -/
theorem contains_ofLiteral {p literal : Nat} {r : ℝ} (h1 : (literal : ℝ) ≤ r * 2 ^ literalBits)
    (h2 : r * 2 ^ literalBits ≤ literal + 1) : Contains p (ofLiteral p literal) r := by
  intro hok
  simp only [ofLiteral, decide_eq_true_eq] at hok ⊢
  obtain ⟨d, hd⟩ : ∃ d, literalBits = p + d := ⟨literalBits - p, by omega⟩
  rw [hd, Nat.add_sub_cancel_left]
  rw [hd, pow_add] at h1 h2
  have hp := two_pow_pos p
  have hdp := two_pow_pos d
  have hdn : 0 < 2 ^ d := by positivity
  have ha := Nat.div_mul_le_self literal (2 ^ d)
  have hb : literal + 1 ≤ (literal / 2 ^ d + 1) * 2 ^ d := Nat.lt_div_mul_add hdn |>.trans_eq (by ring)
  have ha' : ((literal / 2 ^ d : ℕ) : ℝ) * 2 ^ d ≤ literal := by exact_mod_cast ha
  have hb' : (literal : ℝ) + 1 ≤ (((literal / 2 ^ d : ℕ) : ℝ) + 1) * 2 ^ d := by exact_mod_cast hb
  rw [Int.cast_add, Int.cast_one, Int.cast_natCast]
  constructor
  · apply le_of_mul_le_mul_right _ hdp
    linarith
  · apply le_of_mul_le_mul_right _ hdp
    linarith

/-- The precision at which the two literals are checked, and the number of terms. -/
def checkBits : Nat := 480

def checkTerms : Nat := 144

/-- The point n / 2^400 as an interval at 480 bits. -/
def literalPoint (n : Nat) : Ivl := ⟨(n * 2 ^ 80 : Nat), (n * 2 ^ 80 : Nat), true⟩

theorem sin_at_piLiteral : (sin checkTerms checkBits (literalPoint piLiteral)).ok = true ∧
    0 < (sin checkTerms checkBits (literalPoint piLiteral)).lo := by decide +kernel

theorem sin_above_piLiteral :
    (sin checkTerms checkBits (literalPoint (piLiteral + 1))).ok = true ∧
      (sin checkTerms checkBits (literalPoint (piLiteral + 1))).hi < 0 := by decide +kernel

theorem exp_at_lnTenLiteral : (exp checkTerms checkBits (literalPoint lnTenLiteral)).ok = true ∧
    (exp checkTerms checkBits (literalPoint lnTenLiteral)).hi ≤ 10 * 2 ^ checkBits := by decide +kernel

theorem exp_above_lnTenLiteral :
    (exp checkTerms checkBits (literalPoint (lnTenLiteral + 1))).ok = true ∧
      10 * 2 ^ checkBits ≤ (exp checkTerms checkBits (literalPoint (lnTenLiteral + 1))).lo := by
  decide +kernel

theorem contains_literalPoint (n : Nat) : Contains checkBits (literalPoint n) ((n : ℝ) / 2 ^ literalBits) := fun _ => by
  have e : (n : ℝ) / 2 ^ literalBits * 2 ^ checkBits = n * 2 ^ 80 := by
    have : (2 : ℝ) ^ checkBits = 2 ^ literalBits * 2 ^ 80 := by rw [← pow_add]; rfl
    rw [this]
    have := (two_pow_pos literalBits).ne'
    field_simp
  have h : (((n * 2 ^ 80 : Nat) : Int) : ℝ) = n * 2 ^ 80 := by
    rw [Int.cast_natCast, Nat.cast_mul, Nat.cast_pow]; rfl
  rw [e, ← h]
  exact ⟨le_refl _, le_refl _⟩

theorem piLiteral_div_lt_four : ((piLiteral + 1 : ℕ) : ℝ) / 2 ^ literalBits < 4 := by
  rw [div_lt_iff₀ (two_pow_pos _)]
  exact_mod_cast (by decide +kernel : piLiteral + 1 < 4 * 2 ^ literalBits)

theorem pi_bounds : (piLiteral : ℝ) ≤ Real.pi * 2 ^ literalBits ∧ Real.pi * 2 ^ literalBits ≤ piLiteral + 1 := by
  have hp := two_pow_pos literalBits
  have h3 := Real.pi_gt_three
  constructor
  · rw [← div_le_iff₀ hp]
    by_contra hc
    push Not at hc
    obtain ⟨hok, hlo⟩ := sin_at_piLiteral
    have hs := (contains_sin (by decide : 0 < checkTerms) (contains_literalPoint piLiteral) hok).1
    have hlo' : (0 : ℝ) < ((sin checkTerms checkBits (literalPoint piLiteral)).lo : ℝ) := by exact_mod_cast hlo
    have hpos : 0 < Real.sin ((piLiteral : ℝ) / 2 ^ literalBits) :=
      pos_of_mul_pos_of_pos_right (lt_of_lt_of_le hlo' hs) (two_pow_pos _).le
    have hlt : (piLiteral : ℝ) / 2 ^ literalBits < 4 := by
      refine lt_trans ?_ piLiteral_div_lt_four
      exact (div_lt_div_iff_of_pos_right hp).mpr (by exact_mod_cast Nat.lt_succ_self _)
    have hneg := Real.sin_nonpos_of_nonpos_of_neg_pi_le (x := (piLiteral : ℝ) / 2 ^ literalBits - 2 * Real.pi)
      (by linarith) (by linarith)
    rw [Real.sin_sub_two_pi] at hneg
    linarith
  · rw [← le_div_iff₀ hp]
    by_contra hc
    push Not at hc
    obtain ⟨hok, hhi⟩ := sin_above_piLiteral
    have hs := (contains_sin (by decide : 0 < checkTerms) (contains_literalPoint (piLiteral + 1)) hok).2
    have hhi' : ((sin checkTerms checkBits (literalPoint (piLiteral + 1))).hi : ℝ) < 0 := by exact_mod_cast hhi
    rw [Nat.cast_add, Nat.cast_one] at hs
    have h0 : 0 ≤ ((piLiteral : ℝ) + 1) / 2 ^ literalBits :=
      div_nonneg (add_nonneg (Nat.cast_nonneg _) zero_le_one) hp.le
    have hpos := Real.sin_nonneg_of_nonneg_of_le_pi h0 hc.le
    have := mul_nonneg hpos (two_pow_pos checkBits).le
    linarith
where
  pos_of_mul_pos_of_pos_right {a b : ℝ} (h : 0 < a * b) (hb : 0 ≤ b) : 0 < a := by
    by_contra hc; push Not at hc; nlinarith

theorem lnTen_bounds : (lnTenLiteral : ℝ) ≤ Real.log 10 * 2 ^ literalBits ∧
    Real.log 10 * 2 ^ literalBits ≤ lnTenLiteral + 1 := by
  have hp := two_pow_pos literalBits
  have hc := two_pow_pos checkBits
  constructor
  · rw [← div_le_iff₀ hp, Real.le_log_iff_exp_le (by norm_num)]
    obtain ⟨hok, hhi⟩ := exp_at_lnTenLiteral
    have hs := (contains_exp (by decide : 0 < checkTerms) (contains_literalPoint lnTenLiteral) hok).2
    have hhi' : ((exp checkTerms checkBits (literalPoint lnTenLiteral)).hi : ℝ) ≤ 10 * 2 ^ checkBits := by
      exact_mod_cast hhi
    exact le_of_mul_le_mul_right (hs.trans hhi') hc
  · rw [← le_div_iff₀ hp, Real.log_le_iff_le_exp (by norm_num)]
    obtain ⟨hok, hlo⟩ := exp_above_lnTenLiteral
    have hs := (contains_exp (by decide : 0 < checkTerms) (contains_literalPoint (lnTenLiteral + 1)) hok).1
    have hlo' : (10 : ℝ) * 2 ^ checkBits ≤
        ((exp checkTerms checkBits (literalPoint (lnTenLiteral + 1))).lo : ℝ) := by exact_mod_cast hlo
    rw [Nat.cast_add, Nat.cast_one] at hs
    exact le_of_mul_le_mul_right (hlo'.trans hs) hc

theorem contains_pi (p : Nat) : Contains p (pi p) Real.pi := contains_ofLiteral pi_bounds.1 pi_bounds.2

theorem contains_lnTen (p : Nat) : Contains p (lnTen p) (Real.log 10) := contains_ofLiteral lnTen_bounds.1 lnTen_bounds.2

/-! ### Rounding an interval -/

/-- A decided rounding is the rounding of the real inside, in units of 2^-149. -/
theorem isRounding_of_round32 {p : Nat} {x : Ivl} {r : ℝ} {w : Word} (hx : Contains p x r) (h : round32 p x = some w) :
    F32.IsRounding (r * 2 ^ 149) w := by
  unfold round32 at h
  split_ifs at h with hok h0 h1
  · obtain ⟨a, b⟩ := hx hok
    rw [h0.1] at a
    rw [h0.2] at b
    have hp := two_pow_pos p
    have hr : r = 0 := by
      simp only [Int.cast_zero] at a b
      nlinarith
    have ra := F32.isRounding_roundReal 0 (den := 1) (by norm_num)
    cases h
    rw [hr]
    simpa using ra
  · obtain ⟨h0, heq⟩ := h1
    simp only [Option.some.injEq] at h
    obtain ⟨a, b⟩ := hx hok
    have hp := two_pow_pos p
    have hpn : 0 < 2 ^ p := by positivity
    have ra := F32.isRounding_roundReal (x.lo * 2 ^ 149) hpn
    have rb := F32.isRounding_roundReal (x.hi * 2 ^ 149) hpn
    rw [h] at ra
    rw [← heq, h] at rb
    rw [Int.cast_mul, Int.cast_pow, Int.cast_ofNat, Nat.cast_pow, Nat.cast_ofNat] at ra rb
    have hk := two_pow_pos 149
    generalize (2 : ℝ) ^ 149 = K at *
    refine ra.between rb ?_ ?_ ?_
    · rw [div_le_iff₀ hp]; nlinarith
    · rw [le_div_iff₀ hp]; nlinarith
    · rcases h0 with h0 | h0
      · left
        have : (0 : ℝ) < x.lo := by exact_mod_cast h0
        positivity
      · right; left
        have : (x.hi : ℝ) < 0 := by exact_mod_cast h0
        exact div_neg_of_neg_of_pos (mul_neg_of_neg_of_pos this hk) hp

end Sys2Proof.Machine.Ivl
end

