-- ==== Sys2Proof/Laws/Limit.lean ====
section
/-! SUPPORT. `roundLimit` is round32 of any real that its intervals enclose as finely as one likes, ties and 0 included
(40_designer.md R123). -/

namespace Sys2Proof.Machine

namespace F32

/-- Halfway between the magnitudes m and m + 1. -/
noncomputable def halfway (m : Nat) : ℝ := ((magUnits m + magUnits (m + 1) : ℕ) : ℝ) / 2

theorem halfway_strictMono : StrictMono halfway := by
  intro a b h
  have h1 := magUnits_strictMono h
  have h2 := magUnits_strictMono (Nat.succ_lt_succ h)
  unfold halfway
  have : magUnits a + magUnits (a + 1) < magUnits b + magUnits (b + 1) := by
    simp only [Nat.succ_eq_add_one] at h2; omega
  have : ((magUnits a + magUnits (a + 1) : ℕ) : ℝ) < ((magUnits b + magUnits (b + 1) : ℕ) : ℝ) := by exact_mod_cast this
  linarith

theorem halfway_pos (m : Nat) : 0 < halfway m := by
  have h := magUnits_strictMono (Nat.lt_succ_self m)
  have : 0 < magUnits m + magUnits (m + 1) := by simp only [Nat.succ_eq_add_one] at h; omega
  have : (0 : ℝ) < ((magUnits m + magUnits (m + 1) : ℕ) : ℝ) := by exact_mod_cast this
  unfold halfway; linarith

theorem halfway_infMag : halfway (infMag - 1) = overflowUnits := by
  have h : magUnits (infMag - 1) + magUnits (infMag - 1 + 1) = 2 * overflowUnits := by decide +kernel
  rw [halfway, h, Nat.cast_mul, Nat.cast_ofNat, mul_comm, mul_div_assoc, div_self two_ne_zero, mul_one]

/-- The magnitudes to which the positive R may round: R lies between the halfway points around m, and on one only if m is even. -/
structure MagRounds (R : ℝ) (m : Nat) : Prop where
  le : m ≤ infMag
  above : m < infMag → R ≤ halfway m ∧ (R = halfway m → m % 2 = 0)
  below : 0 < m → halfway (m - 1) ≤ R ∧ (R = halfway (m - 1) → m % 2 = 0)

/-- A nearest magnitude lies around R. -/
theorem between_of_nearest {R : ℝ} {m : Nat}
    (h : ∀ v, |(magUnits m : ℝ) - R| ≤ |(magUnits v : ℝ) - R| ∧
      (|(magUnits m : ℝ) - R| = |(magUnits v : ℝ) - R| → v ≠ m → m % 2 = 0)) :
    (R ≤ halfway m ∧ (R = halfway m → m % 2 = 0)) ∧ (0 < m → halfway (m - 1) ≤ R ∧ (R = halfway (m - 1) → m % 2 = 0)) := by
  have key : ∀ v, v ≠ m → |(magUnits m : ℝ) - R| = |(magUnits v : ℝ) - R| → m % 2 = 0 := fun v hv he => (h v).2 he hv
  constructor
  · have hlt : (magUnits m : ℝ) < magUnits (m + 1) := by exact_mod_cast magUnits_strictMono (Nat.lt_succ_self m)
    have h1 := (h (m + 1)).1
    have e : halfway m = ((magUnits m : ℝ) + magUnits (m + 1)) / 2 := by rw [halfway]; push_cast; ring
    rw [e]
    constructor
    · by_contra hc
      push Not at hc
      rw [abs_of_neg (by linarith)] at h1
      rcases abs_cases ((magUnits (m + 1) : ℝ) - R) with ⟨h2, _⟩ | ⟨h2, _⟩ <;> rw [h2] at h1 <;> linarith
    · intro hR
      apply key (m + 1) (by omega)
      rw [hR, abs_of_neg (by linarith), abs_of_pos (by linarith)]; ring
  · intro hm
    have hlt : (magUnits (m - 1) : ℝ) < magUnits m := by exact_mod_cast magUnits_strictMono (by omega)
    have h1 := (h (m - 1)).1
    have e : halfway (m - 1) = ((magUnits (m - 1) : ℝ) + magUnits m) / 2 := by
      rw [halfway, show m - 1 + 1 = m by omega]; push_cast; ring
    rw [e]
    constructor
    · by_contra hc
      push Not at hc
      rw [abs_of_pos (by linarith)] at h1
      rcases abs_cases ((magUnits (m - 1) : ℝ) - R) with ⟨h2, _⟩ | ⟨h2, _⟩ <;> rw [h2] at h1 <;> linarith
    · intro hR
      apply key (m - 1) (by omega)
      rw [hR, abs_of_pos (by linarith), abs_of_neg (by linarith)]; ring

theorem magRounds_roundMag {num den : Nat} (h : 0 < den) : MagRounds ((num : ℝ) / den) (roundMag num den) := by
  obtain ⟨a, b⟩ := between_of_nearest (R := (num : ℝ) / den) (m := openMag num den) (openMag_nearest h)
  by_cases ho : openMag num den < infMag
  · have e : roundMag num den = openMag num den := by rw [roundMag_eq]; omega
    rw [e]
    exact ⟨ho.le, fun _ => a, b⟩
  · have e : roundMag num den = infMag := by rw [roundMag_eq]; omega
    rw [e]
    refine ⟨le_refl _, fun hc => absurd hc (lt_irrefl _), fun _ => ⟨?_, fun _ => by decide⟩⟩
    rw [halfway_infMag]
    exact not_lt.mp fun hc => ho ((openMag_lt_infMag h).mpr hc)

/-- Every real lies strictly between two halfway points, or is one. -/
theorem halfway_cases (R : ℝ) :
    (∃ m, m ≤ infMag ∧ (m < infMag → R < halfway m) ∧ (0 < m → halfway (m - 1) < R)) ∨ ∃ m, m < infMag ∧ R = halfway m := by
  by_contra hc
  push Not at hc
  obtain ⟨h1, h2⟩ := hc
  have step : ∀ m, m ≤ infMag → (0 < m → halfway (m - 1) < R) := by
    intro m
    induction m with
    | zero => intro _ h0; exact absurd h0 (lt_irrefl _)
    | succ m ih =>
      intro hm _
      rw [Nat.add_sub_cancel]
      by_contra hc
      rcases lt_or_eq_of_le (not_lt.mp hc) with hlt | heq
      · obtain ⟨h3, h4⟩ := h1 m (by omega) fun _ => hlt
        exact absurd (ih (by omega) h3) (not_lt.mpr h4)
      · exact h2 m (by omega) heq
  obtain ⟨h3, h4⟩ := h1 infMag (le_refl _) fun hc => absurd hc (lt_irrefl _)
  exact absurd (step infMag (le_refl _) h3) (not_lt.mpr h4)

/-- Strictly between two halfway points there is one magnitude to round to. -/
theorem MagRounds.eq_of_between {R : ℝ} {m n : Nat} (h : MagRounds R n) (hm : m ≤ infMag) (h1 : m < infMag → R < halfway m)
    (h2 : 0 < m → halfway (m - 1) < R) : n = m := by
  rcases lt_trichotomy n m with hlt | heq | hgt
  · have a := (h.above (by omega)).1
    have b := h2 (by omega)
    have c := halfway_strictMono.monotone (show n ≤ m - 1 by omega)
    linarith
  · exact heq
  · have hle := h.le
    have a := (h.below (by omega)).1
    have b := h1 (by omega)
    have c := halfway_strictMono.monotone (show m ≤ n - 1 by omega)
    linarith

/-- Around a halfway point there are two magnitudes to round to. -/
theorem MagRounds.near {R : ℝ} {m n : Nat} (h : MagRounds R n) (hm : m < infMag) (h1 : m + 1 < infMag → R < halfway (m + 1))
    (h2 : 0 < m → halfway (m - 1) < R) : n = m ∨ n = m + 1 := by
  have hle := h.le
  by_contra hc
  push Not at hc
  rcases lt_or_gt_of_ne hc.1 with hlt | hgt
  · have a := (h.above (by omega)).1
    have b := h2 (by omega)
    have c := halfway_strictMono.monotone (show n ≤ m - 1 by omega)
    linarith
  · have a := (h.below (by omega)).1
    have b := h1 (by omega)
    have c := halfway_strictMono.monotone (show m + 1 ≤ n - 1 by omega)
    linarith

/-- A halfway point goes to the even one of its neighbours. -/
theorem MagRounds.eq_even {m n : Nat} (h : MagRounds (halfway m) n) (hm : m < infMag) : n = m + m % 2 := by
  have hn : n = m ∨ n = m + 1 := h.near hm (fun _ => halfway_strictMono (Nat.lt_succ_self m))
    fun _ => halfway_strictMono (by omega)
  rcases hn with rfl | rfl
  · have := (h.above hm).2 rfl; omega
  · have := (h.below (by omega)).2 rfl; omega

/-- The rounding of a halfway point with a sign in front. -/
theorem isRounding_halfway (neg : Bool) {m : Nat} (hm : m < infMag) :
    IsRounding (if neg then -halfway m else halfway m) (pack neg (m + m % 2)) := by
  have h0 : magUnits m + magUnits (m + 1) ≠ 0 := by
    have h := magUnits_strictMono (Nat.lt_succ_self m); simp only [Nat.succ_eq_add_one] at h; omega
  have hr := isRounding_pack (num := magUnits m + magUnits (m + 1)) (den := 2) (by norm_num) neg h0
  have he := (magRounds_roundMag (num := magUnits m + magUnits (m + 1)) (den := 2) (by norm_num))
  rw [Nat.cast_ofNat] at hr he
  rw [← he.eq_even hm]
  exact hr

end F32

namespace Ivl

open F32

/-! ### Searching -/

theorem firstAnswer_some {g : Nat → Option Word} {k : Nat} {w : Word} (h : firstAnswer g k = some w) : ∃ j, g j = some w := by
  refine firstAnswer.partial_correctness g (fun _ w => ∃ j, g j = some w) ?_ k w h
  intro f ih k w h
  cases hg : g k with
  | some v => rw [hg] at h; cases h; exact ⟨k, hg⟩
  | none => rw [hg] at h; exact ih _ _ h

theorem firstAnswer_none {g : Nat → Option Word} {k : Nat} (h : firstAnswer g k = none) (j : Nat) : g (k + j) = none := by
  induction j generalizing k with
  | zero =>
    rw [firstAnswer] at h
    cases hg : g k with
    | some v => rw [hg] at h; cases h
    | none => rfl
  | succ j ih =>
    rw [firstAnswer] at h
    cases hg : g k with
    | some v => rw [hg] at h; cases h
    | none =>
      rw [hg] at h
      have := ih h
      rwa [show k + (j + 1) = k + 1 + j by omega]

/-! ### Fine intervals decide -/

/-- The ends of an interval as numbers of units of 2^-149, without their sign. -/
theorem magRounds_magAt (p : Nat) (n : Int) : MagRounds (|(n : ℝ)| / 2 ^ p * 2 ^ 149) (magAt p n) := by
  have h := magRounds_roundMag (num := (n * 2 ^ 149).natAbs) (den := 2 ^ p) (by positivity)
  have e : (((n * 2 ^ 149).natAbs : ℕ) : ℝ) / ((2 ^ p : ℕ) : ℝ) = |(n : ℝ)| / 2 ^ p * 2 ^ 149 := by
    rw [Nat.cast_natAbs, Int.cast_abs, Int.cast_mul, Int.cast_pow, Int.cast_ofNat, Nat.cast_pow, Nat.cast_ofNat, abs_mul,
      abs_of_pos (two_pow_pos 149)]
    ring
  rw [e] at h
  exact h

theorem roundReal_eq (p : Nat) {n : Int} (h : n ≠ 0) :
    roundReal (n * 2 ^ 149) (2 ^ p) = pack (decide (n < 0)) (magAt p n) := by
  have hz : n * 2 ^ 149 ≠ 0 := mul_ne_zero h (by positivity)
  rw [roundReal, if_neg hz, magAt]
  congr 2
  rw [eq_iff_iff]
  constructor
  · intro hn; by_contra hc; push Not at hc
    have : 0 ≤ n * 2 ^ 149 := mul_nonneg hc (by positivity)
    omega
  · intro hn; exact mul_neg_of_neg_of_pos hn (by positivity)

/-- The real that is enclosed: what `roundLimit` needs of its intervals. -/
structure Encloses (f : Nat → Nat → Ivl) (r : ℝ) : Prop where
  contains : ∀ n p, Contains p (f n p) r
  fine : ∀ ε : ℝ, 0 < ε → ∃ n p, (f n p).ok = true ∧ |((f n p).lo : ℝ) / 2 ^ p - r| < ε ∧ |((f n p).hi : ℝ) / 2 ^ p - r| < ε

/-- Both ends of a fine enough interval round to magnitudes that suit reals near |r|, on r's side of 0. -/
theorem Encloses.ends {f : Nat → Nat → Ivl} {r : ℝ} (h : Encloses f r) (hr : r ≠ 0) {a b : ℝ} (ha : a < |r| * 2 ^ 149)
    (hb : |r| * 2 ^ 149 < b) :
    ∃ n p, (f n p).ok = true ∧ (0 < (f n p).lo ∨ (f n p).hi < 0) ∧
      (∃ x, a < x ∧ x < b ∧ MagRounds x (magAt p (f n p).lo)) ∧ ∃ x, a < x ∧ x < b ∧ MagRounds x (magAt p (f n p).hi) := by
  have hK := two_pow_pos 149
  have hra := abs_pos.mpr hr
  obtain ⟨n, p, hok, hlo, hhi⟩ := h.fine (min |r| (min ((|r| * 2 ^ 149 - a) / 2 ^ 149) ((b - |r| * 2 ^ 149) / 2 ^ 149)))
    (lt_min hra (lt_min (div_pos (by linarith) hK) (div_pos (by linarith) hK)))
  have hp := two_pow_pos p
  -- an end is near |r|
  have near : ∀ n' : Int, |(n' : ℝ) / 2 ^ p - r| < min |r| (min ((|r| * 2 ^ 149 - a) / 2 ^ 149) ((b - |r| * 2 ^ 149) / 2 ^ 149)) →
      (0 < r → 0 < n') ∧ (r < 0 → n' < 0) ∧ a < |(n' : ℝ)| / 2 ^ p * 2 ^ 149 ∧ |(n' : ℝ)| / 2 ^ p * 2 ^ 149 < b := by
    intro n' hn
    rw [lt_min_iff, lt_min_iff, lt_div_iff₀ hK, lt_div_iff₀ hK] at hn
    obtain ⟨h1, h2, h3⟩ := hn
    have e : |(n' : ℝ)| / 2 ^ p = |(n' : ℝ) / 2 ^ p| := by rw [abs_div, abs_of_pos hp]
    have h4 := abs_sub_abs_le_abs_sub ((n' : ℝ) / 2 ^ p) r
    have h5 := abs_sub_abs_le_abs_sub r ((n' : ℝ) / 2 ^ p)
    rw [abs_sub_comm] at h5
    refine ⟨fun h0 => ?_, fun h0 => ?_, ?_, ?_⟩
    · rw [abs_of_pos h0, abs_lt] at h1
      have : 0 < (n' : ℝ) / 2 ^ p := by linarith
      have : 0 < (n' : ℝ) := by have := mul_pos this hp; rwa [div_mul_cancel₀ _ hp.ne'] at this
      exact_mod_cast this
    · rw [abs_of_neg h0, abs_lt] at h1
      have : (n' : ℝ) / 2 ^ p < 0 := by linarith
      have : (n' : ℝ) < 0 := by have := mul_neg_of_neg_of_pos this hp; rwa [div_mul_cancel₀ _ hp.ne'] at this
      exact_mod_cast this
    · rw [e]; nlinarith
    · rw [e]; nlinarith
  obtain ⟨l1, l2, l3, l4⟩ := near _ hlo
  obtain ⟨u1, u2, u3, u4⟩ := near _ hhi
  refine ⟨n, p, hok, ?_, ⟨_, l3, l4, magRounds_magAt p _⟩, _, u3, u4, magRounds_magAt p _⟩
  rcases lt_or_gt_of_ne hr with h0 | h0
  · exact .inr (u2 h0)
  · exact .inl (l1 h0)

theorem round32_of_mag_eq {p : Nat} {x : Ivl} (hok : x.ok = true) (hle : x.lo ≤ x.hi) (hs : 0 < x.lo ∨ x.hi < 0)
    (h : magAt p x.lo = magAt p x.hi) : round32 p x ≠ none := by
  have h1 : x.lo ≠ 0 := by omega
  have h2 : x.hi ≠ 0 := by omega
  have h3 : decide (x.lo < 0) = decide (x.hi < 0) := by rw [decide_eq_decide]; omega
  rw [round32, if_pos hok, if_neg (by omega), roundReal_eq p h1, roundReal_eq p h2, h, h3, if_pos ⟨hs, rfl⟩]
  simp

theorem Contains.lo_le_hi {p : Nat} {x : Ivl} {r : ℝ} (h : Contains p x r) (hok : x.ok = true) : x.lo ≤ x.hi := by
  obtain ⟨a, b⟩ := h hok
  exact_mod_cast a.trans b

/-- Where no interval decides, a real that is not 0 is halfway between two data. -/
theorem Encloses.halfway {f : Nat → Nat → Ivl} {r : ℝ} (h : Encloses f r) (hr : r ≠ 0) (hn : ∀ n p, round32 p (f n p) = none) :
    ∃ m, m < infMag ∧ |r| * 2 ^ 149 = F32.halfway m := by
  have hK := two_pow_pos 149
  rcases halfway_cases (|r| * 2 ^ 149) with ⟨m, hm, h1, h2⟩ | hh
  · exfalso
    obtain ⟨n, p, hok, hs, ⟨x, xa, xb, hx⟩, y, ya, yb, hy⟩ := h.ends hr
      (a := if 0 < m then F32.halfway (m - 1) else |r| * 2 ^ 149 - 1) (b := if m < infMag then F32.halfway m else |r| * 2 ^ 149 + 1)
      (by split_ifs with h0; exacts [h2 h0, by linarith]) (by split_ifs with h0; exacts [h1 h0, by linarith])
    have ex := hx.eq_of_between hm (fun h0 => by rwa [if_pos h0] at xb) fun h0 => by rwa [if_pos h0] at xa
    have ey := hy.eq_of_between hm (fun h0 => by rwa [if_pos h0] at yb) fun h0 => by rwa [if_pos h0] at ya
    exact round32_of_mag_eq hok ((h.contains n p).lo_le_hi hok) hs (ex.trans ey.symm) (hn n p)
  · exact hh

/-- Then some interval finds the two data. -/
theorem Encloses.tie_found {f : Nat → Nat → Ivl} {r : ℝ} (h : Encloses f r) (hr : r ≠ 0) (hn : ∀ n p, round32 p (f n p) = none)
    {m : Nat} (hm : m < infMag) (hh : |r| * 2 ^ 149 = F32.halfway m) : ∃ n p, roundTie p (f n p) ≠ none := by
  obtain ⟨n, p, hok, hs, ⟨x, xa, xb, hx⟩, y, ya, yb, hy⟩ := h.ends hr
    (a := if 0 < m then F32.halfway (m - 1) else |r| * 2 ^ 149 - 1) (b := F32.halfway (m + 1))
    (by
      split_ifs with h0
      · rw [hh]; exact halfway_strictMono (by omega)
      · linarith)
    (by rw [hh]; exact halfway_strictMono (Nat.lt_succ_self m))
  have ex := hx.near hm (fun _ => xb) fun h0 => by rwa [if_pos h0] at xa
  have ey := hy.near hm (fun _ => yb) fun h0 => by rwa [if_pos h0] at ya
  have hne : magAt p (f n p).lo ≠ magAt p (f n p).hi := fun he =>
    round32_of_mag_eq hok ((h.contains n p).lo_le_hi hok) hs he (hn n p)
  refine ⟨n, p, ?_⟩
  rw [roundTie, if_pos ⟨hok, hs, by omega⟩]
  simp

/-- What an interval around a halfway point answers as a tie is right. -/
theorem roundTie_eq {p : Nat} {x : Ivl} {r : ℝ} {w : Word} (hx : Contains p x r) (h : roundTie p x = some w) {m : Nat}
    (hm : m < infMag) (hh : |r| * 2 ^ 149 = F32.halfway m) : r ≠ 0 ∧ w = pack (decide (r < 0)) (m + m % 2) := by
  unfold roundTie at h
  split_ifs at h with hc
  obtain ⟨hok, hs, hadj⟩ := hc
  obtain ⟨a, b⟩ := hx hok
  have hp := two_pow_pos p
  have hK := two_pow_pos 149
  have mlo := magRounds_magAt p x.lo
  have mhi := magRounds_magAt p x.hi
  have hlo : |r| ≠ 0 := by intro h0; have := halfway_pos m; rw [h0, zero_mul] at hh; linarith
  have hr : r ≠ 0 := fun h0 => hlo (by rw [h0, abs_zero])
  cases h
  -- the nearer end to 0 rounds to i, the farther to i + 1, and |r| lies between
  have core : ∀ (s t : ℝ) (i j : Nat), s ≤ F32.halfway m → F32.halfway m ≤ t → MagRounds s i → MagRounds t j →
      (i = j + 1 ∨ j = i + 1) → min i j + min i j % 2 = m + m % 2 := by
    intro s t i j h1 h2 hi hj hij
    have li := hi.le
    have lj := hj.le
    have h3 : i ≤ m + 1 := by
      by_contra hc
      have := (hi.below (by omega)).1
      have := halfway_strictMono (show m < i - 1 by omega)
      linarith
    have h4 : m ≤ j := by
      by_contra hc
      have := (hj.above (by omega)).1
      have := halfway_strictMono (show j < m by omega)
      linarith
    have h5 : i = m + 1 → s = F32.halfway m := by
      rintro rfl
      have := (hi.below (by omega)).1
      rw [Nat.add_sub_cancel] at this
      exact le_antisymm h1 this
    have h6 : j = m → t = F32.halfway m := by
      rintro rfl
      exact le_antisymm (hj.above hm).1 h2
    by_cases hi1 : i = m + 1
    · have h7 := (h5 hi1) ▸ hi
      have := h7.eq_even hm
      omega
    · by_cases hj1 : j = m
      · have h7 := (h6 hj1) ▸ hj
        have := h7.eq_even hm
        omega
      · omega
  rcases hs with hs | hs
  · have l0 : (0 : ℝ) < x.lo := by exact_mod_cast hs
    have hr0 : 0 < r := by
      by_contra hc; push Not at hc; nlinarith
    have hi0 : (0 : ℝ) < x.hi := by nlinarith
    have hhi : ¬ x.hi < 0 := by have : 0 < x.hi := by exact_mod_cast hi0
                                omega
    rw [abs_of_pos l0] at mlo
    rw [abs_of_pos hi0] at mhi
    rw [abs_of_pos hr0] at hh
    refine ⟨hr, ?_⟩
    rw [core _ _ _ _ ?_ ?_ mlo mhi hadj]
    · congr 1
      rw [decide_eq_decide]
      exact ⟨fun h => absurd h hhi, fun h => absurd h (not_lt.mpr hr0.le)⟩
    · rw [← hh]; exact mul_le_mul_of_nonneg_right ((div_le_iff₀ hp).mpr a) hK.le
    · rw [← hh]; exact mul_le_mul_of_nonneg_right ((le_div_iff₀ hp).mpr b) hK.le
  · have u0 : (x.hi : ℝ) < 0 := by exact_mod_cast hs
    have hr0 : r < 0 := by
      by_contra hc; push Not at hc; nlinarith
    have l0 : (x.lo : ℝ) < 0 := by nlinarith
    rw [abs_of_neg l0] at mlo
    rw [abs_of_neg u0] at mhi
    rw [abs_of_neg hr0] at hh
    refine ⟨hr, ?_⟩
    rw [min_comm, core _ _ _ _ ?_ ?_ mhi mlo (by omega)]
    · congr 1
      rw [decide_eq_decide]
      exact ⟨fun _ => hr0, fun _ => hs⟩
    · rw [← hh]; refine mul_le_mul_of_nonneg_right ((div_le_iff₀ hp).mpr ?_) hK.le; linarith
    · rw [← hh]; refine mul_le_mul_of_nonneg_right ((le_div_iff₀ hp).mpr ?_) hK.le; linarith

/-- `roundLimit` is round32 of the real enclosed (40_designer.md R123, 00_scope.md R10). -/
theorem Encloses.isRounding {f : Nat → Nat → Ivl} {r : ℝ} (h : Encloses f r) : IsRounding (r * 2 ^ 149) (roundLimit f) := by
  unfold roundLimit
  split
  · rename_i w hw
    obtain ⟨k, hk⟩ := firstAnswer_some hw
    exact isRounding_of_round32 (h.contains _ _) hk
  · rename_i hnone
    have hn : ∀ n p, round32 p (f n p) = none := by
      intro n p
      have := firstAnswer_none hnone (Nat.pair n p)
      simpa using this
    cases ht : firstAnswer (fun k => roundTie k.unpair.2 (f k.unpair.1 k.unpair.2)) 0 with
    | none =>
      have hr : r = 0 := by
        by_contra hr
        obtain ⟨m, hm, hh⟩ := h.halfway hr hn
        obtain ⟨n, p, hnp⟩ := h.tie_found hr hn hm hh
        apply hnp
        have := firstAnswer_none ht (Nat.pair n p)
        simpa using this
      have h0 := isRounding_roundReal 0 (den := 1) (by norm_num)
      rw [hr]
      simpa using h0
    | some w =>
      obtain ⟨k, hk⟩ := firstAnswer_some ht
      have hr : r ≠ 0 := by
        intro h0
        unfold roundTie at hk
        split_ifs at hk with hc
        obtain ⟨a, b⟩ := h.contains k.unpair.1 k.unpair.2 hc.1
        rw [h0, zero_mul] at a b
        rcases hc.2.1 with hs | hs
        · have : (0 : ℝ) < (f k.unpair.1 k.unpair.2).lo := by exact_mod_cast hs
          linarith
        · have : ((f k.unpair.1 k.unpair.2).hi : ℝ) < 0 := by exact_mod_cast hs
          linarith
      obtain ⟨m, hm, hh⟩ := h.halfway hr hn
      have hw := (roundTie_eq (h.contains _ _) hk hm hh).2
      have hround := isRounding_halfway (decide (r < 0)) hm
      rw [← hh] at hround
      rw [Option.getD_some, hw]
      convert hround using 1
      by_cases h0 : r < 0
      · rw [if_pos (decide_eq_true h0), abs_of_neg h0]; ring
      · rw [if_neg (by simpa using h0), abs_of_nonneg (not_lt.mp h0)]

end Ivl

end Sys2Proof.Machine
end

