-- ==== Sys2Proof/Laws/Convergence.lean ====
section
/-! SUPPORT. The intervals of the designer close in on their reals as the precision and the number of terms grow (40_designer.md
R123): one lemma for each operation. -/

namespace Sys2Proof.Machine.Ivl

open Filter Topology

/-- Along l, at the precisions p, the intervals come to say something and both ends tend to limits. -/
structure EndsTend {ι : Type} (l : Filter ι) (p : ι → Nat) (x : ι → Ivl) (a b : ℝ) : Prop where
  ok : ∀ᶠ i in l, (x i).ok = true
  lo : Tendsto (fun i => ((x i).lo : ℝ) / 2 ^ p i) l (𝓝 a)
  hi : Tendsto (fun i => ((x i).hi : ℝ) / 2 ^ p i) l (𝓝 b)

/-- Both ends tend to r. -/
abbrev Tends {ι : Type} (l : Filter ι) (p : ι → Nat) (x : ι → Ivl) (r : ℝ) : Prop := EndsTend l p x r r

/-- The precisions grow beyond every bound. -/
abbrev Fine {ι : Type} (l : Filter ι) (p : ι → Nat) : Prop := Tendsto (fun i => (1 : ℝ) / 2 ^ p i) l (𝓝 0)

section Ops

variable {ι : Type} {l : Filter ι} {p : ι → Nat} {x y : ι → Ivl} {r s : ℝ}

/-- Integers within 1 of numbers that tend to a limit, in the scale of the precision, tend to it too. -/
theorem tendsto_int (hp : Fine l p) {A : ι → ℝ} {B : ι → Int} {v : ℝ} (hA : Tendsto (fun i => A i / 2 ^ p i) l (𝓝 v))
    (h : ∀ᶠ i in l, |(B i : ℝ) - A i| ≤ 1) : Tendsto (fun i => (B i : ℝ) / 2 ^ p i) l (𝓝 v) := by
  have hd : Tendsto (fun i => (B i : ℝ) / 2 ^ p i - A i / 2 ^ p i) l (𝓝 0) := by
    refine squeeze_zero_norm' ?_ hp
    filter_upwards [h] with i hi
    have := two_pow_pos (p i)
    rw [Real.norm_eq_abs, ← sub_div, abs_div, abs_of_pos this]
    exact (div_le_div_iff_of_pos_right this).mpr hi
  simpa using hd.add hA

theorem abs_floorDiv_sub (a : Int) {b : Int} (h : 0 < b) : |((a / b : Int) : ℝ) - (a : ℝ) / b| ≤ 1 := by
  have h1 := floorDiv_le a h
  have h2 : (a : ℝ) / b < ((a / b : Int) : ℝ) + 1 := by
    rw [div_lt_iff₀ (by exact_mod_cast h)]
    have := Int.lt_ediv_add_one_mul_self a h
    exact_mod_cast this
  rw [abs_le]; constructor <;> linarith

theorem abs_ceilDiv_sub (a : Int) {b : Int} (h : 0 < b) : |((ceilDiv a b : Int) : ℝ) - (a : ℝ) / b| ≤ 1 := by
  have := abs_floorDiv_sub (-a) h
  rw [ceilDiv]
  push_cast at this ⊢
  rw [← abs_neg]
  convert this using 2
  ring

theorem tends_point (n : Int) : Tends l p (fun i => point (p i) n) n := by
  have e : ∀ i, ((n * 2 ^ p i : Int) : ℝ) / 2 ^ p i = n := fun i => by
    push_cast
    rw [mul_div_assoc, div_self (two_pow_pos (p i)).ne', mul_one]
  exact ⟨.of_forall fun _ => rfl, by simp only [point, e]; exact tendsto_const_nhds, by simp only [point, e]; exact tendsto_const_nhds⟩

theorem tends_ofRatio (hp : Fine l p) (n : Int) {d : Nat} (hd : 0 < d) : Tends l p (fun i => ofRatio (p i) n d) ((n : ℝ) / d) := by
  have hdi : (0 : Int) < d := by exact_mod_cast hd
  have e : ∀ i, ((n * 2 ^ p i : Int) : ℝ) / ((d : Int) : ℝ) / 2 ^ p i = (n : ℝ) / d := fun i => by
    have := (two_pow_pos (p i)).ne'
    push_cast
    field_simp
  have hA : Tendsto (fun i => ((n * 2 ^ p i : Int) : ℝ) / ((d : Int) : ℝ) / 2 ^ p i) l (𝓝 ((n : ℝ) / d)) := by
    simp only [e]; exact tendsto_const_nhds
  exact ⟨.of_forall fun _ => decide_eq_true hd, tendsto_int hp hA (.of_forall fun i => abs_floorDiv_sub _ hdi),
    tendsto_int hp hA (.of_forall fun i => abs_ceilDiv_sub _ hdi)⟩

theorem Tends.add (hx : Tends l p x r) (hy : Tends l p y s) : Tends l p (fun i => add (x i) (y i)) (r + s) := by
  refine ⟨?_, ?_, ?_⟩
  · filter_upwards [hx.ok, hy.ok] with i h1 h2
    simp [Ivl.add, h1, h2]
  · refine (hx.lo.add hy.lo).congr fun i => ?_
    simp only [Ivl.add]; push_cast; rw [add_div]
  · refine (hx.hi.add hy.hi).congr fun i => ?_
    simp only [Ivl.add]; push_cast; rw [add_div]

theorem Tends.neg (hx : Tends l p x r) : Tends l p (fun i => neg (x i)) (-r) := by
  refine ⟨hx.ok, ?_, ?_⟩
  · refine hx.hi.neg.congr fun i => ?_
    simp only [Ivl.neg]; push_cast; rw [neg_div]
  · refine hx.lo.neg.congr fun i => ?_
    simp only [Ivl.neg]; push_cast; rw [neg_div]

theorem Tends.sub (hx : Tends l p x r) (hy : Tends l p y s) : Tends l p (fun i => sub (x i) (y i)) (r - s) := by
  rw [sub_eq_add_neg]; exact hx.add hy.neg

theorem Tends.mul (hp : Fine l p) (hx : Tends l p x r) (hy : Tends l p y s) : Tends l p (fun i => mul (p i) (x i) (y i)) (r * s) := by
  have hpos : ∀ i, (0 : Int) < 2 ^ p i := fun i => by positivity
  have prod : ∀ {f g : ι → Int}, Tendsto (fun i => (f i : ℝ) / 2 ^ p i) l (𝓝 r) → Tendsto (fun i => (g i : ℝ) / 2 ^ p i) l (𝓝 s) →
      Tendsto (fun i => ((f i * g i : Int) : ℝ) / 2 ^ p i / 2 ^ p i) l (𝓝 (r * s)) := by
    intro f g hf hg
    refine (hf.mul hg).congr fun i => ?_
    push_cast
    field_simp
  have h1 := prod hx.lo hy.lo
  have h2 := prod hx.lo hy.hi
  have h3 := prod hx.hi hy.lo
  have h4 := prod hx.hi hy.hi
  have scale_min : ∀ (a b c : ℝ) , 0 < c → min (a / c / c) (b / c / c) = min a b / c / c := fun a b c hc => by
    rw [← min_div_div_right hc.le, ← min_div_div_right hc.le]
  have scale_max : ∀ (a b c : ℝ) , 0 < c → max (a / c / c) (b / c / c) = max a b / c / c := fun a b c hc => by
    rw [← max_div_div_right hc.le, ← max_div_div_right hc.le]
  refine ⟨?_, ?_, ?_⟩
  · filter_upwards [hx.ok, hy.ok] with i h1 h2
    simp [Ivl.mul, h1, h2]
  · refine tendsto_int (A := fun i => ((least ((x i).lo * (y i).lo) ((x i).lo * (y i).hi) ((x i).hi * (y i).lo)
      ((x i).hi * (y i).hi) : Int) : ℝ) / ((2 ^ p i : Int) : ℝ)) hp ?_ (.of_forall fun i => abs_floorDiv_sub _ (hpos i))
    have := (h1.min h2).min (h3.min h4)
    simp only [min_self] at this
    refine this.congr fun i => ?_
    have hc := two_pow_pos (p i)
    rw [scale_min _ _ _ hc, scale_min _ _ _ hc, scale_min _ _ _ hc, least]
    push_cast
    rfl
  · refine tendsto_int (A := fun i => ((greatest ((x i).lo * (y i).lo) ((x i).lo * (y i).hi) ((x i).hi * (y i).lo)
      ((x i).hi * (y i).hi) : Int) : ℝ) / ((2 ^ p i : Int) : ℝ)) hp ?_ (.of_forall fun i => abs_ceilDiv_sub _ (hpos i))
    have := (h1.max h2).max (h3.max h4)
    simp only [max_self] at this
    refine this.congr fun i => ?_
    have hc := two_pow_pos (p i)
    rw [scale_max _ _ _ hc, scale_max _ _ _ hc, scale_max _ _ _ hc, greatest]
    push_cast
    rfl

/-- An end that tends to a positive real becomes positive. -/
theorem eventually_pos {f : ι → Int} {v : ℝ} (hv : 0 < v) (h : Tendsto (fun i => (f i : ℝ) / 2 ^ p i) l (𝓝 v)) :
    ∀ᶠ i in l, 0 < f i := by
  filter_upwards [h.eventually_const_lt hv] with i hi
  have hp := two_pow_pos (p i)
  have : (0 : ℝ) < f i := by have := mul_pos hi hp; rwa [div_mul_cancel₀ _ hp.ne'] at this
  exact_mod_cast this

theorem Tends.div (hp : Fine l p) (hx : Tends l p x r) (hy : Tends l p y s) (hs : 0 < s) :
    Tends l p (fun i => div (p i) (x i) (y i)) (r / s) := by
  have plo := eventually_pos hs hy.lo
  have phi := eventually_pos hs hy.hi
  have quot : ∀ {f g : ι → Int}, Tendsto (fun i => (f i : ℝ) / 2 ^ p i) l (𝓝 r) → Tendsto (fun i => (g i : ℝ) / 2 ^ p i) l (𝓝 s) →
      Tendsto (fun i => ((f i * 2 ^ p i : Int) : ℝ) / (g i : ℝ) / 2 ^ p i) l (𝓝 (r / s)) := by
    intro f g hf hg
    refine (hf.div hg hs.ne').congr fun i => ?_
    push_cast
    have := (two_pow_pos (p i)).ne'
    simp only [Pi.div_apply]
    rw [div_div_div_cancel_right₀ this]
    field_simp
  refine ⟨?_, ?_, ?_⟩
  · filter_upwards [hx.ok, hy.ok, plo] with i h1 h2 h3
    simp [Ivl.div, h1, h2, h3]
  · have a := tendsto_int hp (quot hx.lo hy.lo) (by filter_upwards [plo] with i hi using abs_floorDiv_sub _ hi)
    have b := tendsto_int hp (quot hx.lo hy.hi) (by filter_upwards [phi] with i hi using abs_floorDiv_sub _ hi)
    have := a.min b
    simp only [min_self] at this
    refine this.congr fun i => ?_
    rw [min_div_div_right (two_pow_pos (p i)).le, Ivl.div]
    push_cast
    rfl
  · have a := tendsto_int hp (quot hx.hi hy.lo) (by filter_upwards [plo] with i hi using abs_ceilDiv_sub _ hi)
    have b := tendsto_int hp (quot hx.hi hy.hi) (by filter_upwards [phi] with i hi using abs_ceilDiv_sub _ hi)
    have := a.max b
    simp only [max_self] at this
    refine this.congr fun i => ?_
    rw [max_div_div_right (two_pow_pos (p i)).le, Ivl.div]
    push_cast
    rfl

theorem Tends.divNat (hp : Fine l p) (hx : Tends l p x r) {n : Nat} (hn : 0 < n) : Tends l p (fun i => divNat (x i) n) (r / n) := by
  have hni : (0 : Int) < n := by exact_mod_cast hn
  have quot : ∀ {f : ι → Int}, Tendsto (fun i => (f i : ℝ) / 2 ^ p i) l (𝓝 r) →
      Tendsto (fun i => (f i : ℝ) / ((n : Int) : ℝ) / 2 ^ p i) l (𝓝 (r / n)) := by
    intro f hf
    refine (hf.div_const (n : ℝ)).congr fun i => ?_
    push_cast
    rw [div_right_comm]
  refine ⟨?_, tendsto_int hp (quot hx.lo) (.of_forall fun i => abs_floorDiv_sub _ hni),
    tendsto_int hp (quot hx.hi) (.of_forall fun i => abs_ceilDiv_sub _ hni)⟩
  filter_upwards [hx.ok] with i h
  simp [Ivl.divNat, h, hn]

theorem tendsto_absBound (hx : Tends l p x r) : Tendsto (fun i => (absBound (x i) : ℝ) / 2 ^ p i) l (𝓝 |r|) := by
  have := hx.lo.neg.max hx.hi
  rw [max_comm, ← abs_eq_max_neg] at this
  refine this.congr fun i => ?_
  rw [← neg_div, max_div_div_right (two_pow_pos (p i)).le, absBound]
  push_cast
  rfl

theorem Tends.widen (hx : Tends l p x r) (hy : Tends l p y s) :
    EndsTend l p (fun i => widen (x i) (y i)) (r - 2 * |s|) (r + 2 * |s|) := by
  have hb := (tendsto_absBound hy).const_mul 2
  refine ⟨?_, ?_, ?_⟩
  · filter_upwards [hx.ok, hy.ok] with i h1 h2
    simp [Ivl.widen, h1, h2]
  · refine (hx.lo.sub hb).congr fun i => ?_
    simp only [Ivl.widen]; push_cast; ring
  · refine (hx.hi.add hb).congr fun i => ?_
    simp only [Ivl.widen]; push_cast; ring

theorem Tends.within (hx : Tends l p x r) {n : Nat} (h : |r| < (n + 1) / 2) : Tends l p (fun i => within (p i) n (x i)) r := by
  refine ⟨?_, hx.lo, hx.hi⟩
  filter_upwards [hx.ok, (tendsto_absBound hx).eventually_lt_const h] with i h1 h2
  have hp := two_pow_pos (p i)
  rw [div_lt_div_iff₀ hp two_pos] at h2
  have h3 : (((2 * absBound (x i) : Int)) : ℝ) ≤ (((n + 1) * 2 ^ p i : Int) : ℝ) := by push_cast; linarith
  simp only [Ivl.within, h1, Bool.true_and, decide_eq_true_eq]
  exact_mod_cast h3

/-- The integer square root of a number that grows with the precision. -/
theorem tendsto_sqrt (hp : Fine l p) {f : ι → Int} {B : ι → Nat} (hf : Tendsto (fun i => (f i : ℝ) / 2 ^ p i) l (𝓝 r))
    (hpos : ∀ᶠ i in l, 0 < f i) (h : ∀ i, |(B i : ℝ) - Real.sqrt (((f i).toNat * 2 ^ p i : ℕ) : ℝ)| ≤ 1) :
    Tendsto (fun i => (((B i : Nat) : Int) : ℝ) / 2 ^ p i) l (𝓝 (Real.sqrt r)) := by
  refine tendsto_int (A := fun i => Real.sqrt (((f i).toNat * 2 ^ p i : ℕ) : ℝ)) hp ?_ (.of_forall fun i => by simpa using h i)
  refine ((Real.continuous_sqrt.tendsto r).comp hf).congr' ?_
  filter_upwards [hpos] with i hi
  have hpi := two_pow_pos (p i)
  have e : (((f i).toNat : ℕ) : ℝ) = f i := by exact_mod_cast Int.toNat_of_nonneg hi.le
  have hfi : (0 : ℝ) ≤ f i := by exact_mod_cast hi.le
  simp only [Function.comp_apply]
  push_cast
  rw [e, eq_div_iff hpi.ne', ← Real.sqrt_sq hpi.le, ← Real.sqrt_mul (div_nonneg hfi (by positivity)), Real.sqrt_sq hpi.le]
  congr 1
  field_simp

theorem abs_natSqrt_sub (n : Nat) : |(Nat.sqrt n : ℝ) - Real.sqrt (n : ℝ)| ≤ 1 := by
  have h1 := Real.nat_sqrt_le_real_sqrt (a := n)
  have h2 := Real.real_sqrt_le_nat_sqrt_succ (a := n)
  rw [abs_le]; constructor <;> linarith

theorem abs_sqrtCeil_sub (n : Nat) : |(sqrtCeil n (Nat.sqrt n) : ℝ) - Real.sqrt (n : ℝ)| ≤ 1 := by
  have h1 := Real.nat_sqrt_le_real_sqrt (a := n)
  have h2 := Real.real_sqrt_le_nat_sqrt_succ (a := n)
  rw [sqrtCeil]
  split_ifs with h
  · exact abs_natSqrt_sub n
  · push_cast at h2 ⊢
    rw [abs_le]; constructor <;> linarith

theorem le_sqrtCeil_sq (n : Nat) : n ≤ sqrtCeil n (Nat.sqrt n) * sqrtCeil n (Nat.sqrt n) := by
  rw [sqrtCeil]
  split_ifs with h
  · exact h.ge
  · exact (Nat.lt_succ_sqrt n).le

theorem Tends.sqrt (hp : Fine l p) (hx : Tends l p x r) (hr : 0 < r) :
    Tends l p (fun i => sqrt Nat.sqrt (p i) (x i)) (Real.sqrt r) := by
  have plo := eventually_pos hr hx.lo
  refine ⟨?_, tendsto_sqrt hp hx.lo plo fun i => abs_natSqrt_sub _,
    tendsto_sqrt hp hx.hi (eventually_pos hr hx.hi) fun i => abs_sqrtCeil_sub _⟩
  filter_upwards [hx.ok, plo] with i h1 h2
  have h3 : 0 ≤ (x i).lo := h2.le
  simp only [Ivl.sqrt, h1, h3, Nat.sqrt_le, le_sqrtCeil_sq, decide_true, Bool.and_self]

theorem tends_series (hp : Fine l p) (hx : Tends l p x r) (n : Nat) :
    Tends l p (fun i => (series (p i) (x i) n).even) (evenSum r n) ∧ Tends l p (fun i => (series (p i) (x i) n).odd) (oddSum r n) ∧
      Tends l p (fun i => (series (p i) (x i) n).all) (allSum r n) ∧
      Tends l p (fun i => (series (p i) (x i) n).term) (r ^ n / n.factorial) := by
  induction n with
  | zero =>
    have z := tends_point (l := l) (p := p) 0
    have o := tends_point (l := l) (p := p) 1
    simp only [Int.cast_zero, Int.cast_one] at z o
    refine ⟨by simpa [evenSum, series] using z, by simpa [oddSum, series] using z, by simpa [allSum, series] using z, ?_⟩
    simpa [series] using o
  | succ n ih =>
    obtain ⟨he, ho, ha, ht⟩ := ih
    refine ⟨?_, ?_, ?_, ?_⟩
    · rw [evenSum, Finset.sum_range_succ, ← evenSum]
      simp only [series, seriesStep]
      rcases (show n % 4 = 0 ∨ n % 4 = 1 ∨ n % 4 = 2 ∨ n % 4 = 3 by omega) with h | h | h | h <;> simp only [h]
      · simpa using he.add ht
      · simpa using he
      · simpa [sub_eq_add_neg] using he.sub ht
      · simpa using he
    · rw [oddSum, Finset.sum_range_succ, ← oddSum]
      simp only [series, seriesStep]
      rcases (show n % 4 = 0 ∨ n % 4 = 1 ∨ n % 4 = 2 ∨ n % 4 = 3 by omega) with h | h | h | h <;> simp only [h]
      · simpa using ho
      · simpa using ho.add ht
      · simpa using ho
      · simpa [sub_eq_add_neg] using ho.sub ht
    · rw [allSum, Finset.sum_range_succ, ← allSum]
      exact ha.add ht
    · have := (ht.mul hp hx).divNat hp (Nat.succ_pos n)
      have e : r ^ n / n.factorial * r / ((n.succ : ℕ) : ℝ) = r ^ (n + 1) / ((n + 1).factorial : ℝ) := by
        rw [Nat.factorial_succ]
        push_cast
        have : (n.factorial : ℝ) ≠ 0 := by exact_mod_cast n.factorial_ne_zero
        field_simp
        ring
      rw [e] at this
      exact this

end Ops

/-! ### The two constants -/

theorem fine_id : Fine (atTop : Filter Nat) id := by
  have h := tendsto_pow_atTop_nhds_zero_of_lt_one (r := (1 / 2 : ℝ)) (by norm_num) (by norm_num)
  refine h.congr fun i => ?_
  rw [one_div_pow]; rfl

theorem contains_ofRationals {p : Nat} {lo hi : ℚ} {r : ℝ} (h1 : (lo : ℝ) ≤ r) (h2 : r ≤ hi) : Contains p (ofRationals p lo hi) r := by
  intro _
  have hp := two_pow_pos p
  have a : ((⌊lo * 2 ^ p⌋ : Int) : ℚ) ≤ lo * 2 ^ p := Int.floor_le _
  have b : hi * 2 ^ p ≤ ((⌈hi * 2 ^ p⌉ : Int) : ℚ) := Int.le_ceil _
  have a' : ((⌊lo * 2 ^ p⌋ : Int) : ℝ) ≤ lo * 2 ^ p := by exact_mod_cast a
  have b' : (hi : ℝ) * 2 ^ p ≤ ((⌈hi * 2 ^ p⌉ : Int) : ℝ) := by exact_mod_cast b
  exact ⟨a'.trans (mul_le_mul_of_nonneg_right h1 hp.le), (mul_le_mul_of_nonneg_right h2 hp.le).trans b'⟩

theorem tends_ofRationals {lo hi : Nat → ℚ} {r : ℝ} (h1 : Tendsto (fun p => (lo p : ℝ)) atTop (𝓝 r))
    (h2 : Tendsto (fun p => (hi p : ℝ)) atTop (𝓝 r)) : Tends atTop id (fun p => ofRationals p (lo p) (hi p)) r := by
  have e : ∀ (q : ℚ) (p : Nat), (((q * 2 ^ p : ℚ)) : ℝ) / 2 ^ p = q := fun q p => by
    push_cast
    rw [mul_div_assoc, div_self (two_pow_pos p).ne', mul_one]
  refine ⟨.of_forall fun _ => rfl, ?_, ?_⟩
  · refine tendsto_int (A := fun p => ((lo p * 2 ^ p : ℚ) : ℝ)) fine_id (h1.congr fun p => (e _ p).symm) (.of_forall fun p => ?_)
    have a : ((⌊lo p * 2 ^ p⌋ : Int) : ℚ) ≤ lo p * 2 ^ p := Int.floor_le _
    have b := Int.lt_floor_add_one (lo p * 2 ^ p)
    have : |((⌊lo p * 2 ^ p⌋ : Int) : ℚ) - lo p * 2 ^ p| ≤ 1 := by rw [abs_le]; constructor <;> linarith
    simp only [ofRationals]
    exact_mod_cast this
  · refine tendsto_int (A := fun p => ((hi p * 2 ^ p : ℚ) : ℝ)) fine_id (h2.congr fun p => (e _ p).symm) (.of_forall fun p => ?_)
    have a : hi p * 2 ^ p ≤ ((⌈hi p * 2 ^ p⌉ : Int) : ℚ) := Int.le_ceil _
    have b := Int.ceil_lt_add_one (hi p * 2 ^ p)
    have : |((⌈hi p * 2 ^ p⌉ : Int) : ℚ) - hi p * 2 ^ p| ≤ 1 := by rw [abs_le]; constructor <;> linarith
    simp only [ofRationals]
    exact_mod_cast this

/-- The partial sums of an arctan series, and on which side of the limit they lie. -/
theorem arctanSum_spec {q : Nat} (hq : 1 < q) :
    Tendsto (fun n => (arctanSum q n : ℝ)) atTop (𝓝 (Real.arctan (q : ℝ)⁻¹)) ∧
      (∀ k, (arctanSum q (2 * k) : ℝ) ≤ Real.arctan (q : ℝ)⁻¹) ∧ ∀ k, Real.arctan (q : ℝ)⁻¹ ≤ (arctanSum q (2 * k + 1) : ℝ) := by
  have hqR : (1 : ℝ) < q := by exact_mod_cast hq
  have h0 : (0 : ℝ) < (q : ℝ)⁻¹ := inv_pos.mpr (by linarith)
  have h1 : (q : ℝ)⁻¹ < 1 := inv_lt_one_of_one_lt₀ hqR
  have e : ∀ n, (arctanSum q n : ℝ) = ∑ i ∈ Finset.range n, (-1) ^ i * ((q : ℝ)⁻¹ ^ (2 * i + 1) / ((2 * i + 1 : ℕ) : ℝ)) := by
    intro n
    rw [arctanSum]
    push_cast
    simp only [one_div]
  have ht : Tendsto (fun n => ∑ i ∈ Finset.range n, (-1) ^ i * ((q : ℝ)⁻¹ ^ (2 * i + 1) / ((2 * i + 1 : ℕ) : ℝ))) atTop
      (𝓝 (Real.arctan (q : ℝ)⁻¹)) := by
    have := (Real.hasSum_arctan (x := (q : ℝ)⁻¹) (by rw [Real.norm_eq_abs, abs_of_pos h0]; exact h1)).tendsto_sum_nat
    refine this.congr fun n => Finset.sum_congr rfl fun i _ => ?_
    rw [mul_div_assoc]
  have hanti : Antitone fun i : Nat => (q : ℝ)⁻¹ ^ (2 * i + 1) / ((2 * i + 1 : ℕ) : ℝ) := by
    refine antitone_nat_of_succ_le fun i => ?_
    refine div_le_div₀ (by positivity) ?_ (by positivity) (by exact_mod_cast (by omega))
    exact pow_le_pow_of_le_one h0.le h1.le (by omega)
  simp only [e]
  exact ⟨ht, fun k => hanti.alternating_series_le_tendsto ht k, fun k => hanti.tendsto_le_alternating_series ht k⟩

theorem machin : Real.pi = 16 * Real.arctan ((5 : ℕ) : ℝ)⁻¹ - 4 * Real.arctan ((239 : ℕ) : ℝ)⁻¹ := by
  have := Real.four_mul_arctan_inv_5_sub_arctan_inv_239
  push_cast
  linarith

theorem contains_piSeries (p : Nat) : Contains p (piSeries p) Real.pi := by
  obtain ⟨-, a1, a2⟩ := arctanSum_spec (q := 5) (by norm_num)
  obtain ⟨-, b1, b2⟩ := arctanSum_spec (q := 239) (by norm_num)
  have := a1 p
  have := a2 p
  have := b1 p
  have := b2 p
  apply contains_ofRationals <;> rw [machin] <;> push_cast at * <;> linarith

theorem tends_piSeries : Tends atTop id piSeries Real.pi := by
  obtain ⟨a, -, -⟩ := arctanSum_spec (q := 5) (by norm_num)
  obtain ⟨b, -, -⟩ := arctanSum_spec (q := 239) (by norm_num)
  have even : Tendsto (fun p : Nat => 2 * p) atTop atTop := tendsto_atTop_mono (fun p => by simp only [id]; omega) tendsto_id
  have odd : Tendsto (fun p : Nat => 2 * p + 1) atTop atTop := tendsto_atTop_mono (fun p => by simp only [id]; omega) tendsto_id
  rw [machin]
  apply tends_ofRationals
  · refine (((a.comp even).const_mul 16).sub ((b.comp odd).const_mul 4)).congr fun p => ?_
    simp only [Function.comp_apply]; push_cast; rfl
  · refine (((a.comp odd).const_mul 16).sub ((b.comp even).const_mul 4)).congr fun p => ?_
    simp only [Function.comp_apply]; push_cast; rfl

theorem lnTenSum_spec (n : Nat) : |(lnTenSum n : ℝ) - Real.log 10| ≤ (9 / 10) ^ (n + 1) / (1 / 10) := by
  have h := Real.abs_log_sub_add_sum_range_le (x := 9 / 10) (by rw [abs_of_pos] <;> norm_num) n
  have e1 : Real.log (1 - 9 / 10) = -Real.log 10 := by
    rw [← Real.log_inv]; norm_num
  have e2 : (lnTenSum n : ℝ) = ∑ i ∈ Finset.range n, (9 / 10 : ℝ) ^ (i + 1) / (i + 1) := by
    rw [lnTenSum]; push_cast; rfl
  rw [e1, abs_of_pos (show (0 : ℝ) < 9 / 10 by norm_num), show (1 : ℝ) - 9 / 10 = 1 / 10 by norm_num] at h
  rw [e2]
  exact h

theorem contains_lnTenSeries (p : Nat) : Contains p (lnTenSeries p) (Real.log 10) := by
  have := abs_le.mp (lnTenSum_spec (8 * p))
  apply contains_ofRationals <;> push_cast <;> linarith

theorem tends_lnTenSeries : Tends atTop id lnTenSeries (Real.log 10) := by
  have grow : Tendsto (fun p : Nat => 8 * p) atTop atTop := tendsto_atTop_mono (fun p => by simp only [id]; omega) tendsto_id
  have rest : Tendsto (fun n : Nat => (9 / 10 : ℝ) ^ (n + 1) / (1 / 10)) atTop (𝓝 0) := by
    have h := tendsto_pow_atTop_nhds_zero_of_lt_one (r := (9 / 10 : ℝ)) (by norm_num) (by norm_num)
    simpa using (h.comp (tendsto_add_atTop_nat 1)).div_const (1 / 10)
  have sum : Tendsto (fun n => (lnTenSum n : ℝ)) atTop (𝓝 (Real.log 10)) := by
    have : Tendsto (fun n => (lnTenSum n : ℝ) - Real.log 10) atTop (𝓝 0) :=
      squeeze_zero_norm (fun n => by rw [Real.norm_eq_abs]; exact lnTenSum_spec n) rest
    simpa using this.add_const (Real.log 10)
  apply tends_ofRationals
  · have := (sum.comp grow).sub (rest.comp grow)
    rw [sub_zero] at this
    refine this.congr fun p => ?_
    simp only [Function.comp_apply]; push_cast; rfl
  · have := (sum.comp grow).add (rest.comp grow)
    rw [add_zero] at this
    refine this.congr fun p => ?_
    simp only [Function.comp_apply]; push_cast; rfl

/-! ### More terms and more precision

`both` runs through pairs (n, p): first n is taken large, then p. -/

/-- For large n, for large p. -/
def both : Filter (Nat × Nat) := (atTop : Filter Nat).curry atTop

theorem eventually_both {P : Nat × Nat → Prop} : (∀ᶠ i in both, P i) ↔ ∀ᶠ n in atTop, ∀ᶠ p in atTop, P (n, p) := eventually_curry_iff

theorem tendsto_snd_both : Tendsto Prod.snd both (atTop : Filter Nat) := by
  intro s hs
  exact eventually_both.mpr (.of_forall fun _ => hs)

theorem fine_both : Fine both Prod.snd := fine_id.comp tendsto_snd_both

/-- What tends to r with the precision alone does so with both. -/
theorem Tends.both {x : Nat → Ivl} {r : ℝ} (h : Tends atTop id x r) : Tends both Prod.snd (fun i => x i.2) r :=
  ⟨tendsto_snd_both.eventually h.ok, h.lo.comp tendsto_snd_both, h.hi.comp tendsto_snd_both⟩

/-- An iterated limit. -/
theorem tendsto_both {F : Nat → Nat → ℝ} {L : Nat → ℝ} {v : ℝ} (h : ∀ᶠ n in atTop, Tendsto (F n) atTop (𝓝 (L n)))
    (hL : Tendsto L atTop (𝓝 v)) : Tendsto (fun i : Nat × Nat => F i.1 i.2) Ivl.both (𝓝 v) := by
  rw [tendsto_order]
  constructor
  · intro a ha
    refine eventually_both.mpr ?_
    filter_upwards [h, hL.eventually_const_lt ha] with n hn hLn using hn.eventually_const_lt hLn
  · intro a ha
    refine eventually_both.mpr ?_
    filter_upwards [h, hL.eventually_lt_const ha] with n hn hLn using hn.eventually_lt_const hLn

/-- Intervals whose ends have limits for each number n + 1 of terms, and these close in on v. -/
theorem tends_of_terms {X : Nat → Nat → Ivl} {S t : Nat → ℝ} {v : ℝ}
    (h : ∀ᶠ n in atTop, EndsTend atTop id (X n) (S n - 2 * |t n|) (S n + 2 * |t n|)) (hS : ∀ᶠ n in atTop, |v - S n| ≤ 2 * |t n|)
    (ht : Tendsto t atTop (𝓝 0)) : Tends Ivl.both Prod.snd (fun i => X i.1 i.2) v := by
  have h2t : Tendsto (fun n => 2 * |t n|) atTop (𝓝 0) := by simpa using ht.abs.const_mul 2
  have hSv : Tendsto S atTop (𝓝 v) := by
    have : Tendsto (fun n => v - S n) atTop (𝓝 0) :=
      squeeze_zero_norm' (by filter_upwards [hS] with n hn; rwa [Real.norm_eq_abs]) h2t
    simpa using (tendsto_const_nhds (x := v)).sub this
  refine ⟨eventually_both.mpr (h.mono fun n hn => hn.ok), ?_, ?_⟩
  · exact tendsto_both (h.mono fun n hn => hn.lo) (by simpa using hSv.sub h2t)
  · exact tendsto_both (h.mono fun n hn => hn.hi) (by simpa using hSv.add h2t)

theorem tendsto_term (r : ℝ) : Tendsto (fun n : Nat => r ^ (n + 1) / (n + 1).factorial) atTop (𝓝 0) :=
  (FloorSemiring.tendsto_pow_div_factorial_atTop r).comp (tendsto_add_atTop_nat 1)

/-- Enough terms for |r|. -/
theorem eventually_terms (r : ℝ) : ∀ᶠ n : Nat in atTop, |r| < ((n + 1 : ℕ) + 1) / 2 := by
  obtain ⟨N, hN⟩ := exists_nat_gt (2 * |r|)
  filter_upwards [eventually_ge_atTop N] with n hn
  have : (N : ℝ) ≤ n := by exact_mod_cast hn
  push_cast
  linarith

theorem Tends.cos {x : Nat → Ivl} {r : ℝ} (hx : Tends atTop id x r) :
    Tends Ivl.both Prod.snd (fun i => Ivl.cos (i.1 + 1) i.2 (x i.2)) (Real.cos r) := by
  refine tends_of_terms (X := fun n p => Ivl.cos (n + 1) p (x p)) (S := fun n => evenSum r (n + 1)) ?_ ?_ (tendsto_term r)
  · filter_upwards [eventually_terms r] with n hn
    obtain ⟨he, -, -, ht⟩ := tends_series fine_id (hx.within (n := n + 1) hn) (n + 1)
    exact he.widen ht
  · filter_upwards [eventually_terms r] with n hn using (trig_remainder hn.le).1

theorem Tends.sin {x : Nat → Ivl} {r : ℝ} (hx : Tends atTop id x r) :
    Tends Ivl.both Prod.snd (fun i => Ivl.sin (i.1 + 1) i.2 (x i.2)) (Real.sin r) := by
  refine tends_of_terms (X := fun n p => Ivl.sin (n + 1) p (x p)) (S := fun n => oddSum r (n + 1)) ?_ ?_ (tendsto_term r)
  · filter_upwards [eventually_terms r] with n hn
    obtain ⟨-, ho, -, ht⟩ := tends_series fine_id (hx.within (n := n + 1) hn) (n + 1)
    exact ho.widen ht
  · filter_upwards [eventually_terms r] with n hn using (trig_remainder hn.le).2

theorem Tends.exp {x : Nat → Ivl} {r : ℝ} (hx : Tends atTop id x r) :
    Tends Ivl.both Prod.snd (fun i => Ivl.exp (i.1 + 1) i.2 (x i.2)) (Real.exp r) := by
  refine tends_of_terms (X := fun n p => Ivl.exp (n + 1) p (x p)) (S := fun n => allSum r (n + 1)) ?_ ?_ (tendsto_term r)
  · filter_upwards [eventually_terms r] with n hn
    obtain ⟨-, -, ha, ht⟩ := tends_series fine_id (hx.within (n := n + 1) hn) (n + 1)
    exact ha.widen ht
  · filter_upwards [eventually_terms r] with n hn using exp_remainder hn.le

/-- Intervals that contain r and close in on it are what `roundLimit` needs. -/
theorem Tends.encloses {f : Nat → Nat → Ivl} {r : ℝ} (h : Tends Ivl.both Prod.snd (fun i => f i.1 i.2) r)
    (hc : ∀ n p, Contains p (f n p) r) : Encloses f r := by
  refine ⟨hc, fun ε hε => ?_⟩
  have h1 := (tendsto_sub_nhds_zero_iff.mpr h.lo).abs
  have h2 := (tendsto_sub_nhds_zero_iff.mpr h.hi).abs
  rw [abs_zero] at h1 h2
  have hall := (h.ok.and (h1.eventually_lt_const hε)).and (h2.eventually_lt_const hε)
  obtain ⟨n, hn⟩ := (eventually_both.mp hall).exists
  obtain ⟨p, hp⟩ := hn.exists
  exact ⟨n, p, hp.1.1, hp.1.2, hp.2⟩

end Sys2Proof.Machine.Ivl
end

