-- ==== Sys2Proof/Laws/Datapath.lean ====
section
/-! SUPPORT. What one stage's turn, a block and a chain leave alone. -/

namespace Sys2Proof.Machine

variable (m : DenormalMode)

/-! ### One stage -/

@[simp] theorem stageStep_coeffs (draw : Nat → BitVec 23) (st : Stage) (x : Word) : (stageStep m draw st x).1.coeffs = st.coeffs := rfl

@[simp] theorem stageStep_byp (draw : Nat → BitVec 23) (st : Stage) (x : Word) : (stageStep m draw st x).1.byp = st.byp := rfl

theorem stageTurn_keeps (draw : Nat → BitVec 23) (st : Stage) (x : Word) :
    (stageTurn m draw st x).1.coeffs = st.coeffs ∧ (stageTurn m draw st x).1.byp = st.byp := by
  unfold stageTurn; split <;> exact ⟨rfl, rfl⟩

theorem runStage_keeps (draw : Nat → Nat → BitVec 23) (st : Stage) (i : Nat) (xs : List Word) :
    (runStage m draw st i xs).1.coeffs = st.coeffs ∧ (runStage m draw st i xs).1.byp = st.byp ∧
      (runStage m draw st i xs).2.length = xs.length := by
  induction xs generalizing st i with
  | nil => exact ⟨rfl, rfl, rfl⟩
  | cons x xs ih => simp [runStage, ih]

theorem blockTurn_keeps (draw : Nat → Nat → BitVec 23) (st : Stage) (xs : List Word) :
    (blockTurn m draw st xs).1.coeffs = st.coeffs ∧ (blockTurn m draw st xs).1.byp = st.byp ∧
      (blockTurn m draw st xs).2.length = xs.length := by
  unfold blockTurn; split
  · exact ⟨rfl, rfl, rfl⟩
  · exact runStage_keeps m draw st 0 xs

theorem blockTurn_of_bypassed (draw : Nat → Nat → BitVec 23) {st : Stage} (xs : List Word) (h : st.byp = true) :
    blockTurn m draw st xs = (st, xs) := by simp [blockTurn, h]

/-! ### One chain -/

/-- A block changes no coefficient and no flag, keeps the length, and leaves the bypassed slots alone. -/
theorem runSlots_keeps (draw : Nat → Nat → Nat → BitVec 23) (js : List (Fin 9)) (ch : Chain) (xs : List Word) :
    (∀ j, ((runSlots m draw js ch xs).1.get j).coeffs = (ch.get j).coeffs ∧
      ((runSlots m draw js ch xs).1.get j).byp = (ch.get j).byp ∧
      ((ch.get j).byp = true → (runSlots m draw js ch xs).1.get j = ch.get j)) ∧
    (runSlots m draw js ch xs).2.length = xs.length := by
  induction js generalizing ch xs with
  | nil => exact ⟨fun j => ⟨rfl, rfl, fun _ => rfl⟩, rfl⟩
  | cons k js ih =>
    obtain ⟨h1, h2⟩ := ih (ch.set k (blockTurn m (draw k.val) (ch.get k) xs).1) (blockTurn m (draw k.val) (ch.get k) xs).2
    have hb := blockTurn_keeps m (draw k.val) (ch.get k) xs
    refine ⟨fun j => ?_, by rw [runSlots, h2, hb.2.2]⟩
    obtain ⟨a, b, c⟩ := h1 j
    rw [runSlots]
    by_cases hj : j = k
    · subst hj
      rw [Chain.get_set_of_byp _ _ hb.2.1] at a b c
      refine ⟨a.trans hb.1, b.trans hb.2.1, fun h => ?_⟩
      rw [c (hb.2.1.trans h), blockTurn_of_bypassed m _ xs h]
    · rw [Chain.get_set_of_ne _ _ hj] at a b c
      exact ⟨a, b, c⟩

theorem chainProcess_keeps (draw : Nat → Nat → Nat → BitVec 23) (ch : Chain) (xs : List Word) :
    (∀ j, ((chainProcess m draw ch xs).1.get j).coeffs = (ch.get j).coeffs ∧
      ((chainProcess m draw ch xs).1.get j).byp = (ch.get j).byp ∧
      ((ch.get j).byp = true → (chainProcess m draw ch xs).1.get j = ch.get j)) ∧
    (chainProcess m draw ch xs).2.length = xs.length := runSlots_keeps m draw _ ch xs

theorem chainProcess_nil (draw : Nat → Nat → Nat → BitVec 23) (ch : Chain) : chainProcess m draw ch [] = (ch, []) := by
  have h : ∀ js, runSlots m draw js ch [] = (ch, []) := by
    intro js
    induction js with
    | nil => rfl
    | cons j js ih =>
      have hb : blockTurn m (draw j.val) (ch.get j) [] = (ch.get j, []) := by unfold blockTurn; split <;> rfl
      have hs : ch.set j (ch.get j) = ch := Chain.ext_get fun k => by
        by_cases hk : k = j
        · subst hk; exact Chain.get_set_of_byp _ _ rfl
        · exact Chain.get_set_of_ne _ _ hk
      rw [runSlots, hb, hs, ih]
  exact h _

end Sys2Proof.Machine
end

