-- ==== Sys2Proof/Laws/Design.lean ====
section
/-! SUPPORT. The designer's intervals contain the exact reals of 40_designer.md R124 to R128 and close in on them, so an exact design
is the rounding of these reals (R123). -/

namespace Sys2Proof.Machine

/-- The real changes its name. -/
theorem Ivl.Contains.cast {p : Nat} {x : Ivl} {r s : ℝ} (h : Ivl.Contains p x r) (e : r = s) : Ivl.Contains p x s := e ▸ h

theorem Ivl.Tends.cast {ι : Type} {l : Filter ι} {p : ι → Nat} {x : ι → Ivl} {r s : ℝ} (h : Ivl.Tends l p x r) (e : r = s) :
    Ivl.Tends l p x s := e ▸ h

/-- Means that enclose what they stand for. -/
structure Ivl.Means.Sound (p : Nat) (m : Ivl.Means) : Prop where
  pi : Ivl.Contains p m.pi Real.pi
  lnTen : Ivl.Contains p m.lnTen (Real.log 10)
  terms : 0 < m.terms

theorem Ivl.sound_quickMeans (p : Nat) : (Ivl.quickMeans p).Sound p :=
  ⟨contains_pi p, contains_lnTen p, Nat.succ_pos _⟩

theorem Ivl.sound_openMeans (n p : Nat) : (Ivl.openMeans n p).Sound p :=
  ⟨contains_piSeries p, contains_lnTenSeries p, Nat.succ_pos _⟩

/-- Five exact coefficients. -/
structure RealCoeffs where
  b0 : ℝ
  b1 : ℝ
  b2 : ℝ
  a1 : ℝ
  a2 : ℝ

/-- Each of the five intervals contains its real. -/
structure IvlCoeffs.Contain (p : Nat) (x : IvlCoeffs) (r : RealCoeffs) : Prop where
  b0 : Ivl.Contains p x.b0 r.b0
  b1 : Ivl.Contains p x.b1 r.b1
  b2 : Ivl.Contains p x.b2 r.b2
  a1 : Ivl.Contains p x.a1 r.a1
  a2 : Ivl.Contains p x.a2 r.a2

/-- Each of the five intervals closes in on its real. -/
structure IvlCoeffs.Tend (x : Nat → Nat → IvlCoeffs) (r : RealCoeffs) : Prop where
  b0 : Ivl.Tends Ivl.both Prod.snd (fun i => (x i.1 i.2).b0) r.b0
  b1 : Ivl.Tends Ivl.both Prod.snd (fun i => (x i.1 i.2).b1) r.b1
  b2 : Ivl.Tends Ivl.both Prod.snd (fun i => (x i.1 i.2).b2) r.b2
  a1 : Ivl.Tends Ivl.both Prod.snd (fun i => (x i.1 i.2).a1) r.a1
  a2 : Ivl.Tends Ivl.both Prod.snd (fun i => (x i.1 i.2).a2) r.a2

/-- Each of the five coefficients is the rounding of its real. -/
structure RealCoeffs.Round (r : RealCoeffs) (c : Coeffs) : Prop where
  b0 : F32.IsRounding (r.b0 * 2 ^ 149) c.b0
  b1 : F32.IsRounding (r.b1 * 2 ^ 149) c.b1
  b2 : F32.IsRounding (r.b2 * 2 ^ 149) c.b2
  a1 : F32.IsRounding (r.a1 * 2 ^ 149) c.a1
  a2 : F32.IsRounding (r.a2 * 2 ^ 149) c.a2

namespace Design

open Ivl

/-! ### What an exact design answers -/

/-- Five intervals that decide give the roundings of the reals inside. -/
theorem round_of_roundCoeffs {p : Nat} {x : IvlCoeffs} {c : Coeffs} {r : RealCoeffs} (hx : x.Contain p r)
    (h : roundCoeffs p x = some c) : r.Round c := by
  unfold roundCoeffs at h
  split at h
  · cases h
    exact ⟨isRounding_of_round32 hx.b0 ‹_›, isRounding_of_round32 hx.b1 ‹_›, isRounding_of_round32 hx.b2 ‹_›,
      isRounding_of_round32 hx.a1 ‹_›, isRounding_of_round32 hx.a2 ‹_›⟩
  · cases h

theorem round_limitCoeffs {f : Nat → Nat → IvlCoeffs} {r : RealCoeffs} (hc : ∀ n p, (f n p).Contain p r)
    (ht : IvlCoeffs.Tend f r) : r.Round (limitCoeffs f) :=
  ⟨(ht.b0.encloses fun n p => (hc n p).b0).isRounding, (ht.b1.encloses fun n p => (hc n p).b1).isRounding,
    (ht.b2.encloses fun n p => (hc n p).b2).isRounding, (ht.a1.encloses fun n p => (hc n p).a1).isRounding,
    (ht.a2.encloses fun n p => (hc n p).a2).isRounding⟩

/-- An exact design is round32 of five reals, if its intervals contain them and close in on them. -/
theorem round_exactCoeffs {f : Ivl.Means → Nat → IvlCoeffs} {r : RealCoeffs}
    (hc : ∀ (m : Ivl.Means) (p : Nat), m.Sound p → (f m p).Contain p r)
    (ht : IvlCoeffs.Tend (fun n p => f (openMeans n p) p) r) : r.Round (exactCoeffs f) := by
  unfold exactCoeffs
  split
  · next h => exact round_of_roundCoeffs (hc _ _ (sound_quickMeans _)) h
  · split
    · next h => exact round_of_roundCoeffs (hc _ _ (sound_quickMeans _)) h
    · exact round_limitCoeffs (fun n p => hc _ _ (sound_openMeans n p)) ht

/-! ### Settings and rates -/

theorem units_toNat {y : Word} (hy : 0 < F32.units y) : (((F32.units y).toNat : ℕ) : ℝ) = (F32.units y : ℝ) := by
  have : (((F32.units y).toNat : ℤ)) = F32.units y := Int.toNat_of_nonneg hy.le
  exact_mod_cast this

theorem ratio_units (x y : Word) :
    (F32.units x : ℝ) / F32.units y = ((F32.units x : ℝ) / 2 ^ 149) / ((F32.units y : ℝ) / 2 ^ 149) :=
  (div_div_div_cancel_right₀ (by positivity) _ _).symm

theorem contains_ratio (p : Nat) {x y : Word} (hy : 0 < F32.units y) :
    Contains p (ratio p x y) (((F32.units x : ℝ) / 2 ^ 149) / ((F32.units y : ℝ) / 2 ^ 149)) := by
  have h := contains_ofRatio p (F32.units x) (d := (F32.units y).toNat)
  rw [units_toNat hy] at h
  exact h.cast (ratio_units x y)

theorem tends_ratio {x y : Word} (hy : 0 < F32.units y) : Tends Filter.atTop id (fun p => ratio p x y)
    (((F32.units x : ℝ) / 2 ^ 149) / ((F32.units y : ℝ) / 2 ^ 149)) := by
  have h := tends_ofRatio fine_id (F32.units x) (d := (F32.units y).toNat) (by omega)
  rw [units_toNat hy] at h
  exact h.cast (ratio_units x y)

theorem contains_value (p : Nat) (x : Word) : Contains p (Design.value p x) ((F32.units x : ℝ) / 2 ^ 149) := by
  have h := contains_ofRatio p (F32.units x) (d := 2 ^ 149)
  rwa [Nat.cast_pow, Nat.cast_ofNat] at h

theorem tends_value (x : Word) : Tends Filter.atTop id (fun p => Design.value p x) ((F32.units x : ℝ) / 2 ^ 149) := by
  have h := tends_ofRatio fine_id (F32.units x) (d := 2 ^ 149) (by positivity)
  rwa [Nat.cast_pow, Nat.cast_ofNat] at h

/-- Integer proportions of the values are proportions of the reals. -/
theorem ratio_eq {a b : ℤ} {f r : Word} (h : b * F32.units f = a * F32.units r) (hb : b ≠ 0) (hr : 0 < F32.units r) :
    ((F32.units f : ℝ) / 2 ^ 149) / ((F32.units r : ℝ) / 2 ^ 149) = a / b := by
  have h : (b : ℝ) * F32.units f = a * F32.units r := by exact_mod_cast h
  have hb : (b : ℝ) ≠ 0 := by exact_mod_cast hb
  have hr : (F32.units r : ℝ) ≠ 0 := by exact_mod_cast hr.ne'
  rw [div_div_div_cancel_right₀ (by positivity), div_eq_div_iff hr hb, mul_comm, h]

theorem quarter_ratio {f r : Word} (h : quarterRate f r = true) (hr : 0 < F32.units r) :
    ((F32.units f : ℝ) / 2 ^ 149) / ((F32.units r : ℝ) / 2 ^ 149) = 1 / 4 := by
  have h : 4 * F32.units f = F32.units r := by simpa [quarterRate] using h
  simpa using ratio_eq (a := 1) (b := 4) (by omega) (by omega) hr

/-- 40_designer.md R122: 0 < f/R < 1/2. -/
theorem ratio_bounds {f r : Word} (h0 : 0 < F32.units f) (h2 : 2 * F32.units f < F32.units r) :
    0 < ((F32.units f : ℝ) / 2 ^ 149) / ((F32.units r : ℝ) / 2 ^ 149) ∧
      ((F32.units f : ℝ) / 2 ^ 149) / ((F32.units r : ℝ) / 2 ^ 149) < 1 / 2 := by
  have hf : (0 : ℝ) < F32.units f := by exact_mod_cast h0
  have hr : (0 : ℝ) < F32.units r := by exact_mod_cast (by omega : 0 < F32.units r)
  have h2 : 2 * (F32.units f : ℝ) < F32.units r := by exact_mod_cast h2
  rw [← ratio_units]
  exact ⟨div_pos hf hr, by rw [div_lt_div_iff₀ hr two_pos]; linarith⟩

/-! ### The peak -/

section Peak

variable {m : Ivl.Means} {p : Nat} {freq rate : Word}

/-- 40_designer.md R124. -/
theorem contains_dbToGain (hm : m.Sound p) (gain : Word) :
    Contains p (dbToGain m p gain) ((10 : ℝ) ^ ((F32.units gain : ℝ) / 2 ^ 149 / 20)) := by
  refine (contains_exp hm.terms (((contains_value p gain).divNat 20).mul hm.lnTen)).cast ?_
  rw [Real.rpow_def_of_pos (by norm_num), mul_comm (Real.log 10)]
  push_cast
  rfl

theorem tends_dbToGain (gain : Word) : Tends both Prod.snd (fun i => dbToGain (openMeans i.1 i.2) i.2 gain)
    ((10 : ℝ) ^ ((F32.units gain : ℝ) / 2 ^ 149 / 20)) := by
  refine Tends.cast (((tends_value gain).divNat fine_id (n := 20) (by norm_num)).mul fine_id tends_lnTenSeries).exp ?_
  rw [Real.rpow_def_of_pos (by norm_num), mul_comm (Real.log 10)]
  push_cast
  rfl

theorem contains_omega (hm : m.Sound p) (hr : 0 < F32.units rate) :
    Contains p (omega m p freq rate)
      (2 * Real.pi * ((F32.units freq : ℝ) / 2 ^ 149) / ((F32.units rate : ℝ) / 2 ^ 149)) := by
  refine (((contains_point p 2).mul hm.pi).mul (contains_ratio p (x := freq) hr)).cast ?_
  rw [mul_div_assoc]
  push_cast
  rfl

theorem tends_omega (hr : 0 < F32.units rate) : Tends Filter.atTop id (fun p => omega (openMeans 0 p) p freq rate)
    (2 * Real.pi * ((F32.units freq : ℝ) / 2 ^ 149) / ((F32.units rate : ℝ) / 2 ^ 149)) := by
  refine Tends.cast (((tends_point 2).mul fine_id tends_piSeries).mul fine_id (tends_ratio (x := freq) hr)) ?_
  rw [mul_div_assoc]
  push_cast
  rfl

/-- The sine where it is written out. -/
theorem sin_of_quarter (h : quarterRate freq rate = true) (hr : 0 < F32.units rate) :
    Real.sin (2 * Real.pi * ((F32.units freq : ℝ) / 2 ^ 149) / ((F32.units rate : ℝ) / 2 ^ 149)) = 1 := by
  rw [mul_div_assoc, quarter_ratio h hr, show 2 * Real.pi * (1 / 4) = Real.pi / 2 by ring, Real.sin_pi_div_two]

theorem cos_of_quarter (h : quarterRate freq rate = true) (hr : 0 < F32.units rate) :
    Real.cos (2 * Real.pi * ((F32.units freq : ℝ) / 2 ^ 149) / ((F32.units rate : ℝ) / 2 ^ 149)) = 0 := by
  rw [mul_div_assoc, quarter_ratio h hr, show 2 * Real.pi * (1 / 4) = Real.pi / 2 by ring, Real.cos_pi_div_two]

theorem sin_of_half (h : sinIsHalf freq rate = true) (hr : 0 < F32.units rate) :
    Real.sin (2 * Real.pi * ((F32.units freq : ℝ) / 2 ^ 149) / ((F32.units rate : ℝ) / 2 ^ 149)) = 1 / 2 := by
  rcases (by simpa [sinIsHalf] using h :
    12 * F32.units freq = F32.units rate ∨ 12 * F32.units freq = 5 * F32.units rate) with h | h
  · rw [mul_div_assoc, ratio_eq (a := 1) (b := 12) (by omega) (by omega) hr]
    push_cast
    rw [show 2 * Real.pi * (1 / 12) = Real.pi / 6 by ring, Real.sin_pi_div_six]
  · rw [mul_div_assoc, ratio_eq h (by omega) hr]
    push_cast
    rw [show 2 * Real.pi * (5 / 12) = Real.pi - Real.pi / 6 by ring, Real.sin_pi_sub, Real.sin_pi_div_six]

theorem contains_sinOmega (hm : m.Sound p) (hr : 0 < F32.units rate) :
    Contains p (sinOmega m p freq rate)
      (Real.sin (2 * Real.pi * ((F32.units freq : ℝ) / 2 ^ 149) / ((F32.units rate : ℝ) / 2 ^ 149))) := by
  unfold sinOmega
  split_ifs with hq hh
  · exact (contains_point p 1).cast (by simp [sin_of_quarter hq hr])
  · exact (contains_ofRatio p 1 (d := 2)).cast (by simp [sin_of_half hh hr])
  · exact contains_sin hm.terms (contains_omega hm hr)

theorem tends_sinOmega (hr : 0 < F32.units rate) :
    Tends both Prod.snd (fun i => sinOmega (openMeans i.1 i.2) i.2 freq rate)
      (Real.sin (2 * Real.pi * ((F32.units freq : ℝ) / 2 ^ 149) / ((F32.units rate : ℝ) / 2 ^ 149))) := by
  unfold sinOmega
  split_ifs with hq hh
  · exact (tends_point 1).cast (by simp [sin_of_quarter hq hr])
  · exact (tends_ofRatio fine_both 1 (d := 2) (by norm_num)).cast (by simp [sin_of_half hh hr])
  · exact (tends_omega hr).sin

theorem contains_cosOmega (hm : m.Sound p) (hr : 0 < F32.units rate) :
    Contains p (cosOmega m p freq rate)
      (Real.cos (2 * Real.pi * ((F32.units freq : ℝ) / 2 ^ 149) / ((F32.units rate : ℝ) / 2 ^ 149))) := by
  unfold cosOmega
  split_ifs with hq
  · exact (contains_point p 0).cast (by simp [cos_of_quarter hq hr])
  · exact contains_cos hm.terms (contains_omega hm hr)

theorem tends_cosOmega (hr : 0 < F32.units rate) :
    Tends both Prod.snd (fun i => cosOmega (openMeans i.1 i.2) i.2 freq rate)
      (Real.cos (2 * Real.pi * ((F32.units freq : ℝ) / 2 ^ 149) / ((F32.units rate : ℝ) / 2 ^ 149))) := by
  unfold cosOmega
  split_ifs with hq
  · exact (tends_point 0).cast (by simp [cos_of_quarter hq hr])
  · exact (tends_omega hr).cos

theorem sin_omega_pos (h0 : 0 < F32.units freq) (h2 : 2 * F32.units freq < F32.units rate) :
    0 < Real.sin (2 * Real.pi * ((F32.units freq : ℝ) / 2 ^ 149) / ((F32.units rate : ℝ) / 2 ^ 149)) := by
  obtain ⟨h3, h4⟩ := ratio_bounds h0 h2
  have hpi := Real.pi_pos
  rw [mul_div_assoc]
  apply Real.sin_pos_of_pos_of_lt_pi <;> nlinarith

/-- The cookbook peak in exact reals (40_designer.md R125). -/
noncomputable def realPeak (A sinW cosW q : ℝ) : RealCoeffs :=
  { b0 := (1 + sinW / (2 * q) * A) / (1 + sinW / (2 * q) / A)
    b1 := -2 * cosW / (1 + sinW / (2 * q) / A)
    b2 := (1 - sinW / (2 * q) * A) / (1 + sinW / (2 * q) / A)
    a1 := -2 * cosW / (1 + sinW / (2 * q) / A)
    a2 := (1 - sinW / (2 * q) / A) / (1 + sinW / (2 * q) / A) }

theorem contain_peakFrom {a s c q : Ivl} {A S C Q : ℝ} (ha : Contains p a A) (hs : Contains p s S) (hc : Contains p c C)
    (hq : Contains p q Q) : (peakFrom p a s c q).Contain p (realPeak A S C Q) := by
  have one := (contains_point p 1).cast (s := 1) (by norm_num)
  have alpha := hs.div (((contains_point p 2).cast (s := 2) (by norm_num)).mul hq)
  have a0 := one.add (alpha.div ha)
  have middle := (((contains_point p (-2)).cast (s := -2) (by norm_num)).mul hc).div a0
  exact ⟨(one.add (alpha.mul ha)).div a0, middle, (one.sub (alpha.mul ha)).div a0, middle, (one.sub (alpha.div ha)).div a0⟩

theorem tend_peakFrom {a s c q : Nat → Nat → Ivl} {A S C Q : ℝ} (ha : Tends both Prod.snd (fun i => a i.1 i.2) A)
    (hs : Tends both Prod.snd (fun i => s i.1 i.2) S) (hc : Tends both Prod.snd (fun i => c i.1 i.2) C)
    (hq : Tends both Prod.snd (fun i => q i.1 i.2) Q) (hA : 0 < A) (hS : 0 < S) (hQ : 0 < Q) :
    IvlCoeffs.Tend (fun n p => peakFrom p (a n p) (s n p) (c n p) (q n p)) (realPeak A S C Q) := by
  have hf := fine_both
  have one := (tends_point (l := both) (p := Prod.snd) 1).cast (s := 1) (by norm_num)
  have two := (tends_point (l := both) (p := Prod.snd) 2).cast (s := 2) (by norm_num)
  have minusTwo := (tends_point (l := both) (p := Prod.snd) (-2)).cast (s := -2) (by norm_num)
  have alpha := hs.div hf (two.mul hf hq) (by positivity)
  have a0 := one.add (alpha.div hf ha hA)
  have pos : 0 < 1 + S / (2 * Q) / A := by positivity
  have middle := (minusTwo.mul hf hc).div hf a0 pos
  exact ⟨(one.add (alpha.mul hf ha)).div hf a0 pos, middle, (one.sub (alpha.mul hf ha)).div hf a0 pos, middle,
    (one.sub (alpha.div hf ha hA)).div hf a0 pos⟩

end Peak

/-- The exact peak is round32 of the cookbook formula (40_designer.md R123 to R125). -/
theorem round_peakExact {rate freq q gain : Word} (h0 : 0 < F32.units freq) (h2 : 2 * F32.units freq < F32.units rate)
    (hq : 0 < F32.units q) :
    (realPeak (Real.sqrt ((10 : ℝ) ^ ((F32.units gain : ℝ) / 2 ^ 149 / 20)))
      (Real.sin (2 * Real.pi * ((F32.units freq : ℝ) / 2 ^ 149) / ((F32.units rate : ℝ) / 2 ^ 149)))
      (Real.cos (2 * Real.pi * ((F32.units freq : ℝ) / 2 ^ 149) / ((F32.units rate : ℝ) / 2 ^ 149)))
      ((F32.units q : ℝ) / 2 ^ 149)).Round (peakExact rate freq q gain) := by
  have hr : 0 < F32.units rate := by omega
  have hg : (0 : ℝ) < (10 : ℝ) ^ ((F32.units gain : ℝ) / 2 ^ 149 / 20) := Real.rpow_pos_of_pos (by norm_num) _
  have hQ : (0 : ℝ) < (F32.units q : ℝ) / 2 ^ 149 := div_pos (by exact_mod_cast hq) (two_pow_pos 149)
  refine round_exactCoeffs (fun m p hm => ?_) ?_
  · exact contain_peakFrom (contains_dbToGain hm gain).sqrt (contains_sinOmega hm hr) (contains_cosOmega hm hr)
      (contains_value p q)
  · exact tend_peakFrom (Tends.sqrt fine_both (tends_dbToGain gain) hg) (tends_sinOmega hr) (tends_cosOmega hr)
      (tends_value q).both (Real.sqrt_pos.mpr hg) (sin_omega_pos h0 h2) hQ

/-! ### The cuts -/

section Cuts

variable {m : Ivl.Means} {p : Nat} {freq rate : Word}

theorem tan_of_quarter (h : quarterRate freq rate = true) (hr : 0 < F32.units rate) :
    Real.tan (Real.pi * ((F32.units freq : ℝ) / 2 ^ 149) / ((F32.units rate : ℝ) / 2 ^ 149)) = 1 := by
  rw [mul_div_assoc, quarter_ratio h hr, show Real.pi * (1 / 4) = Real.pi / 4 by ring, Real.tan_pi_div_four]

theorem contains_tanHalf (hm : m.Sound p) (hr : 0 < F32.units rate) :
    Contains p (tanHalf m p freq rate)
      (Real.tan (Real.pi * ((F32.units freq : ℝ) / 2 ^ 149) / ((F32.units rate : ℝ) / 2 ^ 149))) := by
  unfold tanHalf
  split_ifs with hq
  · exact (contains_point p 1).cast (by simp [tan_of_quarter hq hr])
  · rw [mul_div_assoc, Real.tan_eq_sin_div_cos]
    have h := hm.pi.mul (contains_ratio p (x := freq) hr)
    exact (contains_sin hm.terms h).div (contains_cos hm.terms h)

theorem tends_tanHalf (h0 : 0 < F32.units freq) (h2 : 2 * F32.units freq < F32.units rate) :
    Tends both Prod.snd (fun i => tanHalf (openMeans i.1 i.2) i.2 freq rate)
      (Real.tan (Real.pi * ((F32.units freq : ℝ) / 2 ^ 149) / ((F32.units rate : ℝ) / 2 ^ 149))) := by
  have hr : 0 < F32.units rate := by omega
  obtain ⟨h3, h4⟩ := ratio_bounds h0 h2
  unfold tanHalf
  split_ifs with hq
  · exact (tends_point 1).cast (by simp [tan_of_quarter hq hr])
  · rw [mul_div_assoc, Real.tan_eq_sin_div_cos]
    have h := tends_piSeries.mul fine_id (tends_ratio (x := freq) hr)
    have hpi := Real.pi_pos
    exact h.sin.div fine_both h.cos (Real.cos_pos_of_mem_Ioo ⟨by nlinarith, by nlinarith⟩)

theorem tan_half_pos (h0 : 0 < F32.units freq) (h2 : 2 * F32.units freq < F32.units rate) :
    0 < Real.tan (Real.pi * ((F32.units freq : ℝ) / 2 ^ 149) / ((F32.units rate : ℝ) / 2 ^ 149)) := by
  obtain ⟨h3, h4⟩ := ratio_bounds h0 h2
  have hpi := Real.pi_pos
  rw [mul_div_assoc]
  apply Real.tan_pos_of_pos_of_lt_pi_div_two <;> nlinarith

/-- 40_designer.md R126. -/
theorem contains_sectionQ (hm : m.Sound p) (order k : Nat) :
    Contains p (sectionQ m p order k) (1 / (2 * Real.cos ((2 * k + 1) * Real.pi / (2 * order)))) :=
  ((contains_point p 1).div ((contains_point p 2).mul
    (contains_cos hm.terms (((contains_point p (2 * k + 1)).mul hm.pi).divNat (2 * order))))).cast (by push_cast; rfl)

theorem cos_section_pos {order k : Nat} (h : 2 * k + 1 < order) : 0 < Real.cos ((2 * k + 1) * Real.pi / (2 * order)) := by
  have hpi := Real.pi_pos
  have ho : (0 : ℝ) < order := by exact_mod_cast (by omega : 0 < order)
  have hk : (2 * k + 1 : ℝ) < order := by exact_mod_cast h
  apply Real.cos_pos_of_mem_Ioo
  constructor
  · have : 0 ≤ (2 * k + 1) * Real.pi / (2 * order) := by positivity
    linarith
  · rw [div_lt_div_iff₀ (by positivity) two_pos]
    nlinarith

theorem tends_sectionQ {order k : Nat} (h : 2 * k + 1 < order) :
    Tends both Prod.snd (fun i => sectionQ (openMeans i.1 i.2) i.2 order k)
      (1 / (2 * Real.cos ((2 * k + 1) * Real.pi / (2 * order)))) := by
  have hc := (((tends_point (2 * k + 1)).mul fine_id tends_piSeries).divNat fine_id (n := 2 * order) (by omega)).cos
  have hpos := cos_section_pos h
  have e : Real.cos (((2 * k + 1 : Int) : ℝ) * Real.pi / ((2 * order : ℕ) : ℝ)) =
      Real.cos ((2 * k + 1) * Real.pi / (2 * order)) := by push_cast; rfl
  rw [e] at hc
  have two := (tends_point (l := both) (p := Prod.snd) 2).cast (s := 2) (by norm_num)
  have one := (tends_point (l := both) (p := Prod.snd) 1).cast (s := 1) (by norm_num)
  exact one.div fine_both (two.mul fine_both hc) (by positivity)

/-- The highpass section in exact reals (40_designer.md R127). -/
noncomputable def realHighpass (K Q : ℝ) : RealCoeffs :=
  { b0 := 1 / (1 + K / Q + K * K)
    b1 := -2 * (1 / (1 + K / Q + K * K))
    b2 := 1 / (1 + K / Q + K * K)
    a1 := 2 * (1 / (1 + K / Q + K * K)) * (K * K - 1)
    a2 := 1 / (1 + K / Q + K * K) * (1 - K / Q + K * K) }

/-- The lowpass section in exact reals (40_designer.md R128). -/
noncomputable def realLowpass (M Q : ℝ) : RealCoeffs :=
  { b0 := 1 / (1 + M / Q + M * M)
    b1 := 2 * (1 / (1 + M / Q + M * M))
    b2 := 1 / (1 + M / Q + M * M)
    a1 := 2 * (1 / (1 + M / Q + M * M)) * (1 - M * M)
    a2 := 1 / (1 + M / Q + M * M) * (1 - M / Q + M * M) }

theorem contain_highpassFrom {x q : Ivl} {K Q : ℝ} (hx : Contains p x K) (hq : Contains p q Q) :
    (highpassFrom p x q).Contain p (realHighpass K Q) := by
  have one := (contains_point p 1).cast (s := 1) (by norm_num)
  have two := (contains_point p 2).cast (s := 2) (by norm_num)
  have minusTwo := (contains_point p (-2)).cast (s := -2) (by norm_num)
  have kk := hx.mul hx
  have kq := hx.div hq
  have c := one.div ((one.add kq).add kk)
  exact ⟨c, minusTwo.mul c, c, (two.mul c).mul (kk.sub one), c.mul ((one.sub kq).add kk)⟩

theorem contain_lowpassFrom {x q : Ivl} {M Q : ℝ} (hx : Contains p x M) (hq : Contains p q Q) :
    (lowpassFrom p x q).Contain p (realLowpass M Q) := by
  have one := (contains_point p 1).cast (s := 1) (by norm_num)
  have two := (contains_point p 2).cast (s := 2) (by norm_num)
  have kk := hx.mul hx
  have kq := hx.div hq
  have c := one.div ((one.add kq).add kk)
  exact ⟨c, two.mul c, c, (two.mul c).mul (one.sub kk), c.mul ((one.sub kq).add kk)⟩

theorem tend_highpassFrom {x q : Nat → Nat → Ivl} {K Q : ℝ} (hx : Tends both Prod.snd (fun i => x i.1 i.2) K)
    (hq : Tends both Prod.snd (fun i => q i.1 i.2) Q) (hK : 0 < K) (hQ : 0 < Q) :
    IvlCoeffs.Tend (fun n p => highpassFrom p (x n p) (q n p)) (realHighpass K Q) := by
  have hf := fine_both
  have one := (tends_point (l := both) (p := Prod.snd) 1).cast (s := 1) (by norm_num)
  have two := (tends_point (l := both) (p := Prod.snd) 2).cast (s := 2) (by norm_num)
  have minusTwo := (tends_point (l := both) (p := Prod.snd) (-2)).cast (s := -2) (by norm_num)
  have kk := hx.mul hf hx
  have kq := hx.div hf hq hQ
  have c := one.div hf ((one.add kq).add kk) (by positivity)
  exact ⟨c, minusTwo.mul hf c, c, (two.mul hf c).mul hf (kk.sub one), c.mul hf ((one.sub kq).add kk)⟩

theorem tend_lowpassFrom {x q : Nat → Nat → Ivl} {M Q : ℝ} (hx : Tends both Prod.snd (fun i => x i.1 i.2) M)
    (hq : Tends both Prod.snd (fun i => q i.1 i.2) Q) (hM : 0 < M) (hQ : 0 < Q) :
    IvlCoeffs.Tend (fun n p => lowpassFrom p (x n p) (q n p)) (realLowpass M Q) := by
  have hf := fine_both
  have one := (tends_point (l := both) (p := Prod.snd) 1).cast (s := 1) (by norm_num)
  have two := (tends_point (l := both) (p := Prod.snd) 2).cast (s := 2) (by norm_num)
  have kk := hx.mul hf hx
  have kq := hx.div hf hq hQ
  have c := one.div hf ((one.add kq).add kk) (by positivity)
  exact ⟨c, two.mul hf c, c, (two.mul hf c).mul hf (one.sub kk), c.mul hf ((one.sub kq).add kk)⟩

end Cuts

/-- A section of the exact highpass is round32 of the formula (40_designer.md R123, R126, R127). -/
theorem round_highpassExact {freq rate : Word} {order k : Nat} (h0 : 0 < F32.units freq)
    (h2 : 2 * F32.units freq < F32.units rate) (hk : 2 * k + 1 < order) :
    (realHighpass (Real.tan (Real.pi * ((F32.units freq : ℝ) / 2 ^ 149) / ((F32.units rate : ℝ) / 2 ^ 149)))
        (1 / (2 * Real.cos ((2 * k + 1) * Real.pi / (2 * order))))).Round
      (highpassExact freq rate order k) := by
  have hc := cos_section_pos hk
  refine round_exactCoeffs (fun m p hm => ?_) ?_
  · exact contain_highpassFrom (contains_tanHalf hm (by omega)) (contains_sectionQ hm order k)
  · exact tend_highpassFrom (tends_tanHalf h0 h2) (tends_sectionQ hk) (tan_half_pos h0 h2) (by positivity)

/-- A section of the exact lowpass is round32 of the formula (40_designer.md R123, R126, R128). -/
theorem round_lowpassExact {freq rate : Word} {order k : Nat} (h0 : 0 < F32.units freq)
    (h2 : 2 * F32.units freq < F32.units rate) (hk : 2 * k + 1 < order) :
    (realLowpass (1 / Real.tan (Real.pi * ((F32.units freq : ℝ) / 2 ^ 149) / ((F32.units rate : ℝ) / 2 ^ 149)))
        (1 / (2 * Real.cos ((2 * k + 1) * Real.pi / (2 * order))))).Round
      (lowpassExact freq rate order k) := by
  have hc := cos_section_pos hk
  have ht := tan_half_pos h0 h2
  refine round_exactCoeffs (fun m p hm => ?_) ?_
  · exact contain_lowpassFrom (((contains_point p 1).cast (s := 1) (by norm_num)).div (contains_tanHalf hm (by omega)))
      (contains_sectionQ hm order k)
  · have one := (tends_point (l := both) (p := Prod.snd) 1).cast (s := 1) (by norm_num)
    exact tend_lowpassFrom (one.div fine_both (tends_tanHalf h0 h2) ht) (tends_sectionQ hk) (by positivity) (by positivity)

end Design

end Sys2Proof.Machine
end

