-- ==== Sys2Proof/Laws/Memory.lean ====
section
/-! SUPPORT. Sample memory: a read after a write, the canonical form, words and blocks. -/

namespace Sys2Proof.Machine.Memory

/-- A byte read after a byte write. -/
@[simp] theorem readByte_writeByte (m : Memory) (a x : Nat) (b : Byte) :
    readByte (writeByte m a b) x = if x = a then some b else readByte m x := by
  induction m with
  | nil => by_cases h : a = x <;> simp [writeByte, readByte, h, eq_comm]
  | cons c rest ih =>
    obtain ⟨k, v⟩ := c
    rw [writeByte]
    by_cases h1 : a < k
    · rw [if_pos h1, readByte]
      simp [eq_comm]
    · rw [if_neg h1]
      by_cases h2 : k = a
      · subst h2
        rw [if_pos rfl, readByte, readByte]
        by_cases hx : k = x
        · simp [hx]
        · simp [hx, Ne.symm hx]
      · rw [if_neg h2, readByte, readByte, ih]
        by_cases hx : k = x
        · subst hx; simp [h2]
        · simp [hx]

theorem risingAbove_mono {a b : Nat} {m : Memory} (h : risingAbove b m = true) (hab : a ≤ b) : risingAbove a m = true := by
  cases m with
  | nil => rfl
  | cons c rest =>
    simp only [risingAbove, Bool.and_eq_true, decide_eq_true_eq] at h ⊢
    exact ⟨by omega, h.2⟩

theorem risingAbove_writeByte {k a : Nat} {m : Memory} (b : Byte) (h : risingAbove k m = true) (ha : k < a) :
    risingAbove k (writeByte m a b) = true := by
  induction m generalizing k with
  | nil => simp [writeByte, risingAbove, ha]
  | cons c rest ih =>
    obtain ⟨j, v⟩ := c
    simp only [risingAbove, Bool.and_eq_true, decide_eq_true_eq] at h
    unfold writeByte
    split_ifs with h1 h2
    · simp [risingAbove, ha, h1, h.2]
    · subst h2; simp [risingAbove, ha, h.2]
    · simp only [risingAbove, Bool.and_eq_true, decide_eq_true_eq]
      exact ⟨h.1, ih h.2 (by omega)⟩

/-- A byte write keeps the canonical form. -/
theorem wf_writeByte {m : Memory} (a : Nat) (b : Byte) (h : wf m = true) : wf (writeByte m a b) = true := by
  cases m with
  | nil => rfl
  | cons c rest =>
    obtain ⟨k, v⟩ := c
    simp only [wf] at h
    unfold writeByte
    split_ifs with h1 h2
    · simp [wf, risingAbove, h1, h]
    · subst h2; simpa [wf] using h
    · exact risingAbove_writeByte b h (by omega)

theorem wf_writeWord {m : Memory} (a : Nat) (w : Word) (h : wf m = true) : wf (writeWord m a w) = true :=
  wf_writeByte _ _ (wf_writeByte _ _ (wf_writeByte _ _ (wf_writeByte _ _ h)))

theorem wf_writeBlock {m : Memory} (a : Nat) (ws : List Word) (h : wf m = true) : wf (writeBlock m a ws) = true := by
  induction ws generalizing m a with
  | nil => exact h
  | cons w ws ih => exact ih _ (wf_writeWord a w h)

/-- In canonical form, the same readings mean the same list. -/
theorem readByte_of_risingAbove {k : Nat} {m : Memory} (h : risingAbove k m = true) {a : Nat} (ha : a ≤ k) :
    readByte m a = none := by
  induction m generalizing k with
  | nil => rfl
  | cons c rest ih =>
    obtain ⟨j, v⟩ := c
    simp only [risingAbove, Bool.and_eq_true, decide_eq_true_eq] at h
    rw [readByte, if_neg (by omega)]
    exact ih h.2 (by omega)

/-- The bytes of a written word. -/
theorem readByte_writeWord (m : Memory) (a x : Nat) (w : Word) :
    readByte (writeWord m a w) x =
      if x = a + 3 then some (byteOfWord w 3) else if x = a + 2 then some (byteOfWord w 2)
      else if x = a + 1 then some (byteOfWord w 1) else if x = a then some (byteOfWord w 0) else readByte m x := by
  simp [writeWord]

/-- A word write leaves every byte outside its four alone. -/
theorem readByte_writeWord_of_ne {m : Memory} {a x : Nat} (w : Word) (h : x < a ∨ a + 4 ≤ x) :
    readByte (writeWord m a w) x = readByte m x := by
  rw [readByte_writeWord, if_neg (by omega), if_neg (by omega), if_neg (by omega), if_neg (by omega)]

theorem wordOfBytes_byteOfWord (w : Word) :
    wordOfBytes (byteOfWord w 0) (byteOfWord w 1) (byteOfWord w 2) (byteOfWord w 3) = w := by
  apply BitVec.eq_of_toNat_eq
  simp only [wordOfBytes, byteOfWord, BitVec.toNat_ofNat]
  have := w.isLt
  omega

/-- Little-endian byte lanes: a word read after a word write. -/
@[simp] theorem readWord_writeWord (m : Memory) (a : Nat) (w : Word) : readWord (writeWord m a w) a = some w := by
  simp only [readWord, readByte_writeWord]
  simp [wordOfBytes_byteOfWord]

theorem readWord_congr {m m' : Memory} {a : Nat} (h : ∀ x, a ≤ x → x < a + 4 → readByte m x = readByte m' x) :
    readWord m a = readWord m' a := by
  simp only [readWord, h a (by omega) (by omega), h (a + 1) (by omega) (by omega), h (a + 2) (by omega) (by omega),
    h (a + 3) (by omega) (by omega)]

theorem readWord_writeWord_of_disjoint {m : Memory} {a x : Nat} (w : Word) (h : x + 4 ≤ a ∨ a + 4 ≤ x) :
    readWord (writeWord m a w) x = readWord m x :=
  readWord_congr fun y h1 h2 => readByte_writeWord_of_ne w (by omega)

theorem readBlock_succ (m : Memory) (a n : Nat) :
    readBlock m a (n + 1) = (readWord m a).bind fun w => (readBlock m (a + 4) n).map (w :: ·) := by
  rw [readBlock]
  cases readWord m a <;> cases readBlock m (a + 4) n <;> rfl

theorem readBlock_congr {m m' : Memory} {a n : Nat} (h : ∀ x, a ≤ x → x < a + 4 * n → readByte m x = readByte m' x) :
    readBlock m a n = readBlock m' a n := by
  induction n generalizing a with
  | zero => rfl
  | succ n ih =>
    simp only [readBlock, readWord_congr (m := m) (m' := m') (a := a) fun x h1 h2 => h x h1 (by omega),
      ih (a := a + 4) fun x h1 h2 => h x (by omega) (by omega)]

/-- A block write leaves every byte outside it alone. -/
theorem readByte_writeBlock_of_ne {m : Memory} {a x : Nat} (ws : List Word) (h : x < a ∨ a + 4 * ws.length ≤ x) :
    readByte (writeBlock m a ws) x = readByte m x := by
  induction ws generalizing m a with
  | nil => rfl
  | cons w ws ih =>
    simp only [List.length_cons] at h
    rw [writeBlock, ih (by omega), readByte_writeWord_of_ne w (by omega)]

/-- A block read after the block write. -/
theorem readBlock_writeBlock (m : Memory) (a : Nat) (ws : List Word) :
    readBlock (writeBlock m a ws) a ws.length = some ws := by
  induction ws generalizing m a with
  | nil => rfl
  | cons w ws ih =>
    have hw : readWord (writeBlock m a (w :: ws)) a = some w := by
      rw [writeBlock, readWord_congr (m' := writeWord m a w) fun x _ h2 => readByte_writeBlock_of_ne ws (.inl h2)]
      exact readWord_writeWord m a w
    rw [List.length_cons, readBlock_succ, hw, writeBlock, ih]
    rfl

theorem length_readBlock {m : Memory} {a n : Nat} {ws : List Word} (h : readBlock m a n = some ws) : ws.length = n := by
  induction n generalizing a ws with
  | zero => simp [readBlock] at h; simp [← h]
  | succ n ih =>
    rw [readBlock_succ] at h
    simp only [Option.bind_eq_some_iff, Option.map_eq_some_iff] at h
    obtain ⟨w, _, ws', h2, rfl⟩ := h
    simp [ih h2]

/-- A block reads if and only if each of its words does. -/
theorem readBlock_isSome {m : Memory} {a n : Nat} :
    (readBlock m a n).isSome = true ↔ ∀ i, i < n → (readWord m (a + 4 * i)).isSome = true := by
  induction n generalizing a with
  | zero => simp [readBlock]
  | succ n ih =>
    have hs : (readBlock m a (n + 1)).isSome = true ↔
        (readWord m a).isSome = true ∧ (readBlock m (a + 4) n).isSome = true := by
      rw [readBlock_succ]
      cases readWord m a <;> cases readBlock m (a + 4) n <;> simp
    rw [hs, ih]
    constructor
    · rintro ⟨h0, h⟩ i hi
      rcases i with _ | i
      · simpa using h0
      · simpa [Nat.mul_add, Nat.add_assoc, Nat.add_comm 4] using h i (by omega)
    · intro h
      exact ⟨by simpa using h 0 (by omega), fun i hi => by
        simpa [Nat.mul_add, Nat.add_assoc, Nat.add_comm 4] using h (i + 1) (by omega)⟩

/-- A word reads where its four bytes do. -/
theorem readWord_isSome {m : Memory} {a : Nat} :
    (readWord m a).isSome = true ↔ ∀ k, k < 4 → (readByte m (a + k)).isSome = true := by
  have hs : (readWord m a).isSome = true ↔ (readByte m a).isSome = true ∧ (readByte m (a + 1)).isSome = true ∧
      (readByte m (a + 2)).isSome = true ∧ (readByte m (a + 3)).isSome = true := by
    rw [readWord]
    split
    · simp_all
    · rename_i h
      simp only [Option.isSome_none, Bool.false_eq_true, false_iff, not_and]
      intro h0 h1 h2 h3
      obtain ⟨_, h0⟩ := Option.isSome_iff_exists.mp h0
      obtain ⟨_, h1⟩ := Option.isSome_iff_exists.mp h1
      obtain ⟨_, h2⟩ := Option.isSome_iff_exists.mp h2
      obtain ⟨_, h3⟩ := Option.isSome_iff_exists.mp h3
      exact h _ _ _ _ h0 h1 h2 h3
  rw [hs]
  constructor
  · rintro ⟨h0, h1, h2, h3⟩ k hk
    interval_cases k <;> assumption
  · intro h
    exact ⟨h 0 (by omega), h 1 (by omega), h 2 (by omega), h 3 (by omega)⟩

end Sys2Proof.Machine.Memory
end

