-- ==== Sys2Proof/Laws/Engine.lean ====
section
/-! SUPPORT. What the update body, and each command that answers a next state, can do: one inversion lemma each, which later
proofs cite instead of unfolding. -/

namespace Sys2Proof.Machine

/-! ### Validation -/

theorem checkFields_cases (mode : BuildMode) (fs : List Field) (settings : Settings) (clamped : Bool) :
    (∀ code, checkFields mode fs settings clamped = .fail code → mode = .release ∧ code = .settingNan) ∧
    (∀ code, checkFields mode fs settings clamped = .fault code → mode = .debug ∧ code ≠ .none) ∧
    (mode = .debug → ∀ sane c, checkFields mode fs settings clamped = .ok sane c → sane = settings ∧ c = clamped) := by
  induction fs generalizing settings clamped with
  | nil => simp [checkFields]
  | cons f fs ih =>
    have hk : ∀ v, (∀ code, checkField mode f v = .fail code → mode = .release ∧ code = .settingNan) ∧
        (∀ code, checkField mode f v = .fault code → mode = .debug ∧ code ≠ .none) ∧
        (mode = .debug → ∀ w, checkField mode f v ≠ .clamp w) := by
      intro v
      have hc : f.limits.2.2 ≠ .none := by cases f <;> decide
      unfold checkField FieldCheck.violation
      cases mode <;> split_ifs <;> simp [hc]
    obtain ⟨k1, k2, k3⟩ := hk (settings.get f)
    unfold checkFields
    split
    · exact ih settings clamped
    · rename_i w hw
      exact ⟨(ih _ _).1, (ih _ _).2.1, fun h => absurd hw (k3 h w)⟩
    · rename_i code hw
      refine ⟨fun c h => ?_, by simp, by simp⟩
      cases h; exact k1 _ hw
    · rename_i code hw
      refine ⟨by simp, fun c h => ?_, by simp⟩
      cases h; exact k2 _ hw

/-- How validation can end: it fails in release builds only and faults in debug builds only, with a code, and in debug builds it
changes nothing. -/
theorem validate_cases (settings : Settings) (rate : Word) (mode : BuildMode) :
    (∀ code, validate settings rate mode = .fail code → mode = .release ∧ code ≠ .none) ∧
    (∀ code, validate settings rate mode = .fault code → mode = .debug ∧ code ≠ .none) ∧
    (mode = .debug → ∀ sane c, validate settings rate mode = .ok sane c → sane = settings ∧ c = false) := by
  obtain ⟨h1, h2, h3⟩ := checkFields_cases mode Field.inOrder settings false
  unfold validate
  split
  · rename_i sane clamped hv
    cases mode
    · refine ⟨?_, ?_, by simp⟩ <;> intro code h <;> split_ifs at h
      cases h
      exact ⟨rfl, by decide⟩
    · refine ⟨?_, ?_, ?_⟩
      · intro code h
        split_ifs at h
      · intro code h
        split_ifs at h
        cases h
        exact ⟨rfl, by decide⟩
      · intro _ sane' c h
        split_ifs at h
        cases h
        exact h3 rfl _ _ hv
  · rename_i code hv
    refine ⟨fun c h => ?_, by simp, by simp⟩
    cases h
    obtain ⟨a, rfl⟩ := h1 _ hv
    exact ⟨a, by decide⟩
  · rename_i code hv
    refine ⟨by simp, fun c h => ?_, by simp⟩
    cases h; exact h2 _ hv

/-! ### How commands end -/

theorem violate_eq_endedBy (code : Cause) (s : State) : violate code s = s.endedBy code := by
  unfold violate State.endedBy
  cases s.params.buildMode <;> rfl

/-- What the update body can do (43_engine.md R206). -/
theorem updateBody_cases (s : State) :
    (∃ code, code ≠ .none ∧ updateBody s = .ended (s.endedBy code)) ∨
      (∃ sane clamped, s.status.prepared = true ∧
        (s.params.buildMode = .debug → clamped = false) ∧
        validate s.pend.settings s.actRate s.params.buildMode = .ok sane clamped ∧
        updateBody s = .updated (applyUpdate sane clamped s)) := by
  obtain ⟨h1, h2, h3⟩ := validate_cases s.pend.settings s.actRate s.params.buildMode
  unfold updateBody
  split
  · exact .inl ⟨.notPrepared, by decide, by rw [violate_eq_endedBy]⟩
  · rename_i hp
    split
    · rename_i code hv
      obtain ⟨hm, hc⟩ := h2 code hv
      exact .inl ⟨code, hc, by rw [State.endedBy, hm]; rfl⟩
    · rename_i code hv
      obtain ⟨hm, hc⟩ := h1 code hv
      exact .inl ⟨code, hc, by rw [State.endedBy, hm]; rfl⟩
    · rename_i sane clamped hv
      exact .inr ⟨sane, clamped, by simpa using hp, fun h => (h3 h _ _ hv).2, hv, rfl⟩

/-- What PREPARE can do (43_engine.md R205). -/
theorem execPrepare_cases (s : State) :
    (∃ code, code ≠ .none ∧ execPrepare s = .next (s.endedBy code)) ∨
      (rateAcceptable s.pend.rate = true ∧ maxBlockAcceptable s.params s.pend.maxBlock = true ∧
        execPrepare s = .next (endCommand (applyPrepare s))) := by
  unfold execPrepare
  split_ifs with h1 h2
  · exact .inl ⟨.rateInvalid, by decide, by rw [violate_eq_endedBy]⟩
  · exact .inl ⟨.maxBlockInvalid, by decide, by rw [violate_eq_endedBy]⟩
  · exact .inr ⟨by simpa using h1, by simpa using h2, rfl⟩

/-- What UPDATE can do (43_engine.md R206). -/
theorem execUpdate_cases (s : State) :
    (∃ code, code ≠ .none ∧ execUpdate s = .next (s.endedBy code)) ∨
      (∃ sane clamped, s.status.prepared = true ∧
        (s.params.buildMode = .debug → clamped = false) ∧
        validate s.pend.settings s.actRate s.params.buildMode = .ok sane clamped ∧
        execUpdate s = .next (endCommand (applyUpdate sane clamped s))) := by
  unfold execUpdate
  rcases updateBody_cases s with ⟨code, hc, h⟩ | ⟨sane, clamped, h1, h2, h3, h⟩ <;> rw [h]
  · exact .inl ⟨code, hc, rfl⟩
  · exact .inr ⟨sane, clamped, h1, h2, h3, rfl⟩

/-- What PROCESS can do (43_engine.md R207): it ends on a violation, stops on an unwritten word, or completes. -/
theorem execProcess_cases (n : Nat) (s : State) :
    (∃ code, code ≠ .none ∧ execProcess n s = .next (s.endedBy code)) ∨
      (∃ sane clamped, s.status.prepared = true ∧ n ≤ s.actMax.toNat ∧
        (s.params.buildMode = .debug → clamped = false) ∧
        validate s.pend.settings s.actRate s.params.buildMode = .ok sane clamped ∧
        ((execProcess n s = .fault .unwritten ∧ ∃ c, s.mem.readBlock (bufferOffset c 0) n = none) ∨
          ∃ xs ys, s.mem.readBlock (bufferOffset .left 0) n = some xs ∧ s.mem.readBlock (bufferOffset .right 0) n = some ys ∧
            execProcess n s = .next (endCommand (snapDelays (applyBlock xs ys (applyUpdate sane clamped s)))))) := by
  unfold execProcess
  split_ifs with h1 h2
  · exact .inl ⟨.notPrepared, by decide, by rw [violate_eq_endedBy]⟩
  · exact .inl ⟨.blockTooLong, by decide, by rw [violate_eq_endedBy]⟩
  · rcases updateBody_cases s with ⟨code, hc, h⟩ | ⟨sane, clamped, k1, k2, k3, h⟩ <;> rw [h]
    · exact .inl ⟨code, hc, rfl⟩
    · refine .inr ⟨sane, clamped, k1, by omega, k2, k3, ?_⟩
      simp only [processSamples, applyUpdate_mem]
      cases hl : s.mem.readBlock (bufferOffset .left 0) n with
      | none => exact .inl ⟨rfl, .left, hl⟩
      | some xs =>
        cases hr : s.mem.readBlock (bufferOffset .right 0) n with
        | none => exact .inl ⟨rfl, .right, hr⟩
        | some ys => exact .inr ⟨xs, ys, rfl, rfl, rfl⟩

end Sys2Proof.Machine
end

