-- ==== Sys2Proof/Laws/PerInstr.lean ====
section
/-! SUPPORT. One statement about every command as syntax, with one lemma per constructor. -/

namespace Sys2Proof.Laws.TableRow

/-- The `match` and `mask` of a command's row in spec/opcode_table.json. -/
def row : Instr → Nat × Nat
  | .nop => (0x00000000, 0xFFFFFFFF)
  | .prepare => (0x00000001, 0xFFFFFFFF)
  | .update => (0x00000002, 0xFFFFFFFF)
  | .process _ => (0x00000003, 0x0000FFFF)

/-- The word of a well-formed command is an instance of its row: its bits under the mask are the row's match. -/
def Statement (i : Instr) : Prop := i.wellFormed = true → (encode i).toNat &&& (row i).2 = (row i).1

theorem nop : Statement .nop := fun _ => by decide

theorem prepare : Statement .prepare := fun _ => by decide

theorem update : Statement .update := fun _ => by decide

theorem process (count : Nat) : Statement (.process count) := fun h => by
  have hc : count < 65536 := by simpa [Instr.wellFormed] using h
  show (BitVec.ofNat 32 (count * 2 ^ 16 + 3)).toNat &&& (2 ^ 16 - 1) = 3
  rw [BitVec.toNat_ofNat, Nat.and_two_pow_sub_one_eq_mod]
  omega

end Sys2Proof.Laws.TableRow
end

