-- ==== Sys2Proof/Laws/Step.lean ====
section
/-! SUPPORT. What a bus access and a step can do: one lemma for each outside event, and the inversion of a step that answers a next
state. -/

namespace Sys2Proof.Machine

/-! ### Bus accesses -/

theorem accessTarget_ok {s : State} {addr size : Nat} {r : Reg} :
    accessTarget s addr size = .ok r ↔
      target s.params addr size = some r ∧ ¬(s.phase = .busy ∧ r.closedWhileBusy = true) := by
  unfold accessTarget
  cases target s.params addr size with
  | none => simp
  | some q =>
    by_cases h : s.phase = .busy ∧ q.closedWhileBusy = true
    · simp only [h, decide_true, Bool.and_self, if_true, reduceCtorEq, Option.some.injEq, false_iff]
      rintro ⟨rfl, hn⟩
      exact hn ⟨trivial, h.2⟩
    · have hd : (decide (s.phase = .busy) && q.closedWhileBusy) = false := by simpa using h
      simp only [hd, Bool.false_eq_true, if_false, Except.ok.injEq, Option.some.injEq]
      constructor
      · rintro rfl; exact ⟨rfl, h⟩
      · exact And.left

theorem accessTarget_unmapped {s : State} {addr size : Nat} (h : target s.params addr size = none) :
    accessTarget s addr size = .error .busError := by rw [accessTarget, h]

theorem accessTarget_race {s : State} {addr size : Nat} {r : Reg} (h : target s.params addr size = some r)
    (hb : s.phase = .busy) (hr : r.closedWhileBusy = true) : accessTarget s addr size = .error .hostRace := by
  simp [accessTarget, h, hb, hr]

/-- An aligned offset into the window reaches what the register map has there. -/
theorem target_offset {p : Params} (h : p.wellFormed = true) {o : Nat} (ho : o % 4 = 0) :
    target p (p.base + o) 4 = regAt p o := by
  have hb : p.base % 4 = 0 := by
    simp only [Params.wellFormed, Bool.and_eq_true, decide_eq_true_eq] at h
    exact h.1.1
  unfold target
  rw [if_pos]
  · congr 1
    omega
  · simp
    omega

theorem hostRead_next {s t : State} {addr size : Nat} :
    hostRead addr size s = .next t ↔
      ∃ r v, accessTarget s addr size = .ok r ∧ readReg s r = some v ∧ t = { s with returned := v :: s.returned } := by
  unfold hostRead
  cases accessTarget s addr size with
  | error f => simp
  | ok r => cases h : readReg s r <;> simp [h, eq_comm]

theorem hostWrite_next {s t : State} {addr size : Nat} {v : Word} :
    hostWrite addr size v s = .next t ↔ ∃ r, accessTarget s addr size = .ok r ∧ t = writeReg s r v := by
  unfold hostWrite
  cases accessTarget s addr size with
  | error f => simp
  | ok r => simp [eq_comm]

/-- What a CMD write can do (43_engine.md R200). -/
theorem writeCommand_cases (w : Word) (s : State) :
    (s.status.fault = true ∧ writeCommand w s = s) ∨
    (s.status.fault = false ∧ s.phase = .busy ∧ writeCommand w s = setErrBusy s) ∨
    (s.status.fault = false ∧ s.phase = .idle ∧ (∃ why, decode w = .illegal why) ∧ writeCommand w s = setErrIllegal s) ∨
    (s.status.fault = false ∧ s.phase = .idle ∧ ∃ i, decode w = .command i ∧ writeCommand w s = acceptCommand i s) := by
  unfold writeCommand
  cases hf : s.status.fault <;> cases hp : s.phase <;> cases hd : decode w <;> simp

/-! ### Steps -/

theorem step_eq_advance {s : State} (h : s.params.wellFormed = true) : step s = advance s := by rw [step, if_pos h]

theorem step_write {s : State} {addr size : Nat} {v : Word} {rest : List HostEvent} (h : s.nextWrite addr size v rest) :
    step s = hostWrite addr size v { s with events := rest } := by
  rw [step_eq_advance h.1, advance, h.2]; rfl

theorem step_read {s : State} {addr size : Nat} {rest : List HostEvent} (h : s.nextRead addr size rest) :
    step s = hostRead addr size { s with events := rest } := by
  rw [step_eq_advance h.1, advance, h.2]; rfl

/-- A write whose place is open is the effect on that place. -/
theorem step_write_of_ok {s : State} {addr size : Nat} {v : Word} {rest : List HostEvent} {r : Reg}
    (h : s.nextWrite addr size v rest) (ht : target s.params addr size = some r)
    (hr : s.phase = .idle ∨ r.closedWhileBusy = false) : step s = .next (writeReg { s with events := rest } r v) := by
  rw [step_write h, hostWrite_next]
  refine ⟨r, accessTarget_ok.mpr ⟨ht, ?_⟩, rfl⟩
  rintro ⟨hb, hc⟩
  rcases hr with hr | hr
  · exact absurd (hr.symm.trans hb) (by decide)
  · rw [hc] at hr; cases hr

/-- A read whose place is open and written returns its word. -/
theorem step_read_of_ok {s : State} {addr size : Nat} {v : Word} {rest : List HostEvent} {r : Reg}
    (h : s.nextRead addr size rest) (ht : target s.params addr size = some r)
    (hr : s.phase = .idle ∨ r.closedWhileBusy = false) (hv : readReg s r = some v) :
    step s = .next { s with events := rest, returned := v :: s.returned } := by
  rw [step_read h, hostRead_next]
  refine ⟨r, v, accessTarget_ok.mpr ⟨ht, ?_⟩, ?_, rfl⟩
  · rintro ⟨hb, hc⟩
    rcases hr with hr | hr
    · exact absurd (hr.symm.trans hb) (by decide)
    · rw [hc] at hr; cases hr
  · rw [← hv]; cases r <;> rfl

/-- Everything a step that answers a next state can have done. -/
theorem step_cases {s t : State} (h : step s = .next t) :
    s.params.wellFormed = true ∧
      ((s.events = [] ∧ s.phase = .idle ∧ t = s) ∨
       (s.events = [] ∧ s.phase = .busy ∧ exec s.pend.cmd s = .next t) ∨
       ∃ e rest, s.events = e :: rest ∧
        ((e = .complete ∧ s.phase = .idle ∧ t = { s with events := rest }) ∨
         (e = .complete ∧ s.phase = .busy ∧ exec s.pend.cmd { s with events := rest } = .next t) ∨
         (e = .reset ∧ t = resetMachine { s with events := rest }) ∨
         (∃ addr size r v, e = .read addr size ∧ accessTarget { s with events := rest } addr size = .ok r ∧
            t = { s with events := rest, returned := v :: s.returned }) ∨
         (∃ addr size r v, e = .write addr size v ∧ accessTarget { s with events := rest } addr size = .ok r ∧
            t = writeReg { s with events := rest } r v))) := by
  unfold step at h
  split_ifs at h with hp
  refine ⟨hp, ?_⟩
  unfold advance at h
  split at h
  · rename_i he
    unfold coreMove at h
    split at h
    · exact .inr (.inl ⟨he, ‹_›, h⟩)
    · cases h; exact .inl ⟨he, ‹_›, rfl⟩
  · rename_i e rest he
    refine .inr (.inr ⟨e, rest, he, ?_⟩)
    unfold eventMove at h
    split at h
    · rename_i addr size v
      obtain ⟨r, h1, h2⟩ := hostWrite_next.mp h
      exact .inr (.inr (.inr (.inr ⟨addr, size, r, v, rfl, h1, h2⟩)))
    · rename_i addr size
      obtain ⟨r, v, h1, -, h2⟩ := hostRead_next.mp h
      exact .inr (.inr (.inr (.inl ⟨addr, size, r, v, rfl, h1, h2⟩)))
    · unfold coreMove at h
      split at h
      · exact .inr (.inl ⟨rfl, ‹_›, h⟩)
      · cases h; exact .inl ⟨rfl, ‹_›, rfl⟩
    · cases h; exact .inr (.inr (.inl ⟨rfl, rfl⟩))

end Sys2Proof.Machine
end

