-- ==== Sys2Proof/Tests/Slice0.lean ====
section
/-! SUPPORT. Tests of single steps and functions, with expected values from 95_test_vectors.md and the encoding tables, the
well-formedness smoke tests, and for each statement of Obligations.lean a witness that meets its hypotheses. -/

namespace Sys2Proof.Tests

set_option Elab.async false

open Sys2Proof.Machine

/-! ### The decoder (V-E10; 30_encoding.md R90, R91) -/

theorem test_decode_nop : decode 0b0000000000000000_000000000000_0000#32 = .command .nop := by decide

theorem test_decode_prepare : decode 0b0000000000000000_000000000000_0001#32 = .command .prepare := by decide

theorem test_decode_update : decode 0b0000000000000000_000000000000_0010#32 = .command .update := by decide

theorem test_decode_process : decode 0b0000000000000100_000000000000_0011#32 = .command (.process 4) := by decide

theorem test_decode_process_highest : decode 0b1111111111111111_000000000000_0011#32 = .command (.process 65535) := by decide

theorem test_decode_reserved_opcodes :
    [4, 5, 6, 7, 8, 9, 10, 11, 12, 13, 14, 15].all (fun op => decode (BitVec.ofNat 32 op) == .illegal .reservedOpcode) = true := by
  decide

theorem test_decode_reserved_field : decode 0x00000013 = .illegal .reservedField := by decide

theorem test_decode_count_not_allowed : decode 0x00010001 = .illegal .countNotAllowed := by decide

theorem test_decode_truncated : decodeBytes [3, 0, 4] = (.illegal .truncated, [3, 0, 4]) := by decide

/-- Little-endian (20_memory.md R64). -/
theorem test_decode_bytes : decodeBytes [3, 0, 4, 0, 0xAB] = (.command (.process 4), [0xAB]) := by decide

theorem test_encode_process : encodeBytes (.process 4) = [3, 0, 4, 0] := by decide

/-! ### Ill-formed terms are refused (30_encoding.md R92, 00_scope.md R8) -/

theorem test_process_count_too_wide : (Instr.process 65536).wellFormed = false := by decide

theorem test_process_count_widest : (Instr.process 65535).wellFormed = true := by decide

theorem test_base_misaligned : ({ Params.reference with base := 2 } : Params).wellFormed = false := by decide

theorem test_no_buffer : ({ Params.reference with bufCap := 0 } : Params).wellFormed = false := by decide

theorem test_buffer_too_large : ({ Params.reference with bufCap := 16385 } : Params).wellFormed = false := by decide

theorem test_reference_parameters : Params.reference.wellFormed = true := by decide

/-! ### Small states

An instance with its window at 0x40000000, four words a buffer and an implementation's own designer. -/

def smallParams : Params :=
  { base := 0x40000000, bufCap := 4, buildMode := .release, denormalMode := .ieee, snapToZero := .off, designArith := .supplied }

/-- PREPARE at 48000 with MAX_BLOCK 4 has run, and both buffers are written. -/
def ready (p : Params) : State :=
  { State.resetOf p with
    status := { Status.reset with prepared := true }
    sampleRate := 0x473B8000, actRate := 0x473B8000, actMax := 4
    mem := Memory.writeBlock (Memory.writeBlock [] (bufferOffset .left 0) [0x3F800000, 0, 0, 0]) (bufferOffset .right 0) [0, 0, 0, 0] }

/-- The core is busy with a command whose snapshot is these settings, the rate 48000 and the block size 4. -/
def busyWith (p : Params) (i : Instr) (settings : Settings) : State :=
  { ready p with phase := .busy, pend := { cmd := i, settings := settings, rate := 0x473B8000, maxBlock := 4 } }

def debugParams : Params := { smallParams with buildMode := .debug }

/-- A setting out of range, and one that is NaN. -/
def steep : Settings := { Settings.reset with lcs := 5 }

def nanFreq : Settings := { Settings.reset with lcf := 0x7FC00000 }

/-- The next state, if there is one. -/
def after? (o : Host.Outcome State Fault Refusal) : Option State :=
  match o with
  | .next t => some t
  | .fault _ => none
  | .refused _ => none

def faultOf (o : Host.Outcome State Fault Refusal) : Option Fault :=
  match o with
  | .next _ => none
  | .fault r => some r
  | .refused _ => none

theorem next_of_after? {o : Host.Outcome State Fault Refusal} (h : (after? o).isSome = true) : ∃ t, o = .next t := by
  cases o with
  | next t => exact ⟨t, rfl⟩
  | fault r => cases h
  | refused r => cases h

theorem eq_of_faultOf {o : Host.Outcome State Fault Refusal} {r : Fault} (h : faultOf o = some r) : o = .fault r := by
  cases o with
  | next t => cases h
  | fault q => cases h; rfl
  | refused q => cases h

/-! ### The commands, one step each -/

/-- V-E1: ACT_MAX = 512, STATUS = 0x002 after PREPARE. -/
theorem test_prepare :
    (after? (exec .prepare { State.reset with
        phase := .busy, pend := { cmd := .prepare, settings := Settings.reset, rate := 0x473B8000, maxBlock := 512 } })).map
      (fun t => (t.actRate, t.actMax, statusWord t.phase t.status)) = some (0x473B8000, 512, 0x002) := by decide +kernel

/-- V-E2: after PREPARE of the rate at reset, STATUS = 0x280. -/
theorem test_prepare_rate_zero :
    (after? (exec .prepare State.reset)).map (fun t => statusWord t.phase t.status) = some 0x280 := by decide +kernel

/-- V-D8: the default chain at 44100, slots 0, 4 and 5. -/
theorem test_update_default_chain :
    (after? (exec .update { ready Params.reference with
        actRate := 0x472C4400, pend := { Pending.reset with cmd := .update } })).map
      (fun t => ([0, 4, 5] : List (Fin 9)).map fun j => (t.stage .right j).coeffs) =
      some [⟨0x3F7F7C15, 0xBFFF7C15, 0x3F7F7C15, 0xBFFF7BF3, 0x3F7EF86F⟩,
        ⟨0x3F800000, 0xBFF1A73A, 0x3F661436, 0xBFF1A73A, 0x3F661436⟩,
        ⟨0x3F5030C1, 0x3FD030C1, 0x3F5030C1, 0x3FCBAFBC, 0x3F29638C⟩] := by decide +kernel

/-- V-E5: LCS = 5 clamps to 3, STATUS = 0x042, and the low-cut flags become 0, 0, 0, 0. -/
theorem test_update_clamps :
    (after? (exec .update (busyWith smallParams .update steep))).map
      (fun t => (t.snap.lcs, statusWord t.phase t.status, [(t.stage .left 0).byp, (t.stage .left 1).byp, (t.stage .left 2).byp,
        (t.stage .left 3).byp])) = some (3, 0x042, [false, false, false, false]) := by decide +kernel

/-- Program P3 of 95_test_vectors.md: the impulse through the default chain at 44100, left buffer. -/
theorem test_process_impulse :
    (after? (exec (.process 4) { ready Params.reference with
        actRate := 0x472C4400, pend := { Pending.reset with cmd := .process 4 } })).bind
      (fun t => t.mem.readBlock (bufferOffset .left 0) 4) =
      some [0x3F4FC579, 0x3EA82852, 0xBE840568, 0x3E3844F4] := by decide +kernel

/-- V-E9: PROCESS 65 with ACT_MAX = 64 gives 0x482. -/
theorem test_process_too_long :
    (after? (exec (.process 65) { ready Params.reference with actMax := 64 })).map (fun t => statusWord t.phase t.status) =
      some 0x482 := by decide +kernel

/-- V-E6, debug: LCS = 7 before PKF = NaN gives 0x506. -/
theorem test_update_debug_fault :
    (after? (exec .update (busyWith debugParams .update { Settings.reset with lcs := 7, pkf := 0x7FC00000 }))).map
      (fun t => statusWord t.phase t.status) = some 0x506 := by decide +kernel

/-! ### The designer (V-D1, V-D5) and the datapath (V-S1, V-S2, V-S6) -/

theorem test_design_peak :
    Design.peakExact 0x473B8000 0x447A0000 0x3F800000 0x40C0A8C1 =
      ⟨0x3F85A579, 0xBFF29D1F, 0x3F5E1F2C, 0xBFF29D1F, 0x3F696A1D⟩ := by decide +kernel

theorem test_design_highpass :
    Design.highpassExact 0x447A0000 0x473B8000 8 2 =
      ⟨0x3F6DAB82, 0xBFEDAB82, 0x3F6DAB82, 0xBFECA621, 0x3F5D61C7⟩ := by decide +kernel

theorem test_design_lowpass :
    Design.lowpassExact 0x447A0000 0x473B8000 8 3 =
      ⟨0x3B88AFCF, 0x3C08AFCF, 0x3B88AFCF, 0xBFF781DC, 0x3F734936⟩ := by decide +kernel

theorem test_stage_dyadic :
    stageStep .ieee (fun _ => 0) ⟨⟨0x3F000000, 0x3E800000, 0x3E000000, 0xBF000000, 0x3E800000⟩, 0xBD000000, 0x3C800000, false⟩
      0x40000000 =
      (⟨⟨0x3F000000, 0x3E800000, 0x3E000000, 0xBF000000, 0x3E800000⟩, 0x3F800000, 0x3C000000, false⟩, 0x3F780000) := by
  decide +kernel

theorem test_ties_to_even :
    (stageStep .ieee (fun _ => 0) ⟨Coeffs.neutral, 0x33800000, 0, false⟩ 0x3F800000).2 = 0x3F800000 ∧
      (stageStep .ieee (fun _ => 0) ⟨Coeffs.neutral, 0x34400000, 0, false⟩ 0x3F800000).2 = 0x3F800002 := by decide +kernel

theorem test_subnormal_product :
    F32.mul .ieee 0 0x00800000 0x3F000000 = 0x00400000 ∧ F32.mul .ftz 0 0x00800000 0x3F000000 = 0 := by decide +kernel

/-! ### Witnesses: encoding and sequencing -/

theorem witness_DecodeOfEncodeIsTheCommand :
    (Instr.process 65535).wellFormed = true ∧ (Instr.process 0).wellFormed = true ∧ Instr.nop.wellFormed = true := by decide

theorem witness_EncodeOfDecodedIsTheWord :
    decode 0xFFFF0003 = .command (.process 65535) ∧ decode 0x00000002 = .command .update := by decide

/-- A write of w to the window offset o is the next event. -/
def writing (s : State) (o : Nat) (w : Word) (rest : List HostEvent) : State :=
  { s with events := .write (s.params.base + o) 4 w :: rest }

/-- A read of the window offset o is the next event. -/
def reading (s : State) (o : Nat) : State := { s with events := [.read (s.params.base + o) 4] }

theorem nextWrite_writing (s : State) (o : Nat) (w : Word) (rest : List HostEvent) (h : s.params.wellFormed = true) :
    (writing s o w rest).nextWrite ((writing s o w rest).params.base + o) 4 w rest := ⟨h, rfl⟩

theorem nextRead_reading (s : State) (o : Nat) (h : s.params.wellFormed = true) :
    (reading s o).nextRead ((reading s o).params.base + o) 4 [] := ⟨h, rfl⟩

theorem witness_IllegalWordsSetOnlyErrIllegal :
    decode 0x00000004 = .illegal .reservedOpcode ∧ decode 0x0000FFFF = .illegal .reservedField ∧
      decode 0x00010000 = .illegal .countNotAllowed ∧
      (writing (ready smallParams) 0 4 []).nextWrite 0x40000000 4 4 [] ∧ (ready smallParams).phase = .idle ∧
      (ready smallParams).status.fault = false :=
  ⟨by decide, by decide, by decide, ⟨by decide, rfl⟩, rfl, rfl⟩

/-- A debug core in the fault state. -/
def faulted : State := { ready debugParams with status := { Status.reset with prepared := true, fault := true, cause := .slopeRange } }

/-- The four clauses: faulted, busy, idle with an illegal word, idle with a command. -/
theorem witness_CommandWriteFollowsAcceptance :
    ((writing faulted 0 1 []).nextWrite 0x40000000 4 1 [] ∧ faulted.status.fault = true) ∧
    ((writing (busyWith smallParams .nop steep) 0 1 []).nextWrite 0x40000000 4 1 [] ∧
      (busyWith smallParams .nop steep).status.fault = false ∧ (busyWith smallParams .nop steep).phase = .busy) ∧
    ((writing (ready smallParams) 0 15 []).nextWrite 0x40000000 4 15 [] ∧ (ready smallParams).status.fault = false ∧
      (ready smallParams).phase = .idle ∧ decode 15 = .illegal .reservedOpcode) ∧
    ((writing (ready smallParams) 0 0xFFFF0003 []).nextWrite 0x40000000 4 0xFFFF0003 [] ∧
      decode 0xFFFF0003 = .command (.process 65535)) :=
  ⟨⟨⟨by decide, rfl⟩, rfl⟩, ⟨⟨by decide, rfl⟩, rfl, rfl⟩, ⟨⟨by decide, rfl⟩, rfl, rfl, by decide⟩, ⟨by decide, rfl⟩, by decide⟩

theorem witness_StepCompletesThePendingCommand :
    (∃ s : State, s.params.wellFormed = true ∧ s.phase = .busy ∧ s.events = .complete :: []) ∧
    ∃ s : State, s.params.wellFormed = true ∧ s.phase = .busy ∧ s.events = [] :=
  ⟨⟨{ busyWith smallParams .nop steep with events := [.complete] }, by decide, rfl, rfl⟩,
    busyWith smallParams .nop steep, by decide, rfl, rfl⟩

theorem witness_WrittenCommandRunsAsDecoded :
    ∃ (s : State) (w : Word) (i : Instr) (rest : List HostEvent), s.nextWrite s.params.base 4 w (.complete :: rest) ∧
      s.phase = .idle ∧ s.status.fault = false ∧ decode w = .command i :=
  ⟨writing (ready smallParams) 0 0x00040003 [.complete], 0x00040003, .process 4, [], ⟨by decide, rfl⟩, rfl, rfl, by decide⟩

theorem witness_PlacedWordRunsNext :
    State.reset.params.wellFormed = true ∧ decode (BitVec.ofNat 32 0xFFFF0003) = .command (.process 65535) := by decide

theorem witness_AcceptedCommandCompletes :
    (writing (busyWith smallParams .nop steep) 0 1 []).phase = .busy ∧
      ∃ k t, k ≤ 2 ∧ Sys2Proof.core.run k (writing (busyWith smallParams .nop steep) 0 1 []) = .next t ∧ t.phase = .idle :=
  ⟨rfl, 2, _, Nat.le_refl _, rfl, rfl⟩

/-- The three clauses: an idle step that answers a next state, one that faults, one that is refused. -/
theorem witness_IdlePendingIsUnobservable :
    (∃ s t : State, s.phase = .idle ∧ step s = .next t) ∧ (∃ s : State, s.phase = .idle ∧ step s = .fault .busError) ∧
      ∃ s : State, s.phase = .idle ∧ step s = .refused .outsideParameterDomain :=
  ⟨⟨ready smallParams, _, rfl, rfl⟩, ⟨reading (ready smallParams) 0x03C, rfl, eq_of_faultOf (by decide +kernel)⟩,
    ready { smallParams with bufCap := 0 }, rfl, rfl⟩

/-! ### Witnesses: the commands -/

/-- The least and the greatest block size, and the least positive rate. -/
theorem witness_PrepareCompletes :
    F32.isNaN 1 = false ∧ F32.isFinite 1 = true ∧ 0 < F32.units 1 ∧ F32.isNaN 0x473B8000 = false ∧
      F32.isFinite 0x473B8000 = true ∧ 0 < F32.units 0x473B8000 ∧ 1 ≤ (1 : Word).toNat ∧
      (4 : Word).toNat ≤ smallParams.bufCap := by decide +kernel

/-- Every clause of the conclusion: bad rates, bad block sizes, no PREPARE, a block too long, a failing and a faulting
validation. -/
theorem witness_ViolatedChecksEndCommandsInOrder :
    (F32.isNaN 0x7FC00000 = true ∧ F32.isFinite 0x7F800000 = false ∧ F32.units 0x80000000 ≤ 0) ∧
    ((0 : Word).toNat = 0 ∧ smallParams.bufCap < (5 : Word).toNat) ∧ State.reset.status.prepared = false ∧
    ((ready smallParams).status.prepared = true ∧ (ready smallParams).actMax.toNat < 5) ∧
    validate nanFreq (ready smallParams).actRate .release = .fail .settingNan ∧
    validate steep (ready debugParams).actRate .debug = .fault .slopeRange ∧ 4 ≤ (ready smallParams).actMax.toNat := by
  decide +kernel

theorem witness_UpdateCompletes :
    (busyWith smallParams .update steep).status.prepared = true ∧
      validate steep 0x473B8000 .release = .ok { steep with lcs := 3 } true ∧
      validate Settings.reset 0x473B8000 .debug = .ok Settings.reset false := by decide +kernel

theorem witness_UpdateTwiceIsUpdateOnce : ∃ s t : State, exec .update s = .next t ∧ s.status.prepared = true :=
  ⟨busyWith smallParams .update steep, (next_of_after? (by decide +kernel)).choose,
    (next_of_after? (by decide +kernel)).choose_spec, rfl⟩

theorem witness_ProcessCompletes :
    (busyWith smallParams (.process 4) Settings.reset).params.wellFormed = true ∧
      (ready smallParams).status.prepared = true ∧ 4 ≤ (ready smallParams).actMax.toNat ∧
      (ready smallParams).actMax.toNat ≤ smallParams.bufCap ∧
      validate Settings.reset (ready smallParams).actRate .release = .ok Settings.reset false ∧
      (ready smallParams).mem.readBlock (bufferOffset .left 0) 4 = some [0x3F800000, 0, 0, 0] ∧
      (ready smallParams).mem.readBlock (bufferOffset .right 0) 4 = some [0, 0, 0, 0] := by decide +kernel

/-- The last word of the right buffer is unwritten. -/
def halfWritten : State :=
  { busyWith smallParams (.process 4) Settings.reset with
    mem := Memory.writeBlock (Memory.writeBlock [] (bufferOffset .left 0) [0, 0, 0, 0]) (bufferOffset .right 0) [0, 0, 0] }

theorem witness_ProcessOnUnwrittenWordFaults :
    halfWritten.status.prepared = true ∧ 4 ≤ halfWritten.actMax.toNat ∧
      validate halfWritten.pend.settings halfWritten.actRate halfWritten.params.buildMode = .ok Settings.reset false ∧
      3 < 4 ∧ halfWritten.mem.readWord (bufferOffset .right 3) = none := by decide +kernel

def snapParams : Params := { smallParams with snapToZero := .on }

theorem witness_ZeroLengthProcessIsUpdate :
    smallParams.snapToZero = .off ∧ snapParams.snapToZero = .on ∧
      ∃ t, exec .update (busyWith snapParams .update Settings.reset) = .next t ∧
        (busyWith snapParams .update Settings.reset).status.prepared = true ∧
        validate Settings.reset 0x473B8000 .release = .ok Settings.reset false :=
  ⟨rfl, rfl, (next_of_after? (by decide +kernel)).choose, (next_of_after? (by decide +kernel)).choose_spec, rfl,
    by decide +kernel⟩

/-- Each command answers a next state somewhere: the hypothesis of CommandsFailFaultOrComplete, CommandFrame,
CommandMemoryFrame and CommandsIgnoreTheLiveRegisters. -/
theorem witness_commands_answer :
    (after? (exec .nop (busyWith smallParams .nop steep))).isSome = true ∧
      (after? (exec .prepare (busyWith smallParams .prepare steep))).isSome = true ∧
      (after? (exec .update (busyWith smallParams .update steep))).isSome = true ∧
      (after? (exec (.process 4) (busyWith smallParams (.process 4) steep))).isSome = true ∧
      (after? (exec (.process 4) (busyWith debugParams (.process 4) nanFreq))).map (·.status.fault) = some true := by
  decide +kernel

/-- The bytes just outside the words of PROCESS 4, and the fault clause of CommandsIgnoreTheLiveRegisters. -/
theorem witness_memory_edges :
    (∀ c, bufferOffset .left 0 - 1 < bufferOffset c 0 ∨ bufferOffset c 0 + 4 * 4 ≤ bufferOffset .left 0 - 1) ∧
      (∀ c, bufferOffset .left 4 < bufferOffset c 0 ∨ bufferOffset c 0 + 4 * 4 ≤ bufferOffset .left 4) ∧
      faultOf (exec (.process 4) halfWritten) = some .unwritten :=
  ⟨fun c => by cases c <;> decide, fun c => by cases c <;> decide, by decide +kernel⟩

/-! ### Witnesses: validation -/

theorem witness_ValidatedSettingsAreInTheDesignDomain :
    validate { Settings.reset with pkf := 0xFF800000, pkg := 0x7F800000 } 0x473B8000 .release =
      .ok { Settings.reset with pkf := 0x41A00000, pkg := 0x41C00000 } true := by decide +kernel

/-- Without a NaN below and at Nyquist (V-E7: 19999 Hz and 20000 Hz at a rate of 40000), and with one. -/
theorem witness_ReleaseValidationClampsOrFails :
    (({ Settings.reset with hcf := 0x469C3E00 } : Settings).NoNaN ∧
      ({ Settings.reset with hcf := 0x469C3E00 } : Settings).clampAll.BelowNyquist 0x471C4000) ∧
    (Settings.reset.NoNaN ∧ ¬ Settings.reset.clampAll.BelowNyquist 0x471C4000) ∧ ¬ nanFreq.NoNaN := by
  refine ⟨⟨fun f => by cases f <;> decide +kernel, by decide +kernel, by decide +kernel, by decide +kernel⟩,
    ⟨fun f => by cases f <;> decide +kernel, fun h => ?_⟩, fun h => ?_⟩
  · exact absurd h.2.1 (by decide +kernel)
  · exact absurd (h .lcf) (by decide +kernel)

/-! ### Witnesses: arithmetic, designer, datapath -/

/-- SumAndDifferenceAreRoundedOnce and ProductIsRoundedOnce: the greatest finite value, a zero sum of opposite zeros and a zero difference. -/
theorem witness_finite_operands :
    F32.isFinite 0x7F7FFFFF = true ∧ F32.isFinite 0x80000000 = true ∧ F32.units 0x80000000 + F32.units 0 = 0 ∧
      F32.units 0x3F800000 - F32.units 0x3F800000 = 0 := by decide +kernel

/-- A NaN operand; an infinite with a finite one, zero or not, in either order; two infinities of equal and of different signs. -/
theorem witness_NonFiniteOperandsFollowIeee :
    F32.isNaN 0xFFFFFFFF = true ∧ F32.isNaN 0x7F800001 = true ∧ F32.isInf 0xFF800000 = true ∧ F32.isFinite 0x80000000 = true ∧
      F32.isFinite 0x7F7FFFFF = true ∧ F32.isZero (F32.flush .ieee 0x80000000) = true ∧
      F32.isZero (F32.flush .ftz 0x00000001) = true ∧ F32.isZero (F32.flush .ieee 0x00000001) = false ∧
      F32.isZero (F32.flush .ftz 0x7F7FFFFF) = false ∧ F32.isInf 0x7F800000 = true ∧
      F32.sign 0x7F800000 ≠ F32.sign 0xFF800000 := by decide +kernel

/-- Subnormal operands of both signs, and operands that are not subnormal with a normal and with a subnormal product. -/
theorem witness_FlushToZeroFlushesOperandsAndResults :
    F32.isSubnormal 0x00000001 = true ∧ F32.isSubnormal 0x807FFFFF = true ∧ F32.isSubnormal 0x00800000 = false ∧
      F32.isSubnormal 0x3F000000 = false ∧ F32.isSubnormal (F32.mul .ieee 0 0x00800000 0x3F000000) = true ∧
      F32.isSubnormal (F32.mul .ieee 0 0x40000000 0x3F000000) = false ∧
      F32.isSubnormal (F32.sub .ieee 0 0x00800001 0x00800000) = true := by decide +kernel

/-- V-D1's operands, the quarter of the rate, where the peak's b1 is 0, and the greatest rate with the smallest frequency. -/
theorem witness_PeakDesignIsRoundedExactly :
    F32.isFinite 0x473B8000 = true ∧ F32.isFinite 0x447A0000 = true ∧ F32.isFinite 0x3F800000 = true ∧
      F32.isFinite 0x40C0A8C1 = true ∧ 0 < F32.units 0x447A0000 ∧ 2 * F32.units 0x447A0000 < F32.units 0x473B8000 ∧
      0 < F32.units 0x3F800000 ∧ F32.isFinite 0x463B8000 = true ∧ 0 < F32.units 0x463B8000 ∧
      2 * F32.units 0x463B8000 < F32.units 0x473B8000 ∧ F32.isFinite 0x7F7FFFFF = true ∧
      2 * F32.units 0x41A00000 < F32.units 0x7F7FFFFF := by decide +kernel

/-- HighpassDesignIsRoundedExactly and LowpassDesignIsRoundedExactly: the first and the last section of orders 2 and 8 at 20 Hz, at
48000 and at the greatest rate. -/
theorem witness_cut_designs :
    F32.isFinite 0x473B8000 = true ∧ F32.isFinite 0x41A00000 = true ∧ F32.isFinite 0x7F7FFFFF = true ∧
      0 < F32.units 0x41A00000 ∧ 2 * F32.units 0x41A00000 < F32.units 0x473B8000 ∧
      2 * F32.units 0x41A00000 < F32.units 0x7F7FFFFF ∧ 8 % 2 = 0 ∧ 3 < 8 / 2 ∧ 2 % 2 = 0 ∧ 0 < 2 / 2 := by decide +kernel

theorem witness_AssignEnablesExactlyThePrefix :
    3 ≤ 3 ∧ (designHighpassCascade .supplied 0x41A00000 0x473B8000 8).length = 3 + 1 ∧
      (designHighpassCascade .supplied 0x41A00000 0x473B8000 2).length = 0 + 1 := by decide

theorem witness_SamplesChangeNoCoefficient :
    ∃ s t u : State, 4 ≤ s.actMax.toNat ∧ exec .update s = .next u ∧ exec (.process 4) s = .next t :=
  ⟨busyWith smallParams (.process 4) steep, (next_of_after? (by decide +kernel)).choose,
    (next_of_after? (by decide +kernel)).choose, by decide, (next_of_after? (by decide +kernel)).choose_spec,
    (next_of_after? (by decide +kernel)).choose_spec⟩

theorem witness_BypassedStagesStayFrozen :
    (after? (exec (.process 4) (busyWith snapParams (.process 4) Settings.reset))).map (fun t => (t.stage .left 1).byp) =
      some true := by decide +kernel

/-- A NaN sample or delay, no sample and some samples. -/
theorem witness_NanStaysInAStage :
    F32.isNaN 0x7FC00000 = true ∧ F32.isNaN 0xFF800001 = true ∧ ([0x3F800000] : List Word) ≠ [] := by decide

/-- V-S8's stage: the 0 dB peak at 44100, with delays +0 and -0, and the sample -1.0. -/
theorem witness_IdentityStagePassesItsInput :
    F32.isZero 0x80000000 = true ∧ F32.isZero 0 = true ∧ F32.isFinite 0xBF800000 = true ∧ F32.isZero 0xBF800000 = false ∧
      F32.isFinite (F32.mul .ieee 0 0xBFF1A73A 0xBF800000) = true ∧
      F32.isFinite (F32.mul .ieee 0 0x3F661436 0xBF800000) = true := by decide +kernel

/-- V-S1's stage, samples 1, 0 and 0. -/
theorem witness_ExactStepsFollowTheDifferenceEquation :
    let st : Stage := ⟨⟨0x3F000000, 0x3E800000, 0x3E000000, 0xBF000000, 0x3E800000⟩, 0, 0, false⟩
    let r0 := stageStep .ieee (fun _ => 0) st 0x3F800000
    let r1 := stageStep .ieee (fun _ => 0) r0.1 0
    let r2 := stageStep .ieee (fun _ => 0) r1.1 0
    StepExact .ieee (fun _ => 0) st 0x3F800000 ∧ StepExact .ieee (fun _ => 0) r0.1 0 ∧ StepExact .ieee (fun _ => 0) r1.1 0 ∧
      F32.units r2.2 ≠ 0 := by
  unfold StepExact
  decide +kernel

/-- T itself is snapped, the next value above it is not, and a NaN is. -/
theorem witness_SnapZeroesSmallDelays :
    (F32.isNaN 0x322BCC78 = false ∧ F32.units 0x322BCC77 < F32.units 0x322BCC78) ∧
    (-F32.units 0x322BCC77 ≤ F32.units 0xB22BCC77 ∧ F32.units 0xB22BCC77 ≤ F32.units 0x322BCC77) ∧
    F32.isNaN 0x7FC00000 = true ∧ ((ready snapParams).stage .left 1).byp = true ∧ ((ready snapParams).stage .left 0).byp = false ∧
    (ready snapParams).params.snapToZero = .on ∧ (ready smallParams).params.snapToZero = .off := by decide +kernel

/-- Two states that differ in the right channel's stages and buffer. -/
theorem witness_ChannelsDoNotInterfere :
    ∃ s s' t t' : State, s.params.wellFormed = true ∧ s.actMax.toNat ≤ s.params.bufCap ∧ s'.params = s.params ∧
      s'.pend = s.pend ∧ s'.status = s.status ∧ s'.actRate = s.actRate ∧ s'.actMax = s.actMax ∧ s'.drawClock = s.drawClock ∧
      s'.chain .left = s.chain .left ∧
      (∀ a, bufferOffset .left 0 ≤ a → a < bufferOffset .left 0 + 0x10000 → s'.mem.readByte a = s.mem.readByte a) ∧
      exec (.process 4) s = .next t ∧ exec (.process 4) s' = .next t' ∧ s'.right ≠ s.right ∧ s'.mem ≠ s.mem := by
  refine ⟨busyWith smallParams (.process 4) steep,
    { busyWith smallParams (.process 4) steep with
      right := Chain.reset.set 8 { Stage.reset true with s1 := 1 }
      mem := (ready smallParams).mem.writeWord (bufferOffset .right 3) 0x3F800000 },
    _, _, by decide, by decide, rfl, rfl, rfl, rfl, rfl, rfl, rfl, fun a _ h => ?_,
    (next_of_after? (by decide +kernel)).choose_spec, (next_of_after? (by decide +kernel)).choose_spec,
    by decide +kernel, by decide +kernel⟩
  exact Memory.readByte_writeWord_of_ne _ (.inl (Nat.lt_of_lt_of_le h (by decide)))

/-! ### Witnesses: the host bus, reset and the invariant -/

/-- Each kind of bad access at an edge of its range. -/
theorem witness_BadAccessesAreBusErrors :
    (2 ≠ 4 ∧ 0x40000001 % 4 ≠ 0 ∧ 0x3FFFFFFC < smallParams.base) ∧ UnmappedOffset smallParams 0x03C ∧
      UnmappedOffset smallParams 0x05C ∧ UnmappedOffset smallParams 0x3FC ∧ UnmappedOffset smallParams 0x520 ∧
      UnmappedOffset smallParams 0x720 ∧ UnmappedOffset smallParams 0xFFFC ∧ UnmappedOffset smallParams 0x10010 ∧
      UnmappedOffset smallParams 0x20010 ∧ UnmappedOffset smallParams 0x30000 ∧
      (writing (ready smallParams) 0x03C 0 []).nextWrite (0x40000000 + 0x03C) 4 0 [] ∧
      (reading (ready smallParams) 0x03C).nextRead (0x40000000 + 0x03C) 4 [] := by
  refine ⟨by decide, ?_, ?_, ?_, ?_, ?_, ?_, ?_, ?_, ?_, ⟨by decide, rfl⟩, by decide, rfl⟩ <;> (unfold UnmappedOffset; decide)

theorem witness_RegisterMapIsAsTabled :
    smallParams.wellFormed = true ∧ 3 < smallParams.bufCap ∧
      ({ smallParams with bufCap := 16384 } : Params).wellFormed = true := by decide

/-- Every kind of place that is closed while BUSY. -/
theorem witness_AccessesWhileBusyAreRaces :
    (busyWith smallParams .nop steep).phase = .busy ∧ target smallParams 0x40000400 4 = some (.stage .left 0 0) ∧
      target smallParams 0x4000071C 4 = some (.stage .right 8 7) ∧ target smallParams 0x4002000C 4 = some (.buffer .right 3) ∧
      target smallParams 0x40000040 4 = some (.snap .lcf) ∧ target smallParams 0x40000010 4 = some .actRate ∧
      target smallParams 0x40000014 4 = some .actMax ∧
      (reading (busyWith smallParams .nop steep) 0x400).nextRead (0x40000000 + 0x400) 4 [] ∧
      (writing (busyWith smallParams .nop steep) 0x400 0 []).nextWrite (0x40000000 + 0x400) 4 0 [] :=
  ⟨rfl, by decide, by decide, by decide, by decide, by decide, by decide, ⟨by decide, rfl⟩, by decide, rfl⟩

theorem witness_ReadsHaveNoSideEffects : ∃ t, (reading (ready smallParams) 4).nextRead 0x40000004 4 [] ∧
    step (reading (ready smallParams) 4) = .next t :=
  ⟨_, ⟨by decide, rfl⟩, (next_of_after? (by decide +kernel)).choose_spec⟩

/-- Every offset of both lists: those of either phase on a busy and on an idle core, the others on an idle core. -/
theorem witness_ControlRegisterReads :
    (∀ o ∈ [0x000, 0x008, 0x00C, 0x018, 0x01C, 0x020, 0x024, 0x028, 0x02C, 0x030, 0x034, 0x038],
      (reading (busyWith smallParams .nop steep) o).nextRead (0x40000000 + o) 4 [] ∧
        (reading (busyWith smallParams .nop steep) o).phase = .busy ∧
        (reading (ready smallParams) o).nextRead (0x40000000 + o) 4 []) ∧
    ∀ o ∈ [0x010, 0x014, 0x040, 0x044, 0x048, 0x04C, 0x050, 0x054, 0x058],
      (reading (ready smallParams) o).nextRead (0x40000000 + o) 4 [] ∧ (reading (ready smallParams) o).phase = .idle := by
  have h : smallParams.wellFormed = true := by decide
  exact ⟨fun o _ => ⟨⟨h, rfl⟩, rfl, h, rfl⟩, fun o _ => ⟨⟨h, rfl⟩, rfl⟩⟩

/-- The reads of StatusReadShowsTheFlags (busy and idle) and StageReadbackShowsTheStage, and the last two clauses of
BufferWordsReadBackAsWritten: a word that holds a value, and the last word of a buffer, unwritten. -/
theorem witness_reads :
    (reading (busyWith smallParams .nop steep) 0x004).nextRead (0x40000000 + 0x004) 4 [] ∧
      (reading (ready smallParams) 0x004).nextRead (0x40000000 + 0x004) 4 [] ∧ (ready smallParams).phase = .idle ∧
      (reading (ready smallParams) 0x71C).nextRead (0x40000000 + 0x400 + 0x200 * 1 + 0x20 * 8 + 4 * 7) 4 [] ∧
      (reading (ready smallParams) 0x10000).nextRead (0x40000000 + 0x10000 + 0x10000 * 0 + 4 * 0) 4 [] ∧
      (ready smallParams).mem.readWord (bufferOffset .left 0) = some 0x3F800000 ∧
      (reading { halfWritten with phase := .idle } 0x2000C).nextRead (0x40000000 + 0x10000 + 0x10000 * 1 + 4 * 3) 4 [] ∧
      3 < smallParams.bufCap ∧ halfWritten.mem.readWord (bufferOffset .right 3) = none :=
  ⟨⟨by decide, rfl⟩, ⟨by decide, rfl⟩, rfl, ⟨by decide, rfl⟩, ⟨by decide, rfl⟩, by decide +kernel, ⟨by decide, rfl⟩, by decide,
    by decide +kernel⟩

/-- The writes: StatusWriteClearsExactlyTheSetBits, SettingsWritesStoreAnyValueAtAnyTime and the written clause of
BufferWordsReadBackAsWritten. -/
theorem witness_writes :
    ∀ o ∈ [0x004, 0x008, 0x00C, 0x020, 0x024, 0x028, 0x02C, 0x030, 0x034, 0x038, 0x10000, 0x2000C],
      (writing (ready smallParams) o 0xFFFFFFFF [.read (0x40000000 + o) 4]).nextWrite (0x40000000 + o) 4 0xFFFFFFFF
        [.read (0x40000000 + o) 4] := fun _ _ => ⟨(by decide : smallParams.wellFormed = true), rfl⟩

theorem witness_ReadOnlyWritesAreIgnored :
    target smallParams 0x40000018 4 = some .id ∧ target smallParams 0x4000001C 4 = some .cap ∧
      target smallParams 0x40000058 4 = some (.snap .pkg) ∧ (ready smallParams).phase = .idle ∧
      (writing (ready smallParams) 0x058 1 []).nextWrite 0x40000058 4 1 [] ∧
      (writing (busyWith smallParams .nop steep) 0x018 1 []).nextWrite 0x40000018 4 1 [] :=
  ⟨by decide, by decide, by decide, rfl, ⟨by decide, rfl⟩, by decide, rfl⟩

theorem witness_ResetValuesAreAsTabled : ({ smallParams with bufCap := 16384 } : Params).bufCap < 2 ^ 32 := by decide

theorem witness_ResetRestoresTheResetState : ∃ s : State, s.params.wellFormed = true ∧ s.events = .reset :: [] ∧ s.phase = .busy :=
  ⟨{ busyWith smallParams .nop steep with events := [.reset] }, by decide, rfl, rfl⟩

/-- A faulted core that stays faulted, and one that is reset. -/
theorem witness_FaultIsLeftOnlyByReset :
    faulted.status.fault = true ∧
      ((after? (step (writing faulted 0 1 []))).map (·.status.fault) = some true) ∧
      ((after? (step { faulted with events := [.reset] })).map (·.status.fault) = some false) := by decide +kernel

theorem witness_ResetMeetsTheInvariant : smallParams.wellFormed = true ∧ Params.reference.wellFormed = true := by decide

/-- The invariant can be met: by the reference instance at reset. -/
theorem witness_StepKeepsTheInvariant : State.reset.Inv ∧ ∃ t, step State.reset = .next t := by
  refine ⟨{
    params := by decide
    memWf := rfl
    memInside := fun a h => by cases h
    memWhole := fun c i k _ _ => rfl
    cascades := fun c => ?_
    stereo := fun j => ⟨rfl, rfl⟩
    snapSane := fun f => by cases f <;> decide +kernel
    actMaxFits := by decide
    rateLatched := fun h => by cases h
    latchesReset := fun _ => ⟨rfl, rfl⟩
    faultIdle := fun _ => rfl
    releaseNoFault := fun _ => rfl
    debugNoFail := fun h => by cases h
    pendEncodable := rfl }, _, rfl⟩
  cases c <;> exact ⟨⟨0, by decide, by unfold Cascade.prefixEnabled; decide⟩, 0, by decide, by unfold Cascade.prefixEnabled; decide⟩

end Sys2Proof.Tests
end

section
/-! PROOFS. ⊕, ⊖ and ⊗ of finite data are the exact results rounded once (00_scope.md R10): O27 and O28. -/

namespace Sys2Proof.Machine.F32

/-- Only the exact zero is packed by hand: every other sum goes through `roundReal`. -/
theorem addFinite_eq_roundReal {x y : Word} (h : units x + units y ≠ 0) :
    addFinite x y = roundReal (units x + units y) 1 := by
  rw [addFinite, roundReal, if_neg h, if_neg h]

theorem addFinite_of_zero_sum {x y : Word} (h : units x + units y = 0) : addFinite x y = pack (sign x && sign y) 0 :=
  if_pos h

theorem isRounding_addFinite (x y : Word) : IsRounding ((units x : ℝ) + units y) (addFinite x y) := by
  rw [← Int.cast_add]
  by_cases h : units x + units y = 0
  · rw [addFinite_of_zero_sum h, h, Int.cast_zero]
    exact isRounding_zero _
  · rw [addFinite_eq_roundReal h]
    simpa using isRounding_roundReal (units x + units y) Nat.one_pos

theorem sign_addFinite_of_zero_sum {x y : Word} (h : units x + units y = 0) :
    sign (addFinite x y) = (sign x && sign y) := by
  rw [addFinite_of_zero_sum h, sign_pack (by norm_num)]

/-- A difference is the sum with the negated operand, also in the finite case. -/
theorem sub_of_finite (d : BitVec 23) {x y : Word} (hx : isFinite x = true) (hy : isFinite y = true) :
    sub .ieee d x y = addFinite x (neg y) :=
  add_of_finite d hx ((isFinite_neg y).trans hy)

theorem roundMag_zero (den : Nat) : roundMag 0 den = 0 := by simp [roundMag, binade, roundQuot]

theorem roundMag_lt (num den : Nat) : roundMag num den < 2 ^ 31 :=
  (roundMag_le num den).trans_lt (by norm_num [infMag])

/-- The sign rule of the exact product. -/
theorem units_mul_units (x y : Word) :
    units x * units y =
      if sign x != sign y then -((magUnits (mag x) * magUnits (mag y) : Nat) : Int)
      else ((magUnits (mag x) * magUnits (mag y) : Nat) : Int) := by
  unfold units
  cases sign x <;> cases sign y <;> simp

theorem isRounding_mul_of_finite (d : BitVec 23) {x y : Word} (hx : isFinite x = true) (hy : isFinite y = true) :
    IsRounding ((units x : ℝ) * units y / 2 ^ 149) (mul .ieee d x y) := by
  rw [mul_of_finite d hx hy, ← Int.cast_mul, units_mul_units]
  generalize magUnits (mag x) * magUnits (mag y) = num
  generalize (sign x != sign y) = neg
  by_cases hz : num = 0
  · subst hz
    rw [roundMag_zero]
    simpa using isRounding_zero neg
  · have hr := isRounding_pack (den := 2 ^ 149) (by positivity) neg hz
    rw [Nat.cast_pow, Nat.cast_ofNat] at hr
    cases neg <;> simpa [neg_div] using hr

theorem sign_mul_of_finite (d : BitVec 23) {x y : Word} (hx : isFinite x = true) (hy : isFinite y = true) :
    sign (mul .ieee d x y) = (sign x != sign y) := by
  rw [mul_of_finite d hx hy, sign_pack (roundMag_lt _ _)]

end Sys2Proof.Machine.F32

namespace Sys2Proof

open Machine Machine.F32

/-- Settles O27: both operations are `addFinite`, the difference on the negated operand, whose units and sign are opposite. -/
theorem sumAndDifferenceAreRoundedOnce : Obligations.SumAndDifferenceAreRoundedOnce := by
  intro d x y hx hy
  rw [add_of_finite d hx hy, sub_of_finite d hx hy]
  refine ⟨isRounding_addFinite x y, ?_, sign_addFinite_of_zero_sum, fun h => ?_⟩
  · have hr := isRounding_addFinite x (neg y)
    rwa [units_neg, Int.cast_neg, ← sub_eq_add_neg] at hr
  · rw [sign_addFinite_of_zero_sum (by rw [units_neg, ← sub_eq_add_neg, h]), sign_neg]

/-- Settles O28: the exact product of the units carries the product of the signs, and its magnitude is rounded once. -/
theorem productIsRoundedOnce : Obligations.ProductIsRoundedOnce :=
  fun d _ _ hx hy => ⟨isRounding_mul_of_finite d hx hy, sign_mul_of_finite d hx hy⟩

end Sys2Proof
end

section
/-! PROOFS. What validation lets through is inside the limits of 43_engine.md R204. -/

namespace Sys2Proof.Machine

theorem Settings.get_set_self (s : Settings) (f : Field) (v : Word) : (s.set f v).get f = v := by cases f <;> rfl

theorem Settings.get_set_of_ne (s : Settings) {f g : Field} (v : Word) (h : g ≠ f) : (s.set f v).get g = s.get g := by
  cases f <;> cases g <;> first | rfl | exact absurd rfl h

theorem Field.limits_inRange (f : Field) : f.inRange f.limits.1 = true ∧ f.inRange f.limits.2.1 = true := by
  cases f <;> decide

/-- A value that its check keeps, and a value that the check puts in its place, are inside the limits. -/
theorem checkField_inRange (mode : BuildMode) (f : Field) (v : Word) :
    (checkField mode f v = .keep → f.inRange v = true) ∧ ∀ w, checkField mode f v = .clamp w → f.inRange w = true := by
  obtain ⟨hlo, hhi⟩ := f.limits_inRange
  unfold checkField FieldCheck.violation
  split_ifs with hnan hlow hhigh
  · cases mode <;> simp
  · cases mode <;> simp [hlo]
  · cases mode <;> simp [hhi]
  · rw [Bool.not_eq_true] at hnan hlow hhigh
    simp [Field.inRange, hnan, hlow, hhigh]

/-- The loop puts every field it visits inside its limits and leaves the others. -/
theorem checkFields_inRange {mode : BuildMode} {fs : List Field} (hn : fs.Nodup) {settings sane : Settings} {clamped c : Bool}
    (h : checkFields mode fs settings clamped = .ok sane c) (f : Field) :
    (f ∈ fs → f.inRange (sane.get f) = true) ∧ (f ∉ fs → sane.get f = settings.get f) := by
  induction fs generalizing settings clamped with
  | nil => cases h; exact ⟨fun hf => absurd hf List.not_mem_nil, fun _ => rfl⟩
  | cons g fs ih =>
    obtain ⟨hg, hn⟩ := List.nodup_cons.mp hn
    obtain ⟨keep, clamp⟩ := checkField_inRange mode g (settings.get g)
    unfold checkFields at h
    split at h
    case h_1 hk =>
      obtain ⟨visited, left⟩ := ih hn h
      refine ⟨fun hf => ?_, fun hf => left fun hm => hf (List.mem_cons_of_mem g hm)⟩
      rcases List.mem_cons.mp hf with rfl | hf
      · rw [left hg]; exact keep hk
      · exact visited hf
    case h_2 w hc =>
      obtain ⟨visited, left⟩ := ih hn h
      refine ⟨fun hf => ?_, fun hf => ?_⟩
      · rcases List.mem_cons.mp hf with rfl | hf
        · rw [left hg, Settings.get_set_self]; exact clamp w hc
        · exact visited hf
      · obtain ⟨hfg, hf⟩ := not_or.mp (mt List.mem_cons.mpr hf)
        rw [left hf, Settings.get_set_of_ne _ _ hfg]
    all_goals cases h

/-- 43_engine.md R204: the settings that validation answers are inside their limits. -/
theorem validate_inRange {settings sane : Settings} {rate : Word} {mode : BuildMode} {clamped : Bool}
    (h : validate settings rate mode = .ok sane clamped) : sane.InRange := by
  intro f
  unfold validate at h
  split at h
  case h_1 sane' c hc =>
    split_ifs at h
    · cases mode <;> cases h
    · cases h
      exact (checkFields_inRange (by decide) hc f).1 (by cases f <;> decide)
  all_goals cases h

theorem Settings.reset_inRange : Settings.reset.InRange := fun f => by cases f <;> decide

/-- A slope index inside its limits picks one of the four orders (40_designer.md R129). -/
theorem Settings.InRange.slopes {s : Settings} (h : s.InRange) : s.lcs.toNat ≤ 3 ∧ s.hcs.toNat ≤ 3 := by
  have slope : ∀ v : Word, Field.lcs.inRange v = true → v.toNat ≤ 3 := fun v hv => by
    simpa [Field.inRange, Field.lt, Field.isFloat, Field.limits] using hv
  exact ⟨slope _ (h .lcs), slope _ (h .hcs)⟩

end Sys2Proof.Machine
end

section
/-! PROOFS. Sample memory that holds whole words of the two buffers and nothing else (20_memory.md R62, R72) stays so. -/

namespace Sys2Proof.Machine

/-- The clauses of the machine's invariant that speak of sample memory. -/
structure BufferMemory (p : Params) (m : Memory) : Prop where
  wf : m.wf = true
  inside : ∀ a, (m.readByte a).isSome = true → InBuffers p a
  whole : WholeWords p m

theorem Memory.readByte_writeWord_isSome (m : Memory) (a x : Nat) (w : Word) :
    (readByte (writeWord m a w) x).isSome = true ↔ (a ≤ x ∧ x < a + 4) ∨ (readByte m x).isSome = true := by
  by_cases h : a ≤ x ∧ x < a + 4
  · obtain ⟨k, rfl⟩ := Nat.exists_eq_add_of_le h.1
    have hk : k < 4 := by omega
    rw [readByte_writeWord]
    interval_cases k <;> simp
  · rw [readByte_writeWord_of_ne w (by omega)]
    simp [h]

theorem bufferOffset_mod_four (c : Channel) (i : Nat) : bufferOffset c i % 4 = 0 := by unfold bufferOffset; omega

theorem bufferOffset_eq_add (c : Channel) (i : Nat) : bufferOffset c i = bufferOffset c 0 + 4 * i := rfl

theorem BufferMemory.writeWord {p : Params} {m : Memory} (h : BufferMemory p m) (c : Channel) {i : Nat} (hi : i < p.bufCap)
    (w : Word) : BufferMemory p (m.writeWord (bufferOffset c i) w) where
  wf := Memory.wf_writeWord _ w h.wf
  inside a ha := by
    rcases (Memory.readByte_writeWord_isSome ..).mp ha with ha | ha
    · exact ⟨c, i, hi, ha⟩
    · exact h.inside a ha
  whole c' i' k hi' hk := by
    have hw := h.whole c' i' k hi' hk
    have ha := bufferOffset_mod_four c i
    have hb := bufferOffset_mod_four c' i'
    have hword : (bufferOffset c i ≤ bufferOffset c' i' + k ∧ bufferOffset c' i' + k < bufferOffset c i + 4) ↔
        (bufferOffset c i ≤ bufferOffset c' i' ∧ bufferOffset c' i' < bufferOffset c i + 4) := by omega
    rw [Bool.eq_iff_iff, Memory.readByte_writeWord_isSome, Memory.readByte_writeWord_isSome, hw, hword]

theorem BufferMemory.writeBlock {p : Params} {m : Memory} (h : BufferMemory p m) (c : Channel) {i : Nat} (ws : List Word)
    (hi : i + ws.length ≤ p.bufCap) : BufferMemory p (m.writeBlock (bufferOffset c i) ws) := by
  induction ws generalizing m i with
  | nil => exact h
  | cons w ws ih =>
    rw [List.length_cons] at hi
    exact ih (h.writeWord c (by omega) w) (i := i + 1) (by omega)

end Sys2Proof.Machine
end

section
/-! PROOFS. The bypass flags stay contiguous (10_state.md R34) and the channels equal (R39): `StereoCopies` of a chain before and
after an operation says that the operation changes delay elements only. -/

namespace Sys2Proof.Machine

theorem StereoCopies.symm {l r : Chain} (h : StereoCopies l r) : StereoCopies r l := fun j => ⟨(h j).1.symm, (h j).2.symm⟩

theorem StereoCopies.trans {a b c : Chain} (h : StereoCopies a b) (k : StereoCopies b c) : StereoCopies a c :=
  fun j => ⟨(h j).1.trans (k j).1, (h j).2.trans (k j).2⟩

/-- Both cascades of a chain have contiguous bypass flags (10_state.md R34). -/
def Chain.Contiguous (ch : Chain) : Prop := ch.lowCut.Contiguous ∧ ch.highCut.Contiguous

theorem Cascade.Contiguous.of_byp {c c' : Cascade} (h : c.Contiguous) (hb : ∀ k, (c'.get k).byp = (c.get k).byp) :
    c'.Contiguous := by
  obtain ⟨oi, ho, hp⟩ := h
  exact ⟨oi, ho, fun k => (hb k).trans (hp k)⟩

theorem Chain.Contiguous.of_copies {ch ch' : Chain} (h : ch.Contiguous) (hc : StereoCopies ch' ch) : ch'.Contiguous :=
  ⟨h.1.of_byp fun k => by rw [Cascade.get_lowCut, Cascade.get_lowCut, (hc _).2],
    h.2.of_byp fun k => by rw [Cascade.get_highCut, Cascade.get_highCut, (hc _).2]⟩

theorem Chain.mapStages_copies {f : Stage → Stage} (hf : ∀ st, (f st).coeffs = st.coeffs ∧ (f st).byp = st.byp) (ch : Chain) :
    StereoCopies (ch.mapStages f) ch := fun j => by
  rw [Chain.get_mapStages fun st => (hf st).2]
  exact hf _

theorem zeroDelays_keeps (st : Stage) : (zeroDelays st).coeffs = st.coeffs ∧ (zeroDelays st).byp = st.byp := ⟨rfl, rfl⟩

theorem snapStage_keeps (st : Stage) : (snapStage st).coeffs = st.coeffs ∧ (snapStage st).byp = st.byp := by
  unfold snapStage; split <;> exact ⟨rfl, rfl⟩

theorem processChannel_copies (s : State) (c : Channel) (xs : List Word) :
    StereoCopies (processChannel s c xs).1 (s.chain c) := fun j =>
  have keeps := (chainProcess_keeps s.params.denormalMode (channelDraws s.drawClock c) (s.chain c) xs).1 j
  ⟨keeps.1, keeps.2.1⟩

theorem processChannel_length (s : State) (c : Channel) (xs : List Word) : (processChannel s c xs).2.length = xs.length :=
  (chainProcess_keeps ..).2

/-- 41_cascade.md R151: the assignments of an update leave stages 0..slope enabled in both cascades. -/
theorem designInto_contiguous (arith : DesignArith) (rate : Word) {sane : Settings} (ch : Chain) (hs : sane.InRange) :
    (designInto arith rate sane ch).Contiguous :=
  ⟨⟨_, hs.slopes.1, Cascade.assign_prefixEnabled _ hs.slopes.1 (designHighpassCascade_slope ..)⟩,
    ⟨_, hs.slopes.2, Cascade.assign_prefixEnabled _ hs.slopes.2 (designLowpassCascade_slope ..)⟩⟩

theorem Cascade.reset_contiguous : Cascade.reset.Contiguous :=
  ⟨0, by decide, fun k => by fin_cases k <;> rfl⟩

theorem Chain.reset_contiguous : Chain.reset.Contiguous := ⟨Cascade.reset_contiguous, Cascade.reset_contiguous⟩

end Sys2Proof.Machine
end

section
/-! PROOFS. What the decoder and the register map answer, and the fields that no command, write or step changes. -/

namespace Sys2Proof.Machine

theorem bufCap_le {p : Params} (h : p.wellFormed = true) : p.bufCap ≤ Config.maxBufCap :=
  of_decide_eq_true (Bool.and_eq_true_iff.mp h).2

/-- The count of a decoded PROCESS is a 16-bit field (30_encoding.md R92). -/
theorem decode_wellFormed {w : Word} {i : Instr} (h : decode w = .command i) : i.wellFormed = true := by
  unfold decode at h
  split_ifs at h <;> cases h
  · exact decide_eq_true (Nat.mod_lt _ (by decide))
  all_goals rfl

theorem controlRegAt_ne_buffer (offset : Nat) (c : Channel) (i : Nat) : controlRegAt offset ≠ some (.buffer c i) := by
  simp [controlRegAt, ite_eq_iff]

theorem stageWordAt_ne_buffer (d : Channel) (offset : Nat) (c : Channel) (i : Nat) :
    stageWordAt d offset ≠ some (.buffer c i) := by
  unfold stageWordAt
  split_ifs <;> simp

theorem bufferWordAt_buffer {p : Params} {d c : Channel} {offset i : Nat} (h : bufferWordAt p d offset = some (.buffer c i)) :
    i < p.bufCap := by
  unfold bufferWordAt at h
  split_ifs at h with hi
  cases h
  exact hi

/-- The map holds only the BUF_CAP words of each buffer (20_memory.md R62). -/
theorem regAt_buffer {p : Params} {offset i : Nat} {c : Channel} (h : regAt p offset = some (.buffer c i)) : i < p.bufCap := by
  unfold regAt at h
  split_ifs at h
  · exact absurd h (controlRegAt_ne_buffer _ _ _)
  · exact absurd h (stageWordAt_ne_buffer _ _ _ _)
  · exact absurd h (stageWordAt_ne_buffer _ _ _ _)
  · exact bufferWordAt_buffer h
  · exact bufferWordAt_buffer h

theorem target_buffer {p : Params} {addr size i : Nat} {c : Channel} (h : target p addr size = some (.buffer c i)) :
    i < p.bufCap := by
  unfold target at h
  split_ifs at h
  exact regAt_buffer h

theorem endedBy_params (s : State) (code : Cause) : (s.endedBy code).params = s.params := by
  unfold State.endedBy; split <;> rfl

theorem exec_params {i : Instr} {s t : State} (h : exec i s = .next t) : t.params = s.params := by
  cases i with
  | nop => cases h; rfl
  | prepare =>
    rcases execPrepare_cases s with ⟨code, -, he⟩ | ⟨-, -, he⟩ <;> cases he.symm.trans h
    · exact endedBy_params s code
    · rfl
  | update =>
    rcases execUpdate_cases s with ⟨code, -, he⟩ | ⟨_, _, -, -, -, he⟩ <;> cases he.symm.trans h
    · exact endedBy_params s code
    · rfl
  | process n =>
    rcases execProcess_cases n s with ⟨code, -, he⟩ | ⟨_, _, -, -, -, -, ⟨he, -⟩ | ⟨_, _, -, -, he⟩⟩ <;> cases he.symm.trans h
    · exact endedBy_params s code
    · exact snapDelays_params _

theorem writeReg_params (s : State) (r : Reg) (v : Word) : (writeReg s r v).params = s.params := by
  cases r with
  | cmd =>
    change (writeCommand v s).params = s.params
    rcases writeCommand_cases v s with ⟨-, he⟩ | ⟨-, -, he⟩ | ⟨-, -, -, he⟩ | ⟨-, -, _, -, he⟩ <;> rw [he] <;> rfl
  | status | sampleRate | maxBlock | actRate | actMax | id | cap | setting | snap | stage | buffer => rfl

/-- 00_scope.md R8: the parameters are fixed. -/
theorem step_params {s t : State} (h : step s = .next t) : t.params = s.params := by
  obtain ⟨-, ⟨-, -, rfl⟩ | ⟨-, -, hx⟩ | ⟨e, rest, -, hcase⟩⟩ := step_cases h
  · rfl
  · exact exec_params hx
  · rcases hcase with ⟨-, -, rfl⟩ | ⟨-, -, hx⟩ | ⟨-, rfl⟩ | ⟨_, _, _, _, -, -, rfl⟩ | ⟨_, _, r, v, -, -, rfl⟩
    · rfl
    · exact (exec_params hx).trans rfl
    · rfl
    · rfl
    · exact writeReg_params _ r v

end Sys2Proof.Machine
end

section
/-! PROOFS. Every operation of a step keeps the machine's invariant. -/

namespace Sys2Proof.Machine

namespace State.Inv

variable {s : State}

theorem bufferMemory (h : s.Inv) : BufferMemory s.params s.mem := ⟨h.memWf, h.memInside, h.memWhole⟩

/-- The model's own lists are no part of the invariant. -/
theorem withEvents (h : s.Inv) (events : List HostEvent) : State.Inv { s with events := events } := { h with }

theorem withReturned (h : s.Inv) (returned : List Word) : State.Inv { s with returned := returned } := { h with }

theorem endCommand (h : s.Inv) : (endCommand s).Inv := { h with faultIdle := fun _ => rfl }

/-- Release builds end by `fail` and debug builds by a Fault, which is what the two build clauses ask (43_engine.md R211). -/
theorem endedBy (h : s.Inv) (code : Cause) : (s.endedBy code).Inv := by
  unfold State.endedBy
  cases hm : s.params.buildMode with
  | release =>
    exact { h with faultIdle := fun _ => rfl, debugNoFail := fun hd => absurd (hm.symm.trans hd) (by decide) }
  | debug =>
    exact { h with faultIdle := fun _ => rfl, releaseNoFault := fun hr => absurd (hm.symm.trans hr) (by decide) }

/-! ### Commands -/

/-- A map over all stages that changes delay elements only. -/
theorem mapStages (h : s.Inv) {f : Stage → Stage} (hf : ∀ st, (f st).coeffs = st.coeffs ∧ (f st).byp = st.byp) :
    (s.mapStages f).Inv :=
  { h with
    cascades := fun c => by
      rw [mapStages_chain]
      exact Chain.Contiguous.of_copies (h.cascades c) (Chain.mapStages_copies hf _)
    stereo := (Chain.mapStages_copies hf s.left).trans (h.stereo.trans (Chain.mapStages_copies hf s.right).symm) }

theorem snapDelays (h : s.Inv) : (snapDelays s).Inv := by
  cases hs : s.params.snapToZero with
  | off => rw [snapDelays_off hs]; exact h
  | on => rw [snapDelays_on hs]; exact h.mapStages snapStage_keeps

/-- PREPARE latches an acceptable rate and block size (43_engine.md R205). -/
theorem applyPrepare (h : s.Inv) (hr : rateAcceptable s.pend.rate = true)
    (hm : maxBlockAcceptable s.params s.pend.maxBlock = true) : (applyPrepare s).Inv :=
  { h.mapStages zeroDelays_keeps with
    actMaxFits := of_decide_eq_true (Bool.and_eq_true_iff.mp hm).2
    rateLatched := fun _ => hr
    latchesReset := fun hp => by cases hp }

/-- An update body writes equal designs of sanitized settings into both channels (43_engine.md R206, R212). -/
theorem applyUpdate (h : s.Inv) {sane : Settings} {clamped : Bool} (hs : sane.InRange)
    (hc : s.params.buildMode = .debug → clamped = false) : (applyUpdate sane clamped s).Inv :=
  { h with
    cascades := fun c => by
      rw [applyUpdate_chain]
      exact designInto_contiguous _ _ _ hs
    stereo := designInto_stereo _ _ _ _ hs.slopes.1 hs.slopes.2 h.stereo
    snapSane := hs
    debugNoFail := fun hd => by
      obtain ⟨hfail, hclamp⟩ := h.debugNoFail hd
      exact ⟨hfail, by simp [recordClamp, hclamp, hc hd]⟩ }

/-- A block no longer than the buffers rewrites words of the buffers, and delay elements. -/
theorem applyBlock (h : s.Inv) {xs ys : List Word} (hx : xs.length ≤ s.params.bufCap) (hy : ys.length ≤ s.params.bufCap) :
    (applyBlock xs ys s).Inv :=
  have mem := (h.bufferMemory.writeBlock .left (i := 0) (processChannel s .left xs).2
      (by rwa [processChannel_length, Nat.zero_add])).writeBlock .right (i := 0) (processChannel s .right ys).2
      (by rwa [processChannel_length, Nat.zero_add])
  have left := processChannel_copies s .left xs
  have right := processChannel_copies s .right ys
  { h with
    memWf := mem.wf
    memInside := mem.inside
    memWhole := mem.whole
    cascades := fun c => match c with
      | .left => Chain.Contiguous.of_copies (h.cascades .left) left
      | .right => Chain.Contiguous.of_copies (h.cascades .right) right
    stereo := left.trans (h.stereo.trans right.symm) }

theorem execProcess (h : s.Inv) {t : State} {n : Nat} (hx : execProcess n s = .next t) : t.Inv := by
  rcases execProcess_cases n s with ⟨code, -, he⟩ | ⟨sane, clamped, -, hn, hc, hv, ⟨he, -⟩ | ⟨xs, ys, hl, hr, he⟩⟩ <;>
    cases he.symm.trans hx
  · exact h.endedBy code
  · have hcap := hn.trans h.actMaxFits
    exact ((h.applyUpdate (validate_inRange hv) hc).applyBlock ((Memory.length_readBlock hl).trans_le hcap)
      ((Memory.length_readBlock hr).trans_le hcap)).snapDelays.endCommand

/-- Every command that answers a next state. -/
theorem exec (h : s.Inv) {t : State} {i : Instr} (hx : exec i s = .next t) : t.Inv := by
  cases i with
  | nop => cases hx; exact h.endCommand
  | prepare =>
    rcases execPrepare_cases s with ⟨code, -, he⟩ | ⟨hr, hm, he⟩ <;> cases he.symm.trans hx
    · exact h.endedBy code
    · exact (h.applyPrepare hr hm).endCommand
  | update =>
    rcases execUpdate_cases s with ⟨code, -, he⟩ | ⟨sane, clamped, -, hc, hv, he⟩ <;> cases he.symm.trans hx
    · exact h.endedBy code
    · exact (h.applyUpdate (validate_inRange hv) hc).endCommand
  | process n => exact h.execProcess hx

/-! ### The host -/

/-- An unfaulted core accepts only what the decoder answers, whose count has 16 bits (30_encoding.md R92). -/
theorem writeCommand (h : s.Inv) (w : Word) : (writeCommand w s).Inv := by
  rcases writeCommand_cases w s with ⟨-, he⟩ | ⟨-, -, he⟩ | ⟨-, -, -, he⟩ | ⟨hf, -, i, hi, he⟩ <;> rw [he]
  · exact h
  · exact { h with }
  · exact { h with }
  · exact { h with
      faultIdle := fun hft => absurd (hf.symm.trans hft) (by decide)
      pendEncodable := decode_wellFormed hi }

/-- A write to any place that exists. -/
theorem writeReg (h : s.Inv) {r : Reg} (hr : ∀ c i, r = .buffer c i → i < s.params.bufCap) (v : Word) : (writeReg s r v).Inv := by
  cases r with
  | cmd => exact h.writeCommand v
  | status => exact { h with
      debugNoFail := fun hd => by
        obtain ⟨hfail, hclamp⟩ := h.debugNoFail hd
        simp [Machine.writeReg, clearFlags, hfail, hclamp] }
  | buffer c i =>
    have mem := h.bufferMemory.writeWord c (hr c i rfl) v
    exact { h with memWf := mem.wf, memInside := mem.inside, memWhole := mem.whole }
  | sampleRate | maxBlock | setting => exact { h with }
  | actRate | actMax | id | cap | snap | stage => exact h

/-! ### Reset -/

/-- 70_reset_and_hazards.md R272: reset meets the invariant. -/
theorem resetOf {p : Params} (hp : p.wellFormed = true) : (State.resetOf p).Inv where
  params := hp
  memWf := rfl
  memInside _ ha := by cases ha
  memWhole _ _ _ _ _ := rfl
  cascades c := by cases c <;> exact Chain.reset_contiguous
  stereo _ := ⟨rfl, rfl⟩
  snapSane := Settings.reset_inRange
  actMaxFits := Nat.zero_le _
  rateLatched hq := by cases hq
  latchesReset _ := ⟨rfl, rfl⟩
  faultIdle _ := rfl
  releaseNoFault _ := rfl
  debugNoFail _ := ⟨rfl, rfl⟩
  pendEncodable := rfl

theorem resetMachine (h : s.Inv) : (resetMachine s).Inv := { resetOf h.params with }

/-! ### Steps -/

theorem step (h : s.Inv) {t : State} (hs : step s = .next t) : t.Inv := by
  obtain ⟨-, ⟨-, -, rfl⟩ | ⟨-, -, hx⟩ | ⟨e, rest, -, hcase⟩⟩ := step_cases hs
  · exact h
  · exact h.exec hx
  have hrest := h.withEvents rest
  rcases hcase with ⟨-, -, rfl⟩ | ⟨-, -, hx⟩ | ⟨-, rfl⟩ | ⟨_, _, _, v, -, -, rfl⟩ | ⟨_, _, r, v, -, hr, rfl⟩
  · exact hrest
  · exact hrest.exec hx
  · exact hrest.resetMachine
  · exact hrest.withReturned _
  · exact hrest.writeReg (fun c i hb => target_buffer (hb ▸ (accessTarget_ok.mp hr).1)) v

end State.Inv

end Sys2Proof.Machine
end

section
/-! PROOFS. The hidden command of an idle core shows in no step (10_state.md R29). -/

namespace Sys2Proof.Machine

/-- How a step may answer after another value was put into the hidden `pend` of an idle core: as before, or with an idle next
state that holds that value still. -/
def PendUnseen (p : Pending) : Host.Outcome State Fault Refusal → Host.Outcome State Fault Refusal → Prop
  | .next t, o => o = .next t ∨ (t.phase = .idle ∧ o = .next { t with pend := p })
  | .fault r, o => o = .fault r
  | .refused r, o => o = .refused r

theorem coreMove_idle {s : State} (h : s.phase = .idle) : coreMove s = .next s := by rw [coreMove, h]

theorem advance_nil {s : State} (h : s.events = []) : advance s = coreMove s := by rw [advance, h]

theorem advance_cons {s : State} {e : HostEvent} {rest : List HostEvent} (h : s.events = e :: rest) :
    advance s = eventMove e { s with events := rest } := by rw [advance, h]

theorem writeCommand_faulted {s : State} (hf : s.status.fault = true) (w : Word) : writeCommand w s = s := by
  simp [writeCommand, hf]

theorem writeCommand_illegal {s : State} {w : Word} {why : Illegal} (hf : s.status.fault = false) (hp : s.phase = .idle)
    (hd : decode w = .illegal why) : writeCommand w s = setErrIllegal s := by simp [writeCommand, hf, hp, hd]

theorem writeCommand_command {s : State} {w : Word} {i : Instr} (hf : s.status.fault = false) (hp : s.phase = .idle)
    (hd : decode w = .command i) : writeCommand w s = acceptCommand i s := by simp [writeCommand, hf, hp, hd]

variable {s : State} (p : Pending)

/-- Acceptance overwrites `pend`, and the other ways of a CMD write keep it. -/
theorem writeCommand_pend (h : s.phase = .idle) (w : Word) :
    PendUnseen p (.next (writeCommand w s)) (.next (writeCommand w { s with pend := p })) := by
  cases hf : s.status.fault with
  | true =>
    rw [writeCommand_faulted hf, writeCommand_faulted (s := { s with pend := p }) hf]
    exact .inr ⟨h, rfl⟩
  | false =>
    cases hd : decode w with
    | command i =>
      rw [writeCommand_command hf h hd, writeCommand_command (s := { s with pend := p }) hf h hd]
      exact .inl rfl
    | illegal why =>
      rw [writeCommand_illegal hf h hd, writeCommand_illegal (s := { s with pend := p }) hf h hd]
      exact .inr ⟨h, rfl⟩

theorem writeReg_pend (h : s.phase = .idle) (r : Reg) (v : Word) :
    PendUnseen p (.next (writeReg s r v)) (.next (writeReg { s with pend := p } r v)) := by
  cases r with
  | cmd => exact writeCommand_pend p h v
  | status | sampleRate | maxBlock | actRate | actMax | id | cap | setting | snap | stage | buffer => exact .inr ⟨h, rfl⟩

theorem accessTarget_pend (addr size : Nat) : accessTarget { s with pend := p } addr size = accessTarget s addr size := rfl

theorem hostWrite_pend (h : s.phase = .idle) (addr size : Nat) (v : Word) :
    PendUnseen p (hostWrite addr size v s) (hostWrite addr size v { s with pend := p }) := by
  unfold hostWrite
  rw [accessTarget_pend (s := s) p]
  cases accessTarget s addr size with
  | error f => rfl
  | ok r => exact writeReg_pend p h r v

theorem readReg_pend (r : Reg) : readReg { s with pend := p } r = readReg s r := by cases r <;> rfl

theorem hostRead_pend (h : s.phase = .idle) (addr size : Nat) :
    PendUnseen p (hostRead addr size s) (hostRead addr size { s with pend := p }) := by
  unfold hostRead
  rw [accessTarget_pend (s := s) p]
  cases accessTarget s addr size with
  | error f => rfl
  | ok r =>
    simp only [readReg_pend]
    cases readReg s r with
    | none => rfl
    | some v => exact .inr ⟨h, rfl⟩

theorem coreMove_pend (h : s.phase = .idle) : PendUnseen p (coreMove s) (coreMove { s with pend := p }) := by
  rw [coreMove_idle h, coreMove_idle (s := { s with pend := p }) h]
  exact .inr ⟨h, rfl⟩

theorem eventMove_pend (h : s.phase = .idle) (e : HostEvent) :
    PendUnseen p (eventMove e s) (eventMove e { s with pend := p }) := by
  cases e with
  | write addr size v => exact hostWrite_pend p h addr size v
  | read addr size => exact hostRead_pend p h addr size
  | complete => exact coreMove_pend p h
  | reset => exact .inl rfl

theorem advance_pend (h : s.phase = .idle) : PendUnseen p (advance s) (advance { s with pend := p }) := by
  by_cases he : s.events = []
  · rw [advance_nil he, advance_nil (s := { s with pend := p }) he]
    exact coreMove_pend p h
  · obtain ⟨e, rest, he⟩ := List.exists_cons_of_ne_nil he
    rw [advance_cons he, advance_cons (s := { s with pend := p }) he]
    exact eventMove_pend (s := { s with events := rest }) p h e

theorem step_pend (h : s.phase = .idle) : PendUnseen p (step s) (step { s with pend := p }) := by
  unfold step
  cases s.params.wellFormed with
  | false => rfl
  | true => exact advance_pend p h

end Sys2Proof.Machine
end

section
/-! PROOFS. What a PROCESS does to one channel: its chain and its buffer, from its own chain and its own words (42_datapath.md
R176). -/

namespace Sys2Proof.Machine

theorem endedBy_chain (s : State) (code : Cause) (c : Channel) : (s.endedBy code).chain c = s.chain c := by
  unfold State.endedBy; cases c <;> split <;> rfl

theorem endedBy_mem (s : State) (code : Cause) : (s.endedBy code).mem = s.mem := by
  unfold State.endedBy; split <;> rfl

/-- The checks of a PROCESS that comes to its samples (43_engine.md R207), and what validation answers there. -/
def ProcessPasses (n : Nat) (s : State) (sane : Settings) (clamped : Bool) : Prop :=
  s.status.prepared = true ∧ n ≤ s.actMax.toNat ∧
    validate s.pend.settings s.actRate s.params.buildMode = .ok sane clamped

theorem execProcess_of_passes {s : State} {n : Nat} {sane : Settings} {clamped : Bool} (h : ProcessPasses n s sane clamped) :
    execProcess n s = processSamples n (applyUpdate sane clamped s) := by
  obtain ⟨hp, hn, hv⟩ := h
  simp [execProcess, updateBody, hp, Nat.not_lt.mpr hn, hv]

/-- A PROCESS that does not pass its checks reaches no stage and no word. -/
theorem execProcess_of_not_passes {s t : State} {n : Nat} (h : ∀ sane clamped, ¬ProcessPasses n s sane clamped)
    (ht : execProcess n s = .next t) (c : Channel) : t.chain c = s.chain c ∧ t.mem = s.mem := by
  rcases execProcess_cases n s with ⟨code, -, he⟩ | ⟨sane, clamped, hp, hn, -, hv, -⟩
  · cases he.symm.trans ht
    exact ⟨endedBy_chain s code c, endedBy_mem s code⟩
  · exact absurd ⟨hp, hn, hv⟩ (h sane clamped)

/-- A missing word of a block is a missing block. -/
theorem readBlock_of_unwritten {m : Memory} {c : Channel} {n i : Nat} (hi : i < n)
    (h : m.readWord (bufferOffset c i) = none) : m.readBlock (bufferOffset c 0) n = none := by
  by_contra hb
  have hw := Memory.readBlock_isSome.mp (Option.isSome_iff_ne_none.mpr hb) i hi
  rw [← bufferOffset_eq_add, h] at hw
  cases hw

theorem processSamples_of_unwritten {s : State} {n : Nat} (c : Channel)
    (h : s.mem.readBlock (bufferOffset c 0) n = none) : processSamples n s = .fault .unwritten := by
  unfold processSamples
  cases c with
  | left => rw [h]
  | right => rw [h]; cases s.mem.readBlock (bufferOffset .left 0) n <;> rfl

theorem processSamples_next {s t : State} {n : Nat} (h : processSamples n s = .next t) :
    ∃ xs ys, s.mem.readBlock (bufferOffset .left 0) n = some xs ∧ s.mem.readBlock (bufferOffset .right 0) n = some ys ∧
      t = endCommand (snapDelays (applyBlock xs ys s)) := by
  unfold processSamples at h
  split at h
  case h_1 xs ys hl hr => cases h; exact ⟨xs, ys, hl, hr, rfl⟩
  case h_2 => cases h

/-- The state snap on one chain (42_datapath.md R179). -/
def snapChain (mode : SnapToZero) (ch : Chain) : Chain :=
  match mode with
  | .off => ch
  | .on => ch.mapStages snapStage

theorem snapDelays_chain (s : State) (c : Channel) : (snapDelays s).chain c = snapChain s.params.snapToZero (s.chain c) := by
  unfold snapDelays snapChain
  cases s.params.snapToZero with
  | off => rfl
  | on => exact mapStages_chain snapStage s c

/-- What a byte holds after a block write depends on no other byte that was there before. -/
theorem readByte_writeBlock_congr {m m' : Memory} {x : Nat} (h : m'.readByte x = m.readByte x) (a : Nat) (ws : List Word) :
    (m'.writeBlock a ws).readByte x = (m.writeBlock a ws).readByte x := by
  induction ws generalizing m m' a with
  | nil => exact h
  | cons w ws ih =>
    refine ih ?_ _
    rw [Memory.readByte_writeWord, Memory.readByte_writeWord, h]

/-- The bytes of a channel's half of the window (20_memory.md R62). -/
def InHalf (c : Channel) (a : Nat) : Prop := bufferOffset c 0 ≤ a ∧ a < bufferOffset c 0 + 0x10000

theorem readByte_writeBlock_other {m : Memory} {c d : Channel} (hd : d ≠ c) {a : Nat} (ha : InHalf c a) {ws : List Word}
    (hw : ws.length ≤ Config.maxBufCap) : (m.writeBlock (bufferOffset d 0) ws).readByte a = m.readByte a := by
  have hgap : bufferOffset .right 0 = bufferOffset .left 0 + 4 * Config.maxBufCap := rfl
  obtain ⟨above, below⟩ := ha
  apply Memory.readByte_writeBlock_of_ne
  match c, d with
  | .left, .left => exact absurd rfl hd
  | .left, .right => exact .inl below
  | .right, .left => exact .inr (by omega)
  | .right, .right => exact absurd rfl hd

/-- One channel of a completed PROCESS (42_datapath.md R176): its chain and its half of memory come from its own chain and its
own words. -/
theorem processSamples_channel {s t : State} {n : Nat} (hn : n ≤ Config.maxBufCap) (h : processSamples n s = .next t)
    (c : Channel) : ∃ ws, s.mem.readBlock (bufferOffset c 0) n = some ws ∧
      t.chain c = snapChain s.params.snapToZero (processChannel s c ws).1 ∧
      ∀ a, InHalf c a → t.mem.readByte a = (s.mem.writeBlock (bufferOffset c 0) (processChannel s c ws).2).readByte a := by
  obtain ⟨xs, ys, hl, hr, rfl⟩ := processSamples_next h
  have short : ∀ d ws, s.mem.readBlock (bufferOffset d 0) n = some ws → (processChannel s d ws).2.length ≤ Config.maxBufCap :=
    fun d ws hw => by rwa [processChannel_length, Memory.length_readBlock hw]
  simp only [endCommand_chain, snapDelays_chain, endCommand_mem, snapDelays_mem, applyBlock_params, applyBlock_mem]
  cases c with
  | left => exact ⟨xs, hl, rfl, fun a ha => readByte_writeBlock_other (by decide) ha (short _ _ hr)⟩
  | right =>
    exact ⟨ys, hr, rfl, fun a ha =>
      readByte_writeBlock_congr (readByte_writeBlock_other (by decide) ha (short _ _ hl)) _ _⟩

/-- Two states agree on everything that the samples of one channel read. -/
structure ChannelAgrees (c : Channel) (s s' : State) : Prop where
  params : s'.params = s.params
  drawClock : s'.drawClock = s.drawClock
  chain : s'.chain c = s.chain c
  half : ∀ a, InHalf c a → s'.mem.readByte a = s.mem.readByte a

namespace ChannelAgrees

variable {c : Channel} {s s' : State}

theorem applyUpdate (h : ChannelAgrees c s s') (hr : s'.actRate = s.actRate) (sane : Settings) (clamped : Bool) :
    ChannelAgrees c (applyUpdate sane clamped s) (applyUpdate sane clamped s') :=
  { h with chain := by rw [applyUpdate_chain, applyUpdate_chain, h.params, hr, h.chain] }

theorem processChannel (h : ChannelAgrees c s s') (ws : List Word) : processChannel s' c ws = processChannel s c ws := by
  rw [Machine.processChannel, h.params, h.drawClock, h.chain, Machine.processChannel]

theorem readBlock (h : ChannelAgrees c s s') {n : Nat} (hn : n ≤ Config.maxBufCap) :
    s'.mem.readBlock (bufferOffset c 0) n = s.mem.readBlock (bufferOffset c 0) n :=
  Memory.readBlock_congr fun a h1 h2 => h.half a ⟨h1, by unfold Config.maxBufCap at hn; omega⟩

theorem processSamples (h : ChannelAgrees c s s') {n : Nat} (hn : n ≤ Config.maxBufCap) {t t' : State}
    (ht : processSamples n s = .next t) (ht' : processSamples n s' = .next t') :
    t'.chain c = t.chain c ∧ ∀ a, InHalf c a → t'.mem.readByte a = t.mem.readByte a := by
  obtain ⟨ws, hw, hch, hmem⟩ := processSamples_channel hn ht c
  obtain ⟨ws', hw', hch', hmem'⟩ := processSamples_channel hn ht' c
  obtain rfl : ws' = ws := Option.some.inj (hw'.symm.trans ((h.readBlock hn).trans hw))
  refine ⟨by rw [hch', hch, h.processChannel, h.params], fun a ha => ?_⟩
  rw [hmem' a ha, hmem a ha, h.processChannel]
  exact readByte_writeBlock_congr (h.half a ha) _ _

end ChannelAgrees

end Sys2Proof.Machine
end

section
/-! PROOFS. The statements of 10_state.md: O10, O17, O43, O58 and O60. -/

namespace Sys2Proof

open Machine

/-- Settles O60: each operation of a step keeps the invariant, by the cases of what a step can have done. -/
theorem stepKeepsTheInvariant : Obligations.StepKeepsTheInvariant := fun _ _ h hs => ⟨h.step hs, step_params hs⟩

/-- Settles O10: no operation of an idle core reads `pend`, and only acceptance and reset write it. -/
theorem idlePendingIsUnobservable : Obligations.IdlePendingIsUnobservable := by
  intro s p h
  have hp := step_pend p h
  refine ⟨fun t ht => ?_, fun r hr => ?_, fun r hr => ?_⟩
  · rwa [ht] at hp
  · rwa [hr] at hp
  · rwa [hr] at hp

/-- Settles O17: the checks pass, so PROCESS comes to its samples, and the block with the missing word does not read. -/
theorem processOnUnwrittenWordFaults : Obligations.ProcessOnUnwrittenWordFaults := by
  intro s n i c sane clamped hp hn hv hi hw
  change execProcess n s = .fault .unwritten
  rw [execProcess_of_passes ⟨hp, hn, hv⟩]
  exact processSamples_of_unwritten c (readBlock_of_unwritten hi hw)

/-- Settles O58, by the read and write laws of slots. -/
theorem peakStageIsNeverBypassed : Obligations.PeakStageIsNeverBypassed :=
  fun ch st _ _ _ => ⟨rfl, rfl, ch.get_set_peak st, rfl, fun _ => ⟨ch.get_set_self st, fun _ => ch.get_set_of_ne st⟩⟩

/-- Settles O43: both runs pass the checks or neither does, and then the channel's chain and half of memory come from equal chains
and equal words. -/
theorem channelsDoNotInterfere : Obligations.ChannelsDoNotInterfere := by
  intro n c s s' t t' hwf hcap hparams hpend hstatus hrate hmax hclock hchain hmem ht ht'
  have agree : ChannelAgrees c s s' := ⟨hparams, hclock, hchain, fun a ha => hmem a ha.1 ha.2⟩
  have passes : ∀ sane clamped, ProcessPasses n s' sane clamped ↔ ProcessPasses n s sane clamped := fun sane clamped => by
    rw [ProcessPasses, hstatus, hmax, hpend, hrate, hparams, ProcessPasses]
  suffices h : t'.chain c = t.chain c ∧ ∀ a, InHalf c a → t'.mem.readByte a = t.mem.readByte a from
    ⟨h.1, fun a h1 h2 => h.2 a ⟨h1, h2⟩⟩
  by_cases hp : ∃ sane clamped, ProcessPasses n s sane clamped
  · obtain ⟨sane, clamped, hp⟩ := hp
    have ⟨_, hmaxn, _⟩ := hp
    have hn : n ≤ Config.maxBufCap := hmaxn.trans (hcap.trans (bufCap_le hwf))
    exact (agree.applyUpdate hrate sane clamped).processSamples hn ((execProcess_of_passes hp).symm.trans ht)
      ((execProcess_of_passes ((passes sane clamped).mpr hp)).symm.trans ht')
  · simp only [not_exists] at hp
    obtain ⟨hch, hm⟩ := execProcess_of_not_passes hp ht c
    obtain ⟨hch', hm'⟩ := execProcess_of_not_passes (fun sane clamped => mt (passes sane clamped).mp (hp sane clamped)) ht' c
    rw [hch, hch', hm, hm']
    exact ⟨agree.chain, agree.half⟩

end Sys2Proof
end

section
/-! PROOFS. Where each place of the register map lies (20_memory.md R62, R70), and what an access to it does. -/

namespace Sys2Proof.Machine

/-- The number of a settings field in register order (10_state.md R22). -/
def Field.index : Field → Nat
  | .lcf => 0
  | .lcs => 1
  | .hcf => 2
  | .hcs => 3
  | .pkf => 4
  | .pkq => 5
  | .pkg => 6

/-- The window offset of a place (20_memory.md R62, 30_encoding.md R100). -/
def Reg.offset : Reg → Nat
  | .cmd => 0x000
  | .status => 0x004
  | .sampleRate => 0x008
  | .maxBlock => 0x00C
  | .actRate => 0x010
  | .actMax => 0x014
  | .id => 0x018
  | .cap => 0x01C
  | .setting f => 0x020 + 4 * f.index
  | .snap f => 0x040 + 4 * f.index
  | .stage c j w => 0x400 + 0x200 * c.index + 0x20 * j.val + 4 * w.val
  | .buffer c i => bufferOffset c i

/-- The place exists with these parameters: a buffer has BUF_CAP words. -/
def Reg.ExistsIn (p : Params) : Reg → Prop
  | .buffer _ i => i < p.bufCap
  | .cmd | .status | .sampleRate | .maxBlock | .actRate | .actMax | .id | .cap | .setting _ | .snap _ | .stage _ _ _ => True

/-- The places below offset 0x400: the named registers. -/
def Reg.isNamed : Reg → Bool
  | .cmd | .status | .sampleRate | .maxBlock | .actRate | .actMax | .id | .cap | .setting _ | .snap _ => true
  | .stage _ _ _ | .buffer _ _ => false

theorem Reg.existsIn_of_isNamed {r : Reg} (p : Params) (h : r.isNamed = true) : r.ExistsIn p := by
  cases r with
  | buffer => cases h
  | _ => trivial

/-- Only a buffer word can be unwritten (10_state.md R36). -/
theorem readReg_of_isNamed {r : Reg} (s : State) (h : r.isNamed = true) : readReg s r = some ((readReg s r).getD 0) := by
  cases r with
  | buffer => cases h
  | _ => rfl

theorem Reg.offset_mod_four (r : Reg) : r.offset % 4 = 0 := by
  cases r <;> simp only [Reg.offset, bufferOffset] <;> omega

/-! ### The regions of the map -/

section

variable (p : Params)

theorem regAt_below_stages {o : Nat} (h : o < 0x400) : regAt p o = controlRegAt o := if_pos h

theorem regAt_stages (c : Channel) {x : Nat} (h : x < 0x200) :
    regAt p (0x400 + 0x200 * c.index + x) = stageWordAt c x := by
  unfold regAt
  cases c with
  | left =>
    rw [show 0x400 + 0x200 * Channel.left.index + x = 0x400 + x from rfl, if_neg (by omega), if_pos (by omega),
      Nat.add_sub_cancel_left]
  | right =>
    rw [show 0x400 + 0x200 * Channel.right.index + x = 0x600 + x from rfl, if_neg (by omega), if_neg (by omega),
      if_pos (by omega), Nat.add_sub_cancel_left]

theorem regAt_between {o : Nat} (hl : 0x800 ≤ o) (hh : o < 0x10000) : regAt p o = none := by
  rw [regAt, if_neg (by omega), if_neg (by omega), if_neg (by omega), if_pos hh]

theorem regAt_buffers (c : Channel) {x : Nat} (h : x < 0x10000) :
    regAt p (0x10000 + 0x10000 * c.index + x) = bufferWordAt p c x := by
  unfold regAt Config.windowBytes
  cases c with
  | left =>
    rw [show 0x10000 + 0x10000 * Channel.left.index + x = 0x10000 + x from rfl, if_neg (by omega), if_neg (by omega),
      if_neg (by omega), if_neg (by omega), if_pos (by omega), Nat.add_sub_cancel_left]
  | right =>
    rw [show 0x10000 + 0x10000 * Channel.right.index + x = 0x20000 + x from rfl, if_neg (by omega), if_neg (by omega),
      if_neg (by omega), if_neg (by omega), if_neg (by omega), if_pos (by omega), Nat.add_sub_cancel_left]

theorem regAt_outside {o : Nat} (h : 0x30000 ≤ o) : regAt p o = none := by
  unfold regAt Config.windowBytes
  rw [if_neg (by omega), if_neg (by omega), if_neg (by omega), if_neg (by omega), if_neg (by omega), if_neg (by omega)]

end

theorem controlRegAt_above {o : Nat} (h : 0x05C ≤ o) : controlRegAt o = none := by
  have hne : ∀ k, k < 0x05C → o ≠ k := fun k hk => by omega
  simp [controlRegAt, hne]

theorem stageWordAt_above (c : Channel) {x : Nat} (h : 0x120 ≤ x) : stageWordAt c x = none := dif_neg (by omega)

theorem bufferWordAt_above {p : Params} (c : Channel) {x : Nat} (h : p.bufCap ≤ x / 4) : bufferWordAt p c x = none :=
  if_neg (Nat.not_lt.mpr h)

/-- The unmapped offsets of 20_memory.md R62 reach no place. -/
theorem regAt_unmapped {p : Params} {o : Nat} (ho : o % 4 = 0) (h : UnmappedOffset p o) : regAt p o = none := by
  have stages : ∀ c : Channel, ∀ x, o = 0x400 + 0x200 * c.index + x → 0x120 ≤ x → x < 0x200 → regAt p o = none := by
    rintro c x rfl hl hh
    rw [regAt_stages p c hh, stageWordAt_above c hl]
  have buffers : ∀ c : Channel, ∀ x, o = 0x10000 + 0x10000 * c.index + x → x < 0x10000 → p.bufCap ≤ x / 4 →
      regAt p o = none := by
    rintro c x rfl hh hl
    rw [regAt_buffers p c hh, bufferWordAt_above c hl]
  rcases h with h | ⟨hl, hh⟩ | ⟨hl, hh⟩ | ⟨hl, hh⟩ | ⟨hl, hh, hw⟩ | ⟨hl, hh, hw⟩ | h
  · obtain rfl : o = 0x03C := by omega
    rfl
  · rw [regAt_below_stages p hh, controlRegAt_above hl]
  · exact stages .left (o - 0x400) (by simp only [Channel.index]; omega) (by omega) (by omega)
  · by_cases hs : o < 0x800
    · exact stages .right (o - 0x600) (by simp only [Channel.index]; omega) (by omega) (by omega)
    · exact regAt_between p (by omega) hh
  · exact buffers .left (o - 0x10000) (by simp only [Channel.index]; omega) (by omega) hw
  · exact buffers .right (o - 0x20000) (by simp only [Channel.index]; omega) (by omega) hw
  · exact regAt_outside p h

/-! ### The map at the offset of a place -/

theorem stageWordAt_offset (c : Channel) (j : Fin 9) (w : Fin 8) :
    stageWordAt c (0x20 * j.val + 4 * w.val) = some (.stage c j w) := by
  have hj : (0x20 * j.val + 4 * w.val) / 0x20 = j.val := by omega
  have hw : (0x20 * j.val + 4 * w.val) % 0x20 / 4 = w.val := by omega
  unfold stageWordAt
  rw [dif_pos (by omega)]
  simp only [hj, hw]

theorem bufferWordAt_offset {p : Params} (c : Channel) {i : Nat} (h : i < p.bufCap) :
    bufferWordAt p c (4 * i) = some (.buffer c i) := by
  have hi : 4 * i / 4 = i := by omega
  rw [bufferWordAt, hi, if_pos h]

theorem regAt_named (p : Params) {r : Reg} (h : r.isNamed = true) : regAt p r.offset = some r := by
  cases r with
  | stage | buffer => cases h
  | setting f | snap f => cases f <;> rfl
  | _ => rfl

/-- Every place that exists is what an access to its address reaches. -/
theorem target_reg {p : Params} (hp : p.wellFormed = true) {r : Reg} (hr : r.ExistsIn p) :
    target p (p.base + r.offset) 4 = some r := by
  rw [target_offset hp r.offset_mod_four]
  cases r with
  | stage c j w =>
    rw [Reg.offset, Nat.add_assoc, regAt_stages p c (by omega), stageWordAt_offset]
  | buffer c i =>
    have hcap : p.bufCap ≤ 0x4000 := bufCap_le hp
    have hi : i < p.bufCap := hr
    rw [Reg.offset, bufferOffset, regAt_buffers p c (by omega), bufferWordAt_offset c hi]
  | _ => exact regAt_named p rfl

theorem base_mod_four {p : Params} (h : p.wellFormed = true) : p.base % 4 = 0 := by
  simp only [Params.wellFormed, Bool.and_eq_true, decide_eq_true_eq] at h
  obtain ⟨⟨hb, -⟩, -⟩ := h
  exact hb

/-- 20_memory.md R63: an access that is misaligned, of another size, below the window or at an unmapped offset reaches no place. -/
theorem target_bad {p : Params} (hp : p.wellFormed = true) {addr size : Nat}
    (h : size ≠ 4 ∨ addr % 4 ≠ 0 ∨ addr < p.base ∨ UnmappedOffset p (addr - p.base)) : target p addr size = none := by
  have hb := base_mod_four hp
  unfold target
  split_ifs with hc
  · simp only [Bool.and_eq_true, decide_eq_true_eq] at hc
    obtain ⟨⟨hsize, halign⟩, hbase⟩ := hc
    rcases h with h | h | h | h
    · exact absurd hsize h
    · exact absurd halign h
    · omega
    · exact regAt_unmapped (by omega) h
  · rfl

/-! ### Accesses to a place -/

section

variable {s : State} {v : Word} {rest : List HostEvent} {r : Reg}

/-- A write to a place that exists and is open. -/
theorem step_write_reg (h : s.nextWrite (s.params.base + r.offset) 4 v rest) (hr : r.ExistsIn s.params)
    (ho : s.phase = .idle ∨ r.closedWhileBusy = false) : step s = .next (writeReg { s with events := rest } r v) :=
  step_write_of_ok h (target_reg h.1 hr) ho

/-- A read of a place that exists, is open and holds a word. -/
theorem step_read_reg (h : s.nextRead (s.params.base + r.offset) 4 rest) (hr : r.ExistsIn s.params)
    (ho : s.phase = .idle ∨ r.closedWhileBusy = false) (hv : readReg s r = some v) :
    step s = .next { s with events := rest, returned := v :: s.returned } :=
  step_read_of_ok h (target_reg h.1 hr) ho hv

end

/-- The named registers, in the order of the table of 20_memory.md R62. -/
def Reg.named : List Reg :=
  [.cmd, .status, .sampleRate, .maxBlock, .actRate, .actMax, .id, .cap, .setting .lcf, .setting .lcs, .setting .hcf,
    .setting .hcs, .setting .pkf, .setting .pkq, .setting .pkg, .snap .lcf, .snap .lcs, .snap .hcf, .snap .hcs, .snap .pkf,
    .snap .pkq, .snap .pkg]

/-- The named registers other than STATUS that a read reaches in either phase. -/
def Reg.namedOpen : List Reg :=
  [.cmd, .sampleRate, .maxBlock, .id, .cap, .setting .lcf, .setting .lcs, .setting .hcf, .setting .hcs, .setting .pkf,
    .setting .pkq, .setting .pkg]

/-- The named registers that are closed while BUSY (20_memory.md R71). -/
def Reg.namedClosed : List Reg :=
  [.actRate, .actMax, .snap .lcf, .snap .lcs, .snap .hcf, .snap .hcs, .snap .pkf, .snap .pkq, .snap .pkg]

/-- A read of a named register, found in a table of offsets and words. -/
theorem step_read_tabled {s : State} {offset : Nat} {v : Word} {rest : List HostEvent}
    (h : s.nextRead (s.params.base + offset) 4 rest) {rs : List Reg} (hn : ∀ r ∈ rs, r.isNamed = true)
    (ho : s.phase = .idle ∨ ∀ r ∈ rs, r.closedWhileBusy = false)
    (hv : (offset, v) ∈ rs.map fun r => (r.offset, (readReg s r).getD 0)) :
    step s = .next { s with events := rest, returned := v :: s.returned } := by
  obtain ⟨r, hr, he⟩ := List.mem_map.mp hv
  cases he
  exact step_read_reg h (Reg.existsIn_of_isNamed _ (hn r hr)) (ho.imp_right fun hc => hc r hr)
    (readReg_of_isNamed s (hn r hr))

theorem hostWrite_error {s : State} {addr size : Nat} {f : Fault} (h : accessTarget s addr size = .error f) (v : Word) :
    hostWrite addr size v s = .fault f := by rw [hostWrite, h]

theorem hostRead_error {s : State} {addr size : Nat} {f : Fault} (h : accessTarget s addr size = .error f) :
    hostRead addr size s = .fault f := by rw [hostRead, h]

/-- A read of a word that was never written stops the run (10_state.md R36). -/
theorem hostRead_unwritten {s : State} {addr size : Nat} {r : Reg} (h : accessTarget s addr size = .ok r)
    (hv : readReg s r = none) : hostRead addr size s = .fault .unwritten := by simp only [hostRead, h, hv]

/-- An access is rejected for its address, size and phase alone, as a write and as a read (20_memory.md R63, R71). -/
theorem step_access_error {s : State} {addr size : Nat} {f : Fault} (h : accessTarget s addr size = .error f) (v : Word)
    (rest : List HostEvent) :
    (s.nextWrite addr size v rest → step s = .fault f) ∧ (s.nextRead addr size rest → step s = .fault f) :=
  ⟨fun hw => (step_write hw).trans (hostWrite_error (s := { s with events := rest }) h v),
    fun hr => (step_read hr).trans (hostRead_error (s := { s with events := rest }) h)⟩

/-- 30_encoding.md R100: the eight readback words of a stage, as a table. -/
theorem stageWord_eq_getD (st : Stage) (w : Fin 8) :
    [st.coeffs.b0, st.coeffs.b1, st.coeffs.b2, st.coeffs.a1, st.coeffs.a2, st.s1, st.s2, if st.byp then 1 else 0].getD w.val 0 =
      stageWord st w := by
  fin_cases w <;> rfl

/-- 20_memory.md R67, flag by flag. -/
theorem clearFlags_eq_ite (v : Word) (st : Status) :
    clearFlags v st = { st with
      errIllegal := if v.getLsbD 4 then false else st.errIllegal
      errBusy := if v.getLsbD 5 then false else st.errBusy
      errClamp := if v.getLsbD 6 then false else st.errClamp
      errFail := if v.getLsbD 7 then false else st.errFail } := by
  have hclear : ∀ b c : Bool, (b && !c) = if c then false else b := by decide
  simp only [clearFlags, hclear]

theorem byteOfWord_eq (w : Word) (k : Nat) : byteOfWord w k = BitVec.ofNat 8 (w.toNat / 256 ^ k) := by
  rw [byteOfWord, pow_mul]
  norm_num

/-- A written word lies little-endian (20_memory.md R64). -/
theorem Memory.readByte_writeWord_lane (m : Memory) (a : Nat) (w : Word) {k : Nat} (hk : k < 4) :
    readByte (writeWord m a w) (a + k) = some (byteOfWord w k) := by
  rw [readByte_writeWord]
  interval_cases k <;> simp

/-- The address of a buffer word. -/
theorem bufferAddress_eq (base : Nat) (c : Channel) (i : Nat) :
    base + 0x10000 + 0x10000 * c.index + 4 * i = base + (Reg.buffer c i).offset := by
  simp only [Reg.offset, bufferOffset]; omega

/-- The address of a stage word. -/
theorem stageAddress_eq (base : Nat) (c : Channel) (j : Fin 9) (w : Fin 8) :
    base + 0x400 + 0x200 * c.index + 0x20 * j.val + 4 * w.val = base + (Reg.stage c j w).offset := by
  simp only [Reg.offset]; omega

end Sys2Proof.Machine
end

section
/-! PROOFS. What a command leaves in memory (42_datapath.md R174), and that it works on its snapshot (43_engine.md R203). -/

namespace Sys2Proof.Machine

/-- Only the samples of a PROCESS write memory. -/
theorem processSamples_readByte {s t : State} {n a : Nat} (h : processSamples n s = .next t)
    (ha : ∀ c, a < bufferOffset c 0 ∨ bufferOffset c 0 + 4 * n ≤ a) : t.mem.readByte a = s.mem.readByte a := by
  obtain ⟨xs, ys, hl, hr, rfl⟩ := processSamples_next h
  rw [endCommand_mem, snapDelays_mem, applyBlock_mem,
    Memory.readByte_writeBlock_of_ne _ (by rw [processChannel_length, Memory.length_readBlock hr]; exact ha .right),
    Memory.readByte_writeBlock_of_ne _ (by rw [processChannel_length, Memory.length_readBlock hl]; exact ha .left)]

theorem execProcess_readByte {s t : State} {n a : Nat} (h : execProcess n s = .next t)
    (ha : ∀ c, a < bufferOffset c 0 ∨ bufferOffset c 0 + 4 * n ≤ a) : t.mem.readByte a = s.mem.readByte a := by
  by_cases hp : ∃ sane clamped, ProcessPasses n s sane clamped
  · obtain ⟨sane, clamped, hp⟩ := hp
    exact processSamples_readByte (s := applyUpdate sane clamped s) ((execProcess_of_passes hp).symm.trans h) ha
  · simp only [not_exists] at hp
    rw [(execProcess_of_not_passes hp h .left).2]

theorem execPrepare_mem {s t : State} (h : execPrepare s = .next t) : t.mem = s.mem := by
  rcases execPrepare_cases s with ⟨code, -, he⟩ | ⟨-, -, he⟩ <;> cases he.symm.trans h
  · exact endedBy_mem s code
  · rfl

theorem execUpdate_mem {s t : State} (h : execUpdate s = .next t) : t.mem = s.mem := by
  rcases execUpdate_cases s with ⟨code, -, he⟩ | ⟨_, _, -, -, -, he⟩ <;> cases he.symm.trans h
  · exact endedBy_mem s code
  · rfl

/-- Other values in the live registers: the settings, SAMPLE_RATE and MAX_BLOCK (20_memory.md R66). -/
def State.withLive (settings : Settings) (rate block : Word) (s : State) : State :=
  { s with settings := settings, sampleRate := rate, maxBlock := block }

/-- The outcome with a function applied to the next state. -/
def mapNext (f : State → State) : Host.Outcome State Fault Refusal → Host.Outcome State Fault Refusal
  | .next t => .next (f t)
  | .fault r => .fault r
  | .refused r => .refused r

/-- The result of an update body with a function applied to its state. -/
def UpdateResult.map (f : State → State) : UpdateResult → UpdateResult
  | .updated t => .updated (f t)
  | .ended t => .ended (f t)

section

variable (settings : Settings) (rate block : Word) (s : State)

@[simp] theorem withLive_params : (s.withLive settings rate block).params = s.params := rfl
@[simp] theorem withLive_pend : (s.withLive settings rate block).pend = s.pend := rfl
@[simp] theorem withLive_status : (s.withLive settings rate block).status = s.status := rfl
@[simp] theorem withLive_actRate : (s.withLive settings rate block).actRate = s.actRate := rfl
@[simp] theorem withLive_actMax : (s.withLive settings rate block).actMax = s.actMax := rfl
@[simp] theorem withLive_mem : (s.withLive settings rate block).mem = s.mem := rfl

theorem violate_withLive (code : Cause) :
    violate code (s.withLive settings rate block) = (violate code s).withLive settings rate block := by
  unfold violate
  rw [withLive_params]
  cases s.params.buildMode <;> rfl

theorem applyBlock_withLive (xs ys : List Word) :
    applyBlock xs ys (s.withLive settings rate block) = (applyBlock xs ys s).withLive settings rate block := rfl

theorem snapDelays_withLive :
    snapDelays (s.withLive settings rate block) = (snapDelays s).withLive settings rate block := by
  unfold snapDelays
  rw [withLive_params]
  cases s.params.snapToZero <;> rfl

theorem execPrepare_withLive :
    execPrepare (s.withLive settings rate block) = mapNext (·.withLive settings rate block) (execPrepare s) := by
  simp only [execPrepare, withLive_params, withLive_pend, violate_withLive]
  split_ifs <;> rfl

theorem updateBody_withLive :
    updateBody (s.withLive settings rate block) = (updateBody s).map (·.withLive settings rate block) := by
  simp only [updateBody, withLive_params, withLive_pend, withLive_status, withLive_actRate, violate_withLive]
  split_ifs
  · rfl
  · cases validate s.pend.settings s.actRate s.params.buildMode <;> rfl

theorem execUpdate_withLive :
    execUpdate (s.withLive settings rate block) = mapNext (·.withLive settings rate block) (execUpdate s) := by
  simp only [execUpdate, updateBody_withLive]
  cases updateBody s <;> rfl

theorem processSamples_withLive (n : Nat) :
    processSamples n (s.withLive settings rate block) = mapNext (·.withLive settings rate block) (processSamples n s) := by
  simp only [processSamples, withLive_mem, applyBlock_withLive, snapDelays_withLive]
  cases s.mem.readBlock (bufferOffset .left 0) n with
  | none => rfl
  | some xs => cases s.mem.readBlock (bufferOffset .right 0) n <;> rfl

theorem execProcess_withLive (n : Nat) :
    execProcess n (s.withLive settings rate block) = mapNext (·.withLive settings rate block) (execProcess n s) := by
  simp only [execProcess, withLive_status, withLive_actMax, violate_withLive, updateBody_withLive]
  split_ifs
  · rfl
  · rfl
  · cases updateBody s with
    | updated t => exact processSamples_withLive settings rate block t n
    | ended t => rfl

theorem exec_withLive (i : Instr) :
    exec i (s.withLive settings rate block) = mapNext (·.withLive settings rate block) (exec i s) := by
  cases i with
  | nop => rfl
  | prepare => exact execPrepare_withLive settings rate block s
  | update => exact execUpdate_withLive settings rate block s
  | process n => exact execProcess_withLive settings rate block s n

end

end Sys2Proof.Machine
end

section
/-! PROOFS. The statements of 20_memory.md: O21, O22, O44 to O48 and O50 to O54. -/

namespace Sys2Proof

open Machine

/-- Settles O21: only the samples of a PROCESS write memory, and they write the words they read. -/
theorem commandMemoryFrame : Obligations.CommandMemoryFrame := by
  intro i s t a h
  refine ⟨?_, ?_⟩
  · rintro (rfl | rfl | rfl)
    · cases h; rfl
    · rw [execPrepare_mem h]
    · rw [execUpdate_mem h]
  · rintro n rfl ha
    exact execProcess_readByte h ha

/-- Settles O22: each command commutes with a change of the live registers. -/
theorem commandsIgnoreTheLiveRegisters : Obligations.CommandsIgnoreTheLiveRegisters := by
  intro i s settings rate block
  have hl := exec_withLive settings rate block s i
  refine ⟨fun t ht => ?_, fun r hr => ?_⟩
  · rwa [ht] at hl
  · rwa [hr] at hl

/-- Settles O44: the map answers no place, whatever the kind of the access. -/
theorem badAccessesAreBusErrors : Obligations.BadAccessesAreBusErrors := by
  intro s addr size v rest hbad
  have busError (hp : s.params.wellFormed = true) :=
    step_access_error (accessTarget_unmapped (target_bad hp hbad)) v rest
  exact ⟨fun h => (busError h.1).1 h, fun h => (busError h.1).2 h⟩

/-- Settles O45: the tabled offsets are those of `Reg.offset`, where the map holds the place. -/
theorem registerMapIsAsTabled : Obligations.RegisterMapIsAsTabled := by
  intro p hp
  refine ⟨?_, fun c j w => ?_, fun c i hi => ?_⟩
  · change (Reg.named.map fun r => (r.offset, r)).all _ = true
    rw [List.all_map, List.all_eq_true]
    intro r hr
    have hnamed : ∀ r ∈ Reg.named, r.isNamed = true := by decide
    exact beq_iff_eq.mpr (target_reg hp (Reg.existsIn_of_isNamed p (hnamed r hr)))
  · rw [stageAddress_eq]
    exact target_reg hp trivial
  · rw [bufferAddress_eq]
    exact target_reg hp hi

/-- Settles O46: the five kinds of place are closed while BUSY. -/
theorem accessesWhileBusyAreRaces : Obligations.AccessesWhileBusyAreRaces := by
  intro s addr v rest r hb ht hr
  have hclosed : r.closedWhileBusy = true := by
    rcases hr with ⟨c, j, w, rfl⟩ | ⟨c, i, rfl⟩ | ⟨f, rfl⟩ | rfl | rfl <;> rfl
  exact step_access_error (accessTarget_race ht hb hclosed) v rest

/-- Settles O47, by what a read that answers can do. -/
theorem readsHaveNoSideEffects : Obligations.ReadsHaveNoSideEffects := by
  intro s t addr size rest h hs
  obtain ⟨r, v, -, -, rfl⟩ := hostRead_next.mp ((step_read h).symm.trans hs)
  exact ⟨v, rfl⟩

/-- Settles O48: both tables list named registers with their words, and the registers of the first are open in either phase. -/
theorem controlRegisterReads : Obligations.ControlRegisterReads := by
  rintro s offset v rest h (hv | ⟨hi, hv⟩)
  · exact step_read_tabled (rs := Reg.namedOpen) h (by decide) (.inr (by decide)) hv
  · exact step_read_tabled (rs := Reg.namedClosed) h (by decide) (.inl hi) hv

/-- Settles O50: the write reaches STATUS in any phase. -/
theorem statusWriteClearsExactlyTheSetBits : Obligations.StatusWriteClearsExactlyTheSetBits := by
  intro s v rest h
  rw [← clearFlags_eq_ite]
  exact step_write_reg (r := .status) h trivial (.inr rfl)

/-- Settles O51: each of the nine places stores the word, in any phase. -/
theorem settingsWritesStoreAnyValueAtAnyTime : Obligations.SettingsWritesStoreAnyValueAtAnyTime := by
  intro s v rest
  have stored {r : Reg} (hr : r.ExistsIn s.params) (ho : r.closedWhileBusy = false)
      (h : s.nextWrite (s.params.base + r.offset) 4 v rest) : step s = .next (writeReg { s with events := rest } r v) :=
    step_write_reg h hr (.inr ho)
  exact ⟨stored (r := .sampleRate) trivial rfl, stored (r := .maxBlock) trivial rfl,
    stored (r := .setting .lcf) trivial rfl, stored (r := .setting .lcs) trivial rfl,
    stored (r := .setting .hcf) trivial rfl, stored (r := .setting .hcs) trivial rfl,
    stored (r := .setting .pkf) trivial rfl, stored (r := .setting .pkq) trivial rfl,
    stored (r := .setting .pkg) trivial rfl⟩

/-- Settles O52: an open read-only place ignores the write. -/
theorem readOnlyWritesAreIgnored : Obligations.ReadOnlyWritesAreIgnored := by
  rintro s addr v rest r h ht (rfl | rfl | ⟨hi, hr⟩)
  · exact step_write_of_ok h ht (.inr rfl)
  · exact step_write_of_ok h ht (.inr rfl)
  · rw [step_write_of_ok h ht (.inl hi)]
    rcases hr with rfl | rfl | ⟨f, rfl⟩ | ⟨c, j, w, rfl⟩ <;> rfl

/-- Settles O53: the stage word is the tabled field. -/
theorem stageReadbackShowsTheStage : Obligations.StageReadbackShowsTheStage := by
  intro s c j w rest h hi
  rw [stageWord_eq_getD]
  rw [stageAddress_eq] at h
  exact step_read_reg h trivial (.inl hi) rfl

/-- Settles O54: the write puts the four byte lanes at the word's offset, and a read joins what stands there. -/
theorem bufferWordsReadBackAsWritten : Obligations.BufferWordsReadBackAsWritten := by
  intro s c i rest hi hidle
  simp only [bufferAddress_eq]
  refine ⟨fun v h => ?_, fun v hv h => step_read_reg h hi (.inl hidle) hv, fun hv h => ?_⟩
  · refine ⟨_, step_write_reg h hi (.inl hidle), ?_, fun k hk => ?_, fun a ha => ?_, rfl⟩
    · exact step_read_reg (r := .buffer c i) ⟨h.1, rfl⟩ hi (.inl hidle) (Memory.readWord_writeWord _ _ v)
    · rw [← byteOfWord_eq]
      exact Memory.readByte_writeWord_lane _ _ v hk
    · exact Memory.readByte_writeWord_of_ne v ha
  · rw [step_read h]
    exact hostRead_unwritten (accessTarget_ok.mpr ⟨target_reg h.1 hi, fun hb => by cases hidle.symm.trans hb.1⟩) hv

end Sys2Proof
end

section
/-! PROOFS. The fields of a command word, and that `encode` and `decode` are inverse to each other (30_encoding.md R90 to R94). -/

namespace Sys2Proof

open Machine

/-- OP, bits 3:0 of a command word (30_encoding.md R90). -/
theorem bitField_op (w : Word) : bitField w 3 0 = w.toNat % 16 := by simp [bitField]

/-- RSV, bits 15:4. -/
theorem bitField_rsv (w : Word) : bitField w 15 4 = w.toNat / 16 % 4096 := rfl

/-- N, bits 31:16: nothing lies above it. -/
theorem bitField_count (w : Word) : bitField w 31 16 = w.toNat / 65536 :=
  Nat.mod_eq_of_lt (Nat.div_lt_of_lt_mul w.isLt)

/-- The three fields make up the word. -/
theorem toNat_eq_fields (w : Word) :
    w.toNat = bitField w 31 16 * 2 ^ 16 + bitField w 15 4 * 2 ^ 4 + bitField w 3 0 := by
  rw [bitField_op, bitField_rsv, bitField_count]
  omega

/-- Words with the same fields are the same word. -/
theorem eq_of_fields {v w : Word} (hcount : bitField v 31 16 = bitField w 31 16)
    (hrsv : bitField v 15 4 = bitField w 15 4) (hop : bitField v 3 0 = bitField w 3 0) : v = w :=
  BitVec.eq_of_toNat_eq (by rw [toNat_eq_fields v, toNat_eq_fields w, hcount, hrsv, hop])

/-- The opcode of a command (30_encoding.md R91). -/
def Instr.opcode : Instr → Nat
  | .nop => 0
  | .prepare => 1
  | .update => 2
  | .process _ => 3

/-- N of a command's word: 0 without PROCESS (30_encoding.md R92). -/
def Instr.count : Instr → Nat
  | .nop | .prepare | .update => 0
  | .process count => count

theorem encode_fields {i : Instr} (h : i.wellFormed = true) :
    bitField (encode i) 31 16 = i.count ∧ bitField (encode i) 15 4 = 0 ∧ bitField (encode i) 3 0 = i.opcode := by
  cases i with
  | nop | prepare | update => decide
  | process count =>
    have hcount : count < 65536 := of_decide_eq_true h
    have hword : (encode (.process count)).toNat = count * 2 ^ 16 + 3 := Nat.mod_eq_of_lt (by omega)
    rw [bitField_op, bitField_rsv, bitField_count, hword]
    simp only [Instr.count, Instr.opcode]
    omega

/-- 30_encoding.md R91, R92: a word decodes to the command that has its OP and N, where RSV is 0. -/
theorem decode_eq_command_iff_fields {w : Word} {i : Instr} :
    decode w = .command i ↔
      bitField w 31 16 = i.count ∧ bitField w 15 4 = 0 ∧ bitField w 3 0 = i.opcode := by
  constructor
  · intro h
    unfold decode at h
    split_ifs at h with hrsv hop hcount <;> cases h
    · exact ⟨rfl, of_not_not hrsv, hop⟩
    all_goals exact ⟨of_not_not hcount, of_not_not hrsv, ‹_›⟩
  · rintro ⟨hcount, hrsv, hop⟩
    cases i <;> simp [decode, hcount, hrsv, hop, Instr.count, Instr.opcode]

theorem decode_encode {i : Instr} (h : i.wellFormed = true) : decode (encode i) = .command i :=
  decode_eq_command_iff_fields.mpr (encode_fields h)

/-- Each command has one word (30_encoding.md R91). -/
theorem encode_of_decode {w : Word} {i : Instr} (h : decode w = .command i) : encode i = w := by
  obtain ⟨hcount, hrsv, hop⟩ := decode_eq_command_iff_fields.mp h
  obtain ⟨hcount', hrsv', hop'⟩ := encode_fields (decode_wellFormed h)
  exact eq_of_fields (hcount'.trans hcount.symm) (hrsv'.trans hrsv.symm) (hop'.trans hop.symm)

/-- The byte decoder takes the four bytes of one word and leaves the rest (20_memory.md R64). -/
theorem decodeBytes_encodeBytes_append (i : Instr) (rest : List Byte) :
    decodeBytes (encodeBytes i ++ rest) = (decode (encode i), rest) :=
  congrArg (fun w => (decode w, rest)) (Memory.wordOfBytes_byteOfWord (encode i))

/-- 30_encoding.md R93, by the fields. -/
theorem decode_illegal_iff (w : Word) :
    (∃ why, decode w = .illegal why) ↔
      (4 ≤ bitField w 3 0 ∨ bitField w 15 4 ≠ 0 ∨ (bitField w 3 0 ≠ 3 ∧ bitField w 31 16 ≠ 0)) := by
  unfold decode
  split_ifs with hrsv hop hcount
  · exact iff_of_true ⟨_, rfl⟩ (.inr (.inl hrsv))
  · exact iff_of_false nofun (by omega)
  · exact iff_of_true ⟨_, rfl⟩ (.inr (.inr ⟨hop, hcount⟩))
  · exact iff_of_false nofun (by omega)
  · exact iff_of_false nofun (by omega)
  · exact iff_of_false nofun (by omega)
  · exact iff_of_true ⟨_, rfl⟩ (by omega)

end Sys2Proof
end

section
/-! PROOFS. The layout of STATUS (30_encoding.md R98): eight flag bits below the CAUSE code. -/

namespace Sys2Proof.Machine

/-- Bits 7:0 of STATUS, lowest first (30_encoding.md R98). -/
def statusFlags (phase : Phase) (st : Status) : Fin 8 → Bool :=
  ![decide (phase = .busy), st.prepared, st.fault, false, st.errIllegal, st.errBusy, st.errClamp, st.errFail]

theorem flagBit_eq (set : Bool) (position : Nat) : flagBit set position = set.toNat * 2 ^ position := by
  cases set <;> simp [flagBit]

theorem Cause.code_le (c : Cause) : c.code ≤ 10 := by cases c <;> decide

/-- The flags as a number, each at its position (30_encoding.md R98). -/
theorem ofBits_statusFlags (phase : Phase) (st : Status) :
    Nat.ofBits (statusFlags phase st) =
      flagBit (decide (phase = .busy)) 0 + flagBit st.prepared 1 + flagBit st.fault 2 + flagBit st.errIllegal 4
        + flagBit st.errBusy 5 + flagBit st.errClamp 6 + flagBit st.errFail 7 := by
  simp only [statusFlags, flagBit_eq, Nat.ofBits_succ, Nat.ofBits_zero, Nat.reduceAdd, Function.comp_apply,
    Fin.succ_zero_eq_one, Fin.succ_one_eq_two, Fin.reduceSucc, Matrix.cons_val, Bool.toNat_false]
  omega

theorem toNat_statusWord (phase : Phase) (st : Status) :
    (statusWord phase st).toNat = 2 ^ 8 * st.cause.code + Nat.ofBits (statusFlags phase st) := by
  have hflags := Nat.ofBits_lt_two_pow (statusFlags phase st)
  have hcode := st.cause.code_le
  rw [statusWord, ← ofBits_statusFlags, BitVec.toNat_ofNat, Nat.mod_eq_of_lt (by omega), Nat.add_comm]

theorem getLsbD_statusWord (phase : Phase) (st : Status) (k : Fin 8) :
    (statusWord phase st).getLsbD k = statusFlags phase st k := by
  rw [BitVec.getLsbD, toNat_statusWord, Nat.testBit_two_pow_mul_add _ (Nat.ofBits_lt_two_pow _), if_pos k.isLt,
    Nat.testBit_ofBits_lt _ _ k.isLt]

/-- Above the flags stands the CAUSE code alone. -/
theorem toNat_statusWord_div (phase : Phase) (st : Status) : (statusWord phase st).toNat / 2 ^ 8 = st.cause.code := by
  have hflags := Nat.ofBits_lt_two_pow (statusFlags phase st)
  rw [toNat_statusWord]
  omega

end Sys2Proof.Machine
end

section
/-! PROOFS. The statements of 30_encoding.md: O1 to O4 and O49. -/

namespace Sys2Proof

open Machine

/-- Settles O1: each of the twelve words is decoded. -/
theorem commandWordsDecode : Obligations.CommandWordsDecode := by
  unfold Obligations.CommandWordsDecode
  decide

/-- Settles O2: the bytes join to the word, and the word has the fields of the command. -/
theorem decodeOfEncodeIsTheCommand : Obligations.DecodeOfEncodeIsTheCommand := by
  intro i rest h
  rw [decodeBytes_encodeBytes_append, decode_encode h]
  exact ⟨rfl, rfl⟩

/-- Settles O3: the word and the encoding have the same fields. -/
theorem encodeOfDecodedIsTheWord : Obligations.EncodeOfDecodedIsTheWord := by
  intro w i h
  exact ⟨encode_of_decode h, decode_wellFormed h⟩

/-- Settles O4: by the fields of the word; the write reaches CMD, which records the illegal word. -/
theorem illegalWordsSetOnlyErrIllegal : Obligations.IllegalWordsSetOnlyErrIllegal := by
  intro w
  refine ⟨?_, fun s rest why hw h hi hf => ?_⟩
  · rw [← bitField_op, ← bitField_rsv, ← bitField_count]
    exact decode_illegal_iff w
  · rw [step_write_reg (r := .cmd) h trivial (.inr rfl)]
    exact congrArg Host.Outcome.next (writeCommand_illegal (s := { s with events := rest }) hf hi hw)

/-- Settles O49: the read reaches STATUS in any phase and returns its word, whose low bits are the flags. -/
theorem statusReadShowsTheFlags : Obligations.StatusReadShowsTheFlags := by
  refine ⟨fun s rest h => ?_, rfl⟩
  have hbit := getLsbD_statusWord s.phase s.status
  exact ⟨statusWord s.phase s.status, step_read_reg (r := .status) h trivial (.inr rfl) rfl,
    hbit 0, hbit 1, hbit 2, hbit 3, hbit 4, hbit 5, hbit 6, hbit 7, toNat_statusWord_div s.phase s.status⟩

end Sys2Proof
end

section
/-! PROOFS. What validation lets through lies below Nyquist, and which section of a cut design stands at index k. -/

namespace Sys2Proof.Machine

/-- 43_engine.md R204: the settings that validation answers have passed its Nyquist checks. -/
theorem validate_belowNyquist {settings sane : Settings} {rate : Word} {mode : BuildMode} {clamped : Bool}
    (h : validate settings rate mode = .ok sane clamped) : sane.BelowNyquist rate := by
  unfold validate at h
  split at h
  case h_1 sane' c hc =>
    split_ifs at h with hn
    · cases mode <;> cases h
    · cases h
      simpa [Settings.BelowNyquist, and_assoc] using hn
  all_goals cases h

theorem getElem?_designHighpassCascade (a : DesignArith) (f r : Word) {n k : Nat} (h : k < n / 2) :
    (designHighpassCascade a f r n)[k]? = some (Design.highpassSection a f r n k) := by
  simp [designHighpassCascade, h]

theorem getElem?_designLowpassCascade (a : DesignArith) (f r : Word) {n k : Nat} (h : k < n / 2) :
    (designLowpassCascade a f r n)[k]? = some (Design.lowpassSection a f r n k) := by
  simp [designLowpassCascade, h]

end Sys2Proof.Machine
end

section
/-! PROOFS. The statements of 40_designer.md: O24 and O31 to O34. -/

namespace Sys2Proof

open Machine

/-- Settles O24: the loop leaves every field inside its limits, and the settings are answered only past the Nyquist checks. -/
theorem validatedSettingsAreInTheDesignDomain : Obligations.ValidatedSettingsAreInTheDesignDomain :=
  fun _ _ _ _ _ h => ⟨validate_inRange h, validate_belowNyquist h⟩

/-- Settles O31: the statement's formulas are the five reals that the peak's intervals contain and close in on. -/
theorem peakDesignIsRoundedExactly : Obligations.PeakDesignIsRoundedExactly := by
  intro rate freq q gain _ _ _ _ hfreq hnyquist hq
  obtain ⟨b0, b1, b2, a1, a2⟩ := Design.round_peakExact (gain := gain) hfreq hnyquist hq
  exact ⟨b0, b1, b2, a1, a2⟩

/-- Settles O32: section k of an even order has 2k + 1 below the order, so 2·cos((2k + 1)·π / 2N) and with it Q are
positive, as the rounding lemma needs. -/
theorem highpassDesignIsRoundedExactly : Obligations.HighpassDesignIsRoundedExactly := by
  intro freq rate order k _ _ hfreq hnyquist heven hk
  obtain ⟨b0, b1, b2, a1, a2⟩ := Design.round_highpassExact hfreq hnyquist (by omega : 2 * k + 1 < order)
  refine ⟨_, getElem?_designHighpassCascade .exact freq rate hk, ?_⟩
  simp only [sq]
  exact ⟨b0, b1, b2, a1, a2⟩

/-- Settles O33: as for the highpass; M = 1/tan is positive because the tangent is. -/
theorem lowpassDesignIsRoundedExactly : Obligations.LowpassDesignIsRoundedExactly := by
  intro freq rate order k _ _ hfreq hnyquist heven hk
  obtain ⟨b0, b1, b2, a1, a2⟩ := Design.round_lowpassExact hfreq hnyquist (by omega : 2 * k + 1 < order)
  refine ⟨_, getElem?_designLowpassCascade .exact freq rate hk, ?_⟩
  simp only [sq]
  exact ⟨b0, b1, b2, a1, a2⟩

/-- Settles O34: a cut design has order/2 sections, and the four orders are even. -/
theorem cutDesignsReturnHalfOrderSections : Obligations.CutDesignsReturnHalfOrderSections := by
  intro arith freq rate order h
  rw [designHighpassCascade_length, designLowpassCascade_length]
  omega

end Sys2Proof
end

section
/-! PROOFS. The statement of 41_cascade.md: O35. -/

namespace Sys2Proof

open Machine

/-- Settles O35: assign leaves the flag of stage k at decide (oi < k), which is false exactly up to oi. -/
theorem assignEnablesExactlyThePrefix : Obligations.AssignEnablesExactlyThePrefix := by
  intro c oi coeffs h hl k
  rw [c.assign_prefixEnabled h hl k, decide_eq_false_iff_not, not_lt]

end Sys2Proof
end

section
/-! PROOFS. ⊕, ⊖ and ⊗ with NaN, infinite and subnormal operands (00_scope.md R10, 42_datapath.md R178, R180). -/

namespace Sys2Proof.Machine.F32

/-! ### NaN and infinite operands -/

section

variable (m : DenormalMode) (d : BitVec 23) {x y : Word}

@[simp] theorem isNaN_flush (x : Word) : isNaN (flush m x) = isNaN x := (flush_keeps m x).1

@[simp] theorem isInf_flush (x : Word) : isInf (flush m x) = isInf x := (flush_keeps m x).2.1

theorem isNaN_add (h : isNaN x = true ∨ isNaN y = true) : isNaN (add m d x y) = true := by
  rw [add, isNaN_flush, addIeee, if_pos (by simpa using h)]
  exact isNaN_quietNaN d

theorem isNaN_sub (h : isNaN x = true ∨ isNaN y = true) : isNaN (sub m d x y) = true :=
  isNaN_add m d (h.imp_right (isNaN_neg y).trans)

theorem isNaN_mul (h : isNaN x = true ∨ isNaN y = true) : isNaN (mul m d x y) = true := by
  rw [mul, isNaN_flush, mulIeee, if_pos (by simpa using h)]
  exact isNaN_quietNaN d

theorem mul_swap (x y : Word) : mul m d x y = mul m d y x := by
  simp only [mul, mulIeee, Bool.or_comm, Bool.and_comm, bne_comm, Nat.mul_comm]

theorem isInf_neg (x : Word) : isInf (neg x) = isInf x := by rw [isInf, isInf, mag_neg]

/-- Two infinities of one sign are one datum. -/
theorem eq_of_isInf_of_sign_eq (hx : isInf x = true) (hy : isInf y = true) (hs : sign x = sign y) : x = y := by
  rw [← pack_sign_mag x, ← pack_sign_mag y, hs, isInf_iff.mp hx, isInf_iff.mp hy]

/-- An infinite operand absorbs what is not NaN and not the opposite infinity. -/
theorem add_of_isInf_left (hx : isInf x = true) (hy : isNaN y = false) (hs : isInf y = true → sign x = sign y) :
    add m d x y = x := by
  have absorbs : addIeee d x (flush m y) = x := by
    have sameSign : (isInf y && sign x != sign (flush m y)) = false := by
      rw [(flush_keeps m y).2.2.2]
      cases hi : isInf y with
      | false => rfl
      | true => simp [hs hi]
    simp [addIeee, (not_nan_zero_of_inf hx).1, hy, hx, sameSign]
  rw [add, flush_inf m hx, absorbs, flush_inf m hx]

theorem add_of_isInf_right (hx : isFinite x = true) (hy : isInf y = true) : add m d x y = y := by
  obtain ⟨xNotNaN, xNotInf⟩ := not_nan_inf_of_finite hx
  simp [add, addIeee, xNotNaN, xNotInf, (not_nan_zero_of_inf hy).1, hy, flush_inf m hy]

theorem isNaN_add_of_opposite_infinities (hx : isInf x = true) (hy : isInf y = true) (hs : sign x ≠ sign y) :
    isNaN (add m d x y) = true := by
  simp [add, flush_inf m hx, flush_inf m hy, addIeee, (not_nan_zero_of_inf hx).1, (not_nan_zero_of_inf hy).1, hx, hy, hs,
    isNaN_quietNaN]

theorem isNaN_mul_of_isInf_of_isZero (hx : isInf x = true) (hy : isZero (flush m y) = true) :
    isNaN (mul m d x y) = true := by
  rw [mul, isNaN_flush, flush_inf m hx, mulIeee]
  simp [hx, hy, isNaN_quietNaN]

theorem mul_of_isInf (hx : isInf x = true) (hy : isNaN y = false) (hz : isZero (flush m y) = false) :
    mul m d x y = pack (sign x != sign y) infMag := by
  obtain ⟨xNotNaN, xNotZero⟩ := not_nan_zero_of_inf hx
  have product : mulIeee d x (flush m y) = pack (sign x != sign y) infMag := by
    simp [mulIeee, xNotNaN, xNotZero, hx, hy, hz, (flush_keeps m y).2.2.2]
  rw [mul, flush_inf m hx, product, flush_inf m (isInf_iff.mpr (mag_pack (by norm_num [infMag])))]

end

/-! ### Subnormal operands and results -/

theorem isSubnormal_pack_zero (n : Bool) : isSubnormal (pack n 0) = false := by
  simp [isSubnormal, mag_pack (n := n) (m := 0) (by norm_num)]

theorem flush_of_subnormal {x : Word} (h : isSubnormal x = true) : flush .ftz x = pack (sign x) 0 := if_pos h

theorem flush_of_not_subnormal {x : Word} (h : isSubnormal x = false) : flush .ftz x = x :=
  if_neg (by rw [h]; exact Bool.false_ne_true)

theorem isSubnormal_flush_ftz (x : Word) : isSubnormal (flush .ftz x) = false := by
  cases h : isSubnormal x with
  | true => rw [flush_of_subnormal h, isSubnormal_pack_zero]
  | false => rw [flush_of_not_subnormal h, h]

theorem isSubnormal_neg (x : Word) : isSubnormal (neg x) = isSubnormal x := by rw [isSubnormal, isSubnormal, mag_neg]

theorem neg_pack_zero (n : Bool) : neg (pack n 0) = pack (!n) 0 := by
  rw [neg, sign_pack (by norm_num), mag_pack (by norm_num)]

/-- A subnormal flushes to what the zero of its sign flushes to. -/
theorem flush_ftz_eq_flush_zero {x : Word} (h : isSubnormal x = true) : flush .ftz x = flush .ftz (pack (sign x) 0) := by
  rw [flush_of_subnormal h, flush_of_not_subnormal (isSubnormal_pack_zero _)]

theorem flush_ftz_neg_eq_flush_neg_zero {x : Word} (h : isSubnormal x = true) :
    flush .ftz (neg x) = flush .ftz (neg (pack (sign x) 0)) := by
  rw [flush_ftz_eq_flush_zero ((isSubnormal_neg x).trans h), sign_neg, neg_pack_zero]

theorem add_ftz_of_not_subnormal (d : BitVec 23) {x y : Word} (hx : isSubnormal x = false) (hy : isSubnormal y = false) :
    add .ftz d x y = flush .ftz (add .ieee d x y) := by
  rw [add, flush_of_not_subnormal hx, flush_of_not_subnormal hy]; rfl

theorem sub_ftz_of_not_subnormal (d : BitVec 23) {x y : Word} (hx : isSubnormal x = false) (hy : isSubnormal y = false) :
    sub .ftz d x y = flush .ftz (sub .ieee d x y) :=
  add_ftz_of_not_subnormal d hx ((isSubnormal_neg y).trans hy)

theorem mul_ftz_of_not_subnormal (d : BitVec 23) {x y : Word} (hx : isSubnormal x = false) (hy : isSubnormal y = false) :
    mul .ftz d x y = flush .ftz (mul .ieee d x y) := by
  rw [mul, flush_of_not_subnormal hx, flush_of_not_subnormal hy]; rfl

end Sys2Proof.Machine.F32
end

section
/-! PROOFS. The statements of 42_datapath.md about single operations: O29 and O30. -/

namespace Sys2Proof

open Machine Machine.F32

/-- Settles O29: the sum and the product of each class of operands; the difference is the sum with the negated operand, and the
product does not depend on the order of its operands. -/
theorem nonFiniteOperandsFollowIeee : Obligations.NonFiniteOperandsFollowIeee := by
  intro m d x y
  refine ⟨fun h => ⟨isNaN_add m d h, isNaN_sub m d h, isNaN_mul m d h⟩, fun hx hy => ?_, fun hx hy => ?_, fun hx hy => ?_⟩
  · obtain ⟨yNotNaN, yNotInf⟩ := not_nan_inf_of_finite hy
    refine ⟨add_of_isInf_left m d hx yNotNaN (by simp [yNotInf]),
      add_of_isInf_left m d hx ((isNaN_neg y).trans yNotNaN) (by simp [isInf_neg, yNotInf]),
      isNaN_mul_of_isInf_of_isZero m d hx, mul_of_isInf m d hx yNotNaN⟩
  · refine ⟨add_of_isInf_right m d hx hy, add_of_isInf_right m d hx ((isInf_neg y).trans hy), ?_⟩
    rw [mul_swap, bne_comm]
    exact ⟨isNaN_mul_of_isInf_of_isZero m d hy, mul_of_isInf m d hy (not_nan_inf_of_finite hx).1⟩
  · obtain ⟨yNotNaN, yNotZero⟩ := not_nan_zero_of_inf hy
    have negInf : isInf (neg y) = true := (isInf_neg y).trans hy
    have negNotNaN : isNaN (neg y) = false := (isNaN_neg y).trans yNotNaN
    refine ⟨fun hs => ⟨add_of_isInf_left m d hx yNotNaN fun _ => hs,
        isNaN_add_of_opposite_infinities m d hx negInf (by simp [sign_neg, hs])⟩,
      fun hs => ⟨isNaN_add_of_opposite_infinities m d hx hy hs,
        add_of_isInf_left m d hx negNotNaN fun _ => by rw [sign_neg]; exact Bool.eq_not.mpr hs⟩,
      mul_of_isInf m d hx yNotNaN (by rwa [flush_inf m hy])⟩

/-- Settles O30: every ftz result is flushed, a subnormal operand and its zero flush to the same datum, and flushing leaves all
other operands as ieee takes them. -/
theorem flushToZeroFlushesOperandsAndResults : Obligations.FlushToZeroFlushesOperandsAndResults := by
  intro d x y
  refine ⟨isSubnormal_flush_ftz _, isSubnormal_flush_ftz _, isSubnormal_flush_ftz _, fun hx => ?_, fun hy => ?_, ?_⟩
  · simp only [sub, add, mul, flush_ftz_eq_flush_zero hx, and_self]
  · simp only [sub, add, mul, flush_ftz_eq_flush_zero hy, flush_ftz_neg_eq_flush_neg_zero hy, and_self]
  · intro hx hy ieee ftz h
    have flushed : ftz = flush .ftz ieee := by
      rcases h with ⟨rfl, rfl⟩ | ⟨rfl, rfl⟩ | ⟨rfl, rfl⟩
      · exact add_ftz_of_not_subnormal d hx hy
      · exact sub_ftz_of_not_subnormal d hx hy
      · exact mul_ftz_of_not_subnormal d hx hy
    rw [flushed]
    exact ⟨flush_of_not_subnormal, flush_of_subnormal⟩

end Sys2Proof
end

section
/-! PROOFS. What one stage does with a sample: NaN operands stay (42_datapath.md R180), the identity stage (R181), exact steps (R171)
and the state snap (R179). -/

namespace Sys2Proof.Machine

/-! ### NaN -/

section

variable (m : DenormalMode)

/-- A NaN sample and a NaN in s1 reach the output, and from there both delay elements. -/
theorem stageStep_isNaN (draw : Nat → BitVec 23) {st : Stage} {x : Word}
    (h : F32.isNaN x = true ∨ F32.isNaN st.s1 = true) :
    F32.isNaN (stageStep m draw st x).2 = true ∧ F32.isNaN (stageStep m draw st x).1.s1 = true ∧
      F32.isNaN (stageStep m draw st x).1.s2 = true := by
  have output : F32.isNaN (stageStep m draw st x).2 = true :=
    F32.isNaN_add m _ (h.imp_left fun hx => F32.isNaN_mul m _ (.inr hx))
  have feedback : ∀ d a, F32.isNaN (F32.mul m d a (stageStep m draw st x).2) = true :=
    fun d _ => F32.isNaN_mul m d (.inr output)
  exact ⟨output, F32.isNaN_add m _ (.inl (F32.isNaN_sub m _ (.inr (feedback _ _)))),
    F32.isNaN_sub m _ (.inr (feedback _ _))⟩

/-- s2 moves to s1 with every sample. -/
theorem stageStep_s1_isNaN_of_s2 (draw : Nat → BitVec 23) {st : Stage} (x : Word) (h : F32.isNaN st.s2 = true) :
    F32.isNaN (stageStep m draw st x).1.s1 = true := F32.isNaN_add m _ (.inr h)

/-- A NaN in s1 stays through every later sample. -/
theorem runStage_isNaN (draw : Nat → Nat → BitVec 23) (i : Nat) (xs : List Word) {st : Stage} (h : F32.isNaN st.s1 = true) :
    (∀ y ∈ (runStage m draw st i xs).2, F32.isNaN y = true) ∧ F32.isNaN (runStage m draw st i xs).1.s1 = true ∧
      (xs ≠ [] → F32.isNaN (runStage m draw st i xs).1.s2 = true) := by
  induction xs generalizing st i with
  | nil => exact ⟨fun y hy => absurd hy List.not_mem_nil, h, fun hne => absurd rfl hne⟩
  | cons x xs ih =>
    obtain ⟨output, s1NaN, s2NaN⟩ := stageStep_isNaN m (draw i) (x := x) (.inr h)
    obtain ⟨later, s1Last, s2Last⟩ := ih (i + 1) s1NaN
    rw [runStage]
    refine ⟨List.forall_mem_cons.mpr ⟨output, later⟩, s1Last, fun _ => ?_⟩
    cases xs with
    | nil => exact s2NaN
    | cons => exact s2Last (List.cons_ne_nil _ _)

end

/-! ### The identity stage -/

namespace F32

/-- Rounding finds every datum again. -/
theorem roundMag_magUnits {k den : Nat} (h : 0 < den) (hk : k ≤ infMag) : roundMag (magUnits k * den) den = k := by
  have value : ((magUnits k * den : Nat) : ℝ) / den = magUnits k := by
    rw [Nat.cast_mul, mul_div_cancel_right₀]
    exact_mod_cast h.ne'
  have near := (openMag_nearest (num := magUnits k * den) h k).1
  rw [value, sub_self, abs_zero, abs_nonpos_iff, sub_eq_zero, Nat.cast_inj] at near
  rw [roundMag_eq, magUnits_strictMono.injective near, min_eq_left hk]

theorem isZero_pack_zero (n : Bool) : isZero (pack n 0) = true := isZero_iff.mpr (mag_pack (by norm_num))

theorem isZero_iff_units {x : Word} : isZero x = true ↔ units x = 0 := isZero_iff.trans units_eq_zero.symm

theorem decide_units_neg {x : Word} (h : isZero x = false) : decide (units x < 0) = sign x := by
  have pos : 0 < magUnits (mag x) := by
    have h0 : mag x ≠ 0 := fun h0 => by simp [isZero, h0] at h
    exact magUnits_zero ▸ magUnits_strictMono (Nat.pos_of_ne_zero h0)
  unfold units
  cases sign x <;> simp [pos]

/-- A value names its datum, but for the sign of a zero. -/
theorem eq_or_isZero_of_units_eq {x y : Word} (h : units y = units x) : y = x ∨ (isZero x = true ∧ isZero y = true) := by
  have mags : mag y = mag x := magUnits_strictMono.injective (by exact_mod_cast (abs_units y).symm.trans (h ▸ abs_units x))
  cases hz : isZero x with
  | true => exact .inr ⟨rfl, isZero_iff.mpr (mags.trans (isZero_iff.mp hz))⟩
  | false =>
    have signs : sign y = sign x := by
      rw [← decide_units_neg hz, ← h, decide_units_neg (by rw [isZero, mags]; exact hz)]
    exact .inl (by rw [← pack_sign_mag y, signs, mags, pack_sign_mag])

theorem isFinite_of_units_eq {x y : Word} (h : units y = units x) (hx : isFinite x = true) : isFinite y = true := by
  rcases eq_or_isZero_of_units_eq h with rfl | ⟨-, hy⟩
  · exact hx
  · exact (finite_of_zero hy).1

/-- 1.0 ⊗ x = x, bit for bit. -/
theorem one_mul_of_finite (d : BitVec 23) {x : Word} (hx : isFinite x = true) : mul .ieee d 0x3F800000 x = x := by
  have one : isFinite 0x3F800000 = true ∧ sign 0x3F800000 = false ∧ magUnits (mag 0x3F800000) = 2 ^ 149 := by decide
  obtain ⟨oneFinite, oneSign, oneUnits⟩ := one
  rw [mul_of_finite d oneFinite hx, oneSign, oneUnits, Nat.mul_comm (2 ^ 149),
    roundMag_magUnits (by positivity) (isFinite_iff.mp hx).le, Bool.false_bne, pack_sign_mag]

/-- x ⊕ 0 has the value of x. Only the sign of a zero x can change. -/
theorem add_zero_of_finite (d : BitVec 23) {x z : Word} (hx : isFinite x = true) (hz : isZero z = true) :
    units (add .ieee d x z) = units x ∧ (isZero x = false → add .ieee d x z = x) := by
  obtain ⟨zFinite, zUnits⟩ := finite_of_zero hz
  rw [add_of_finite d hx zFinite]
  by_cases h : isZero x = true
  · have xUnits := isZero_iff_units.mp h
    rw [addFinite_of_zero_sum (by rw [xUnits, zUnits, add_zero]), xUnits, ← isZero_iff_units]
    exact ⟨isZero_pack_zero _, fun hf => by simp [h] at hf⟩
  · have same : addFinite x z = x := by
      rw [addFinite, zUnits, add_zero, if_neg (mt isZero_iff_units.mpr h), decide_units_neg (by simpa using h)]
      have abs : (units x).natAbs = magUnits (mag x) := by rw [← Nat.cast_inj (R := Int), Int.natCast_natAbs, abs_units]
      have round := roundMag_magUnits Nat.one_pos (isFinite_iff.mp hx).le
      rw [Nat.mul_one] at round
      rw [abs, round, pack_sign_mag]
    rw [same]
    exact ⟨rfl, fun _ => rfl⟩

/-- The difference of two finite data of one value is a zero. -/
theorem isZero_sub_of_units_eq (d : BitVec 23) {x y : Word} (hx : isFinite x = true) (h : units y = units x) :
    isZero (sub .ieee d x y) = true := by
  rw [sub_of_finite d hx (isFinite_of_units_eq h hx), addFinite_of_zero_sum (by rw [units_neg, h]; omega)]
  exact isZero_pack_zero _

theorem isZero_add_of_zeros (d : BitVec 23) {x y : Word} (hx : isZero x = true) (hy : isZero y = true) :
    isZero (add .ieee d x y) = true := by
  obtain ⟨xFinite, xUnits⟩ := finite_of_zero hx
  rw [isZero_iff_units, (add_zero_of_finite d xFinite hy).1, xUnits]

/-- A finite product with a finite operand has a finite other operand. -/
theorem isFinite_of_mul (d : BitVec 23) {b x : Word} (hx : isFinite x = true) (h : isFinite (mul .ieee d b x) = true) :
    isFinite b = true := by
  obtain ⟨prodNotNaN, prodNotInf⟩ := not_nan_inf_of_finite h
  by_contra hb
  rcases (show isNaN b = true ∨ isInf b = true by rw [isNaN_iff, isInf_iff]; rw [isFinite_iff] at hb; omega) with hn | hi
  · rw [isNaN_mul .ieee d (.inl hn)] at prodNotNaN
    cases prodNotNaN
  · cases hz : isZero x with
    | true =>
      rw [isNaN_mul_of_isInf_of_isZero .ieee d hi hz] at prodNotNaN
      cases prodNotNaN
    | false =>
      rw [mul_of_isInf .ieee d hi (not_nan_inf_of_finite hx).1 hz, isInf, mag_pack (by norm_num [infMag])] at prodNotInf
      simp at prodNotInf

/-- A product depends on the value of its operand only, but for the sign of a zero. -/
theorem units_mul_congr (d e : BitVec 23) {b x y : Word} (hb : isFinite b = true) (hx : isFinite x = true)
    (h : units y = units x) : units (mul .ieee e b y) = units (mul .ieee d b x) := by
  rw [mul_of_finite d hb hx, mul_of_finite e hb (isFinite_of_units_eq h hx)]
  rcases eq_or_isZero_of_units_eq h with rfl | ⟨hx0, hy0⟩
  · rfl
  · rw [isZero_iff.mp hx0, isZero_iff.mp hy0, magUnits_zero, Nat.mul_zero, roundMag_zero,
      isZero_iff_units.mp (isZero_pack_zero _), isZero_iff_units.mp (isZero_pack_zero _)]

/-- Where y has the value of x, b⊗x and b⊗y cancel. -/
theorem isZero_sub_mul_mul (d e f g : BitVec 23) {b x y : Word} (hx : isFinite x = true)
    (hp : isFinite (mul .ieee d b x) = true) (h : units y = units x) :
    isZero (sub .ieee f (mul .ieee e b x) (mul .ieee g b y)) = true := by
  have hb := isFinite_of_mul d hx hp
  have same : mul .ieee e b x = mul .ieee d b x := by rw [mul_of_finite e hb hx, mul_of_finite d hb hx]
  rw [same]
  exact isZero_sub_of_units_eq f hp (units_mul_congr d g hb hx h)

end F32

/-! ### Exact steps -/

/-- 42_datapath.md R170 in rational numbers, where no operation rounds. -/
theorem StepExact.values {m : DenormalMode} {draw : Nat → BitVec 23} {st st' : Stage} {x y : Word}
    (h : StepExact m draw st x) (hs : stageStep m draw st x = (st', y)) :
    F32.rat y = F32.rat st.coeffs.b0 * F32.rat x + F32.rat st.s1 ∧
      F32.rat st'.s1 = F32.rat st.coeffs.b1 * F32.rat x - F32.rat st.coeffs.a1 * F32.rat y + F32.rat st.s2 ∧
      F32.rat st'.s2 = F32.rat st.coeffs.b2 * F32.rat x - F32.rat st.coeffs.a2 * F32.rat y ∧
      st'.coeffs = st.coeffs := by
  obtain ⟨p0, y0, p1, q1, t, n1, p2, q2, n2⟩ := h
  cases hs
  exact ⟨by rw [y0, p0], by rw [n1, t, p1, q1], by rw [n2, p2, q2], rfl⟩

/-! ### The state snap -/

theorem snapStage_of_bypassed {st : Stage} (h : st.byp = true) : snapStage st = st := if_pos h

theorem snapStage_of_enabled {st : Stage} (h : st.byp = false) :
    snapStage st = { st with s1 := snapValue st.s1, s2 := snapValue st.s2 } := by simp [snapStage, h]

/-- 42_datapath.md R179: the values that stay lie below -T or above T. -/
theorem snapValue_eq (v : Word) :
    snapValue v =
      if F32.isNaN v = false ∧ (F32.units v < -F32.units snapThreshold ∨ F32.units snapThreshold < F32.units v) then v
      else 0 := by
  have thresholdNotNaN : F32.isNaN snapThreshold = false := by decide
  have kept : (F32.lt v (F32.neg snapThreshold) || F32.lt snapThreshold v) = true ↔
      F32.isNaN v = false ∧ (F32.units v < -F32.units snapThreshold ∨ F32.units snapThreshold < F32.units v) := by
    simp [F32.lt, F32.isNaN_neg, thresholdNotNaN, F32.units_neg, ← and_or_left]
  simp only [snapValue, kept]

theorem stage_snapDelays_on {s : State} (h : s.params.snapToZero = .on) (c : Channel) (j : Fin 9) :
    (snapDelays s).stage c j = snapStage (s.stage c j) := by
  rw [snapDelays_on h, State.stage_mapStages fun st => (snapStage_keeps st).2]

end Sys2Proof.Machine
end

section
/-! PROOFS. A block stage by stage and sample by sample (42_datapath.md R174, R175). -/

namespace Sys2Proof.Machine

theorem Chain.set_set (ch : Chain) (j : Fin 9) (a b : Stage) : (ch.set j a).set j b = ch.set j b := by
  fin_cases j <;> rfl

theorem Chain.set_comm (ch : Chain) {j k : Fin 9} (h : k ≠ j) (a b : Stage) :
    (ch.set j a).set k b = (ch.set k b).set j a := by
  fin_cases j <;> fin_cases k <;> simp [Chain.set, Cascade.set] at h ⊢

section

variable (m : DenormalMode)

/-- A slot that a sample does not pass keeps its stage. -/
theorem stepSlots_get_of_notMem (draw : Nat → Nat → BitVec 23) {j : Fin 9} {js : List (Fin 9)} (hj : j ∉ js) (ch : Chain)
    (x : Word) : (stepSlots m draw js ch x).1.get j = ch.get j := by
  induction js generalizing ch x with
  | nil => rfl
  | cons k js ih =>
    obtain ⟨hk, hjs⟩ := List.ne_and_not_mem_of_not_mem_cons hj
    rw [stepSlots, ih hjs, Chain.get_set_of_ne _ _ hk]

/-- A slot that a sample does not pass can be written before or after it. -/
theorem stepSlots_set_of_notMem (draw : Nat → Nat → BitVec 23) {j : Fin 9} {js : List (Fin 9)} (hj : j ∉ js) (st : Stage)
    (ch : Chain) (x : Word) :
    stepSlots m draw js (ch.set j st) x = ((stepSlots m draw js ch x).1.set j st, (stepSlots m draw js ch x).2) := by
  induction js generalizing ch x with
  | nil => rfl
  | cons k js ih =>
    obtain ⟨hk, hjs⟩ := List.ne_and_not_mem_of_not_mem_cons hj
    rw [stepSlots, Chain.get_set_of_ne _ _ hk.symm, Chain.set_comm _ hk.symm, ih hjs, stepSlots]

/-- The samples from i + 1 on are samples from i on, with later draws. -/
theorem runStage_succ (draw : Nat → Nat → BitVec 23) (st : Stage) (i : Nat) (xs : List Word) :
    runStage m draw st (i + 1) xs = runStage m (fun k => draw (k + 1)) st i xs := by
  induction xs generalizing st i with
  | nil => rfl
  | cons x xs ih => rw [runStage, ih, runStage]

/-- A stage's turn for a block is its turn for the first sample and then for the others. -/
theorem blockTurn_cons (draw : Nat → Nat → BitVec 23) (st : Stage) (x : Word) (xs : List Word) :
    blockTurn m draw st (x :: xs) =
      ((blockTurn m (fun k => draw (k + 1)) (stageTurn m (draw 0) st x).1 xs).1,
        (stageTurn m (draw 0) st x).2 :: (blockTurn m (fun k => draw (k + 1)) (stageTurn m (draw 0) st x).1 xs).2) := by
  cases h : st.byp with
  | true => simp [blockTurn, stageTurn, h]
  | false => simp [blockTurn, stageTurn, h, runStage, runStage_succ]

/-- The first sample can pass all slots before the others pass any: no slot comes twice, so the later samples find in each
slot what the first left there. -/
theorem runSlots_cons (draw : Nat → Nat → Nat → BitVec 23) {js : List (Fin 9)} (hn : js.Nodup) (ch : Chain) (x : Word)
    (xs : List Word) :
    runSlots m draw js ch (x :: xs) =
      ((runSlots m (fun j k => draw j (k + 1)) js (stepSlots m (fun j => draw j 0) js ch x).1 xs).1,
        (stepSlots m (fun j => draw j 0) js ch x).2
          :: (runSlots m (fun j k => draw j (k + 1)) js (stepSlots m (fun j => draw j 0) js ch x).1 xs).2) := by
  induction js generalizing ch x xs with
  | nil => rfl
  | cons j js ih =>
    obtain ⟨hj, hjs⟩ := List.nodup_cons.mp hn
    have written : (ch.set j (stageTurn m (draw j.val 0) (ch.get j) x).1).get j = (stageTurn m (draw j.val 0) (ch.get j) x).1 :=
      ch.get_set_of_byp j (stageTurn_keeps m _ _ _).2
    rw [runSlots, blockTurn_cons, ih hjs, stepSlots, runSlots, stepSlots_get_of_notMem m _ hj, written,
      stepSlots_set_of_notMem m _ hj, stepSlots_set_of_notMem m _ hj, Chain.set_set]

/-- 42_datapath.md R175, with the samples from i on. -/
theorem runSlots_eq_chainProcessBySample (draw : Nat → Nat → Nat → BitVec 23) (ch : Chain) (i : Nat) (xs : List Word) :
    runSlots m (fun j k => draw j (i + k)) Chain.slots ch xs = chainProcessBySample m draw ch i xs := by
  induction xs generalizing ch i with
  | nil => exact chainProcess_nil m _ ch
  | cons x xs ih =>
    have later : (fun j k => draw j (i + (k + 1))) = fun j k => draw j (i + 1 + k) := by
      funext j k; rw [Nat.add_assoc, Nat.add_comm 1 k]
    rw [runSlots_cons m _ (by decide), later, ih, chainProcessBySample]
    rfl

end

end Sys2Proof.Machine
end

section
/-! PROOFS. What the samples of a PROCESS leave alone (42_datapath.md R172, R177). -/

namespace Sys2Proof.Machine

theorem snapChain_copies (mode : SnapToZero) (ch : Chain) : StereoCopies (snapChain mode ch) ch :=
  match mode with
  | .off => fun _ => ⟨rfl, rfl⟩
  | .on => Chain.mapStages_copies snapStage_keeps ch

theorem get_snapChain_of_bypassed (mode : SnapToZero) {ch : Chain} {j : Fin 9} (h : (ch.get j).byp = true) :
    (snapChain mode ch).get j = ch.get j :=
  match mode with
  | .off => rfl
  | .on => (Chain.get_mapStages (fun st => (snapStage_keeps st).2) ch j).trans (snapStage_of_bypassed h)

/-- The chains that the samples of a PROCESS leave: a block and the state snap. -/
theorem processSamples_chain {s t : State} {n : Nat} (h : processSamples n s = .next t) (c : Channel) :
    ∃ ws, t.chain c = snapChain s.params.snapToZero (processChannel s c ws).1 := by
  obtain ⟨xs, ys, -, -, rfl⟩ := processSamples_next h
  rw [endCommand_chain, snapDelays_chain, applyBlock_params]
  cases c with
  | left => exact ⟨xs, rfl⟩
  | right => exact ⟨ys, rfl⟩

/-- 42_datapath.md R177: the samples change no coefficient and no flag. -/
theorem processSamples_copies {s t : State} {n : Nat} (h : processSamples n s = .next t) (c : Channel) :
    StereoCopies (t.chain c) (s.chain c) := by
  obtain ⟨ws, hc⟩ := processSamples_chain h c
  rw [hc]
  exact (snapChain_copies _ _).trans (processChannel_copies s c ws)

theorem processSamples_snap_status {s t : State} {n : Nat} (h : processSamples n s = .next t) :
    t.snap = s.snap ∧ t.status = s.status := by
  obtain ⟨xs, ys, -, -, rfl⟩ := processSamples_next h
  simp

/-- 42_datapath.md R172: the samples and the state snap pass a bypassed stage by. -/
theorem processSamples_get_of_bypassed {s t : State} {n : Nat} (h : processSamples n s = .next t) {c : Channel} {j : Fin 9}
    (hb : ((t.chain c).get j).byp = true) : (t.chain c).get j = (s.chain c).get j := by
  have bypassed : ((s.chain c).get j).byp = true := (processSamples_copies h c j).2.symm.trans hb
  obtain ⟨ws, hc⟩ := processSamples_chain h c
  have block : (processChannel s c ws).1.get j = (s.chain c).get j := ((chainProcess_keeps _ _ _ ws).1 j).2.2 bypassed
  rw [hc, get_snapChain_of_bypassed _ (by rwa [block]), block]

/-- 43_engine.md R206, R207: a PROCESS that is not too long is the update body and, where that goes on, the samples. -/
theorem execProcess_of_fits {s : State} {n : Nat} (h : n ≤ s.actMax.toNat) :
    execProcess n s = match updateBody s with
      | .updated t => processSamples n t
      | .ended t => .next t := by
  unfold execProcess
  split_ifs with hp hn
  · simp [updateBody, hp]
  · exact absurd h (Nat.not_le.mpr hn)
  · rfl

end Sys2Proof.Machine
end

section
/-! PROOFS. The statements of 42_datapath.md about stages, blocks and PROCESS: O36 to O42. -/

namespace Sys2Proof

open Machine Machine.F32

/-- Settles O36: the samples from 0 on, by induction on them; the first can pass all slots before the others. -/
theorem stageMajorEqualsSampleMajor : Obligations.StageMajorEqualsSampleMajor := by
  intro m draw ch xs
  rw [← runSlots_eq_chainProcessBySample, chainProcess]
  simp only [Nat.zero_add]

/-- Settles O37: both commands run one update body, and the samples that follow it in PROCESS change delay elements only. -/
theorem samplesChangeNoCoefficient : Obligations.SamplesChangeNoCoefficient := by
  intro s t u n hn hu ht
  change execUpdate s = .next u at hu
  change execProcess n s = .next t at ht
  rw [execProcess_of_fits hn] at ht
  unfold execUpdate at hu
  cases hb : updateBody s with
  | ended v =>
    rw [hb] at hu ht
    cases hu
    cases ht
    exact ⟨rfl, rfl, fun _ _ => ⟨rfl, rfl⟩⟩
  | updated v =>
    rw [hb] at hu ht
    cases hu
    obtain ⟨hsnap, hstatus⟩ := processSamples_snap_status ht
    refine ⟨hsnap, hstatus, fun c j => ?_⟩
    rw [State.stage, State.stage, endCommand_chain]
    exact processSamples_copies ht c j

/-- Settles O38: a PROCESS that fails or faults reaches no stage; in one that completes the update writes no delay element, and
the samples pass the bypassed stage by. -/
theorem bypassedStagesStayFrozen : Obligations.BypassedStagesStayFrozen := by
  intro s t n c j ht hb
  change execProcess n s = .next t at ht
  unfold State.stage at hb ⊢
  by_cases hp : ∃ sane clamped, ProcessPasses n s sane clamped
  · obtain ⟨sane, clamped, hp⟩ := hp
    have ⟨_, _, hv⟩ := hp
    have slopes := (validate_inRange hv).slopes
    rw [processSamples_get_of_bypassed ((execProcess_of_passes hp).symm.trans ht) hb, applyUpdate_chain]
    exact designInto_delays _ _ _ _ slopes.1 slopes.2 j
  · simp only [not_exists] at hp
    rw [(execProcess_of_not_passes hp ht c).1]
    exact ⟨rfl, rfl⟩

/-- Settles O39, by induction on the later samples. -/
theorem nanStaysInAStage : Obligations.NanStaysInAStage :=
  fun m draw _ i x xs =>
    ⟨fun hx => stageStep_isNaN m (draw i) (.inl hx), stageStep_s1_isNaN_of_s2 m (draw i) x, runStage_isNaN m draw i xs⟩

/-- Settles O40: the output is x in value, so the products with b1 and a1, and those with b2 and a2, cancel to zeros. -/
theorem identityStagePassesItsInput : Obligations.IdentityStagePassesItsInput := by
  intro draw d st x hb0 hb1 hb2 hs1 hs2 hx hp1 hp2
  obtain ⟨value, bits⟩ := add_zero_of_finite (draw 1) hx hs1
  have output : (stageStep .ieee draw st x).2 = add .ieee (draw 1) x st.s1 := by
    rw [stageStep, hb0, one_mul_of_finite _ hx]
  rw [← output] at value bits
  refine ⟨value, bits, isZero_add_of_zeros _ ?_ hs2, ?_⟩
  · rw [← hb1]
    exact isZero_sub_mul_mul d _ _ _ hx hp1 value
  · change isZero (sub .ieee _ _ (mul .ieee _ st.coeffs.a2 (stageStep .ieee draw st x).2)) = true
    rw [← hb2]
    exact isZero_sub_mul_mul d _ _ _ hx hp2 value

/-- Settles O41: y2 takes s1 of the step before, which takes s2 of the step before that. -/
theorem exactStepsFollowTheDifferenceEquation : Obligations.ExactStepsFollowTheDifferenceEquation := by
  intro m d0 d1 d2 st st0 st1 st2 x0 x1 x2 y0 y1 y2 h0 h1 h2 hs0 hs1 hs2
  obtain ⟨-, -, s2After0, coeffs0⟩ := h0.values hs0
  obtain ⟨-, s1After1, -, coeffs1⟩ := h1.values hs1
  obtain ⟨y2Value, -, -, -⟩ := h2.values hs2
  rw [y2Value, s1After1, s2After0, coeffs1, coeffs0]
  ring

/-- Settles O42: the snap maps every slot, and `snapValue` keeps exactly what lies below -T or above T. -/
theorem snapZeroesSmallDelays : Obligations.SnapZeroesSmallDelays := by
  intro s c j
  refine ⟨snapDelays_off, fun hon => ⟨fun hb => ?_, fun hb => ?_⟩⟩
  · rw [stage_snapDelays_on hon, snapStage_of_bypassed hb]
  · rw [stage_snapDelays_on hon, snapStage_of_enabled hb]
    refine ⟨rfl, hb, fun v v' h => ?_⟩
    obtain rfl : v' = snapValue v := by rcases h with ⟨rfl, rfl⟩ | ⟨rfl, rfl⟩ <;> rfl
    rw [snapValue_eq]
    refine ⟨fun hkeep => if_pos hkeep, fun hzero => if_neg ?_⟩
    rintro ⟨notNaN, outside⟩
    rcases hzero with hnan | ⟨low, high⟩
    · rw [notNaN] at hnan
      cases hnan
    · exact outside.elim (not_lt.mpr low) (not_lt.mpr high)

end Sys2Proof
end

section
/-! PROOFS. What validation answers, build mode by build mode (43_engine.md R204). -/

namespace Sys2Proof.Machine

theorem Settings.set_get (s : Settings) (f : Field) : s.set f (s.get f) = s := by cases f <;> rfl

theorem Settings.ext_get {a b : Settings} (h : ∀ f, a.get f = b.get f) : a = b := by
  obtain ⟨_, _, _, _, _, _, _⟩ := a
  obtain ⟨_, _, _, _, _, _, _⟩ := b
  have hlcf := h .lcf
  have hlcs := h .lcs
  have hhcf := h .hcf
  have hhcs := h .hcs
  have hpkf := h .pkf
  have hpkq := h .pkq
  have hpkg := h .pkg
  simp_all only [Settings.get]

theorem Field.mem_inOrder (f : Field) : f ∈ Field.inOrder := by cases f <;> decide

/-- The Nyquist checks of 43_engine.md R204 fail. -/
theorem not_belowNyquist_iff {s : Settings} {rate : Word} :
    ¬s.BelowNyquist rate ↔
      (atOrAboveNyquist s.lcf rate || atOrAboveNyquist s.hcf rate || atOrAboveNyquist s.pkf rate) = true := by
  simp only [Settings.BelowNyquist, ← Bool.not_eq_true, ← not_or, not_not, Bool.or_eq_true, or_assoc]

section

variable {settings sane : Settings} {rate : Word} {mode : BuildMode} {clamped : Bool}

/-- The end of validation after its loop: the Nyquist checks on the settings that the loop answered (43_engine.md R204). -/
theorem validate_of_belowNyquist (h : checkFields mode Field.inOrder settings false = .ok sane clamped)
    (hn : sane.BelowNyquist rate) : validate settings rate mode = .ok sane clamped := by
  simp only [validate, h, if_neg (mt not_belowNyquist_iff.mpr (not_not.mpr hn))]

theorem validate_release_of_not_belowNyquist
    (h : checkFields .release Field.inOrder settings false = .ok sane clamped) (hn : ¬sane.BelowNyquist rate) :
    validate settings rate .release = .fail .aboveNyquist := by
  simp only [validate, h, if_pos (not_belowNyquist_iff.mp hn)]

end

/-! ### Release -/

/-- The clamp of one field of the settings. -/
def Settings.clampField (s : Settings) (f : Field) : Settings := s.set f (f.clampValue (s.get f))

theorem Settings.get_clampField_of_ne (s : Settings) {f g : Field} (h : g ≠ f) : (s.clampField f).get g = s.get g :=
  s.get_set_of_ne _ h

/-- A clamp moves exactly the values that lie outside the limits. -/
theorem Field.clampValue_eq_self_iff (f : Field) (v : Word) :
    f.clampValue v = v ↔ f.lt v f.limits.1 = false ∧ f.lt f.limits.2.1 v = false := by
  have low : f.lt f.limits.1 f.limits.1 = false := by cases f <;> decide
  have high : f.lt f.limits.2.1 f.limits.2.1 = false := by cases f <;> decide
  unfold Field.clampValue
  split_ifs with hlow hhigh
  · refine iff_of_false (fun he => ?_) (by simp [hlow])
    rw [← he, low] at hlow
    cases hlow
  · refine iff_of_false (fun he => ?_) (by simp [hhigh])
    rw [← he, high] at hhigh
    cases hhigh
  · simp [hlow, hhigh]

theorem checkField_release {f : Field} {v : Word} (h : (f.isFloat && F32.isNaN v) = false) :
    checkField .release f v = if f.clampValue v = v then .keep else .clamp (f.clampValue v) := by
  have kept := f.clampValue_eq_self_iff v
  cases hlow : f.lt v f.limits.1 with
  | true =>
    rw [if_neg (by simp [kept, hlow])]
    simp [checkField, Field.clampValue, h, hlow]
  | false =>
    cases hhigh : f.lt f.limits.2.1 v with
    | true =>
      rw [if_neg (by simp [kept, hhigh])]
      simp [checkField, Field.clampValue, h, hlow, hhigh]
    | false => simp [checkField, kept, h, hlow, hhigh]

/-- One turn of the loop in a release build: a field that is not NaN is clamped, and the flag says whether its value moved. -/
theorem checkFields_release_cons {f : Field} {s : Settings} (h : (f.isFloat && F32.isNaN (s.get f)) = false)
    (fs : List Field) (clamped : Bool) :
    checkFields .release (f :: fs) s clamped =
      checkFields .release fs (s.clampField f) (clamped || decide (f.clampValue (s.get f) ≠ s.get f)) := by
  rw [checkFields, checkField_release h, Settings.clampField]
  by_cases hv : f.clampValue (s.get f) = s.get f
  · simp [hv, s.set_get f]
  · simp [hv]

/-- The loop of a release build without a NaN. -/
theorem checkFields_release {fs : List Field} (hn : fs.Nodup) {s : Settings}
    (h : ∀ f ∈ fs, (f.isFloat && F32.isNaN (s.get f)) = false) (clamped : Bool) :
    checkFields .release fs s clamped =
      .ok (fs.foldl Settings.clampField s) (clamped || fs.any fun f => decide (f.clampValue (s.get f) ≠ s.get f)) := by
  induction fs generalizing s clamped with
  | nil => simp [checkFields]
  | cons f fs ih =>
    obtain ⟨hf, hn⟩ := List.nodup_cons.mp hn
    have others : ∀ g ∈ fs, (s.clampField f).get g = s.get g := fun g hg =>
      s.get_clampField_of_ne (ne_of_mem_of_not_mem hg hf)
    rw [checkFields_release_cons (h f List.mem_cons_self),
      ih hn fun g hg => by rw [others g hg]; exact h g (List.mem_cons_of_mem f hg)]
    have moved : (fs.any fun g => decide (g.clampValue ((s.clampField f).get g) ≠ (s.clampField f).get g)) =
        fs.any fun g => decide (g.clampValue (s.get g) ≠ s.get g) := by
      rw [Bool.eq_iff_iff, List.any_eq_true, List.any_eq_true]
      exact exists_congr fun g => and_congr_right fun hg => by rw [others g hg]
    rw [moved, List.any_cons, Bool.or_assoc, List.foldl_cons]

/-- The loop of a release build stops at a NaN: what it clamped before that is dropped. -/
theorem checkFields_release_nan {fs : List Field} (hn : fs.Nodup) {s : Settings} {f : Field} (hf : f ∈ fs)
    (h : (f.isFloat && F32.isNaN (s.get f)) = true) (clamped : Bool) :
    checkFields .release fs s clamped = .fail .settingNan := by
  induction fs generalizing s clamped with
  | nil => cases hf
  | cons g fs ih =>
    obtain ⟨hg, hn⟩ := List.nodup_cons.mp hn
    cases hgnan : g.isFloat && F32.isNaN (s.get g) with
    | true => simp [checkFields, checkField, hgnan, FieldCheck.violation]
    | false =>
      have hfg : f ≠ g := by
        rintro rfl
        rw [hgnan] at h
        cases h
      rw [checkFields_release_cons hgnan]
      exact ih hn (List.mem_of_ne_of_mem hfg hf) (by rwa [s.get_clampField_of_ne hfg]) _

theorem Settings.get_clampAll (s : Settings) (f : Field) : s.clampAll.get f = f.clampValue (s.get f) := by cases f <;> rfl

theorem Settings.clampAll_ne_self_iff (s : Settings) : s.clampAll ≠ s ↔ ∃ f : Field, f.clampValue (s.get f) ≠ s.get f := by
  refine ⟨fun h => ?_, fun ⟨f, hf⟩ he => hf ?_⟩
  · by_contra hall
    exact h (Settings.ext_get fun f => (s.get_clampAll f).trans (not_not.mp (not_exists.mp hall f)))
  · rw [← s.get_clampAll, he]

/-- The loop over all seven fields clamps them all, and says whether one of them moved. -/
theorem checkFields_release_inOrder {s : Settings} (h : s.NoNaN) :
    checkFields .release Field.inOrder s false = .ok s.clampAll (decide (s.clampAll ≠ s)) := by
  have moved : (Field.inOrder.any fun f => decide (f.clampValue (s.get f) ≠ s.get f)) = decide (s.clampAll ≠ s) := by
    rw [Bool.eq_iff_iff, List.any_eq_true, decide_eq_true_iff, s.clampAll_ne_self_iff]
    exact exists_congr fun f => by rw [decide_eq_true_iff]; exact and_iff_right f.mem_inOrder
  rw [checkFields_release (by decide) fun f _ => h f, moved, Bool.false_or]
  rfl

/-! ### Debug -/

/-- The code of a value that its field does not accept (43_engine.md R204). -/
def Field.violationCode (f : Field) (v : Word) : Cause :=
  if f.isFloat && F32.isNaN v then .settingNan else f.limits.2.2

theorem checkField_debug (f : Field) (v : Word) :
    checkField .debug f v = if f.inRange v then .keep else .fault (f.violationCode v) := by
  unfold checkField FieldCheck.violation Field.inRange Field.violationCode
  cases f.isFloat && F32.isNaN v <;> cases f.lt v f.limits.1 <;> cases f.lt f.limits.2.1 v <;> rfl

/-- The loop of a debug build: the first field outside its limits faults, and without one nothing changes. -/
theorem checkFields_debug (fs : List Field) (s : Settings) (clamped : Bool) :
    (∀ f, fs.find? (fun f => !f.inRange (s.get f)) = some f →
      checkFields .debug fs s clamped = .fault (f.violationCode (s.get f))) ∧
    (fs.find? (fun f => !f.inRange (s.get f)) = none → checkFields .debug fs s clamped = .ok s clamped) := by
  induction fs with
  | nil => exact ⟨nofun, fun _ => rfl⟩
  | cons g fs ih =>
    rw [checkFields, checkField_debug]
    cases hg : g.inRange (s.get g) with
    | true => simpa [List.find?_cons, hg] using ih
    | false =>
      refine ⟨fun f hf => ?_, fun hf => ?_⟩
      · obtain rfl : g = f := by simpa [List.find?_cons, hg] using hf
        rfl
      · simp [hg] at hf

end Sys2Proof.Machine
end

section
/-! PROOFS. The statements of 43_engine.md about validation: O23, O25 and O26. -/

namespace Sys2Proof

open Machine

/-- Settles O23, by evaluation of the limits. -/
theorem settingsLimitsAreTheStatedValues : Obligations.SettingsLimitsAreTheStatedValues := by
  refine ⟨?_, ?_, by decide, by decide⟩
  · rintro f (rfl | rfl | rfl) <;> decide
  · rintro f (rfl | rfl) <;> decide

/-- Settles O25: without a NaN the loop clamps every field and comes to the Nyquist checks, and a NaN ends it. -/
theorem releaseValidationClampsOrFails : Obligations.ReleaseValidationClampsOrFails := by
  intro settings rate
  refine ⟨fun hn => validate_of_belowNyquist (checkFields_release_inOrder hn),
    fun hn => validate_release_of_not_belowNyquist (checkFields_release_inOrder hn), fun hnan => ?_⟩
  obtain ⟨f, hf⟩ := not_forall.mp hnan
  rw [validate, checkFields_release_nan (by decide) f.mem_inOrder (Bool.eq_true_of_not_eq_false hf)]

/-- Settles O26: the loop ends at the first violated field, and without one the settings come to the Nyquist checks as they
are. -/
theorem debugValidationFaultsOnTheFirstViolation : Obligations.DebugValidationFaultsOnTheFirstViolation := by
  intro settings rate
  obtain ⟨violated, passed⟩ := checkFields_debug Field.inOrder settings false
  generalize hfirst : List.find? _ _ = first
  cases first with
  | some f =>
    rw [validate, violated f hfirst]
    rfl
  | none =>
    rw [validate, passed hfirst]
    simp [atOrAboveNyquist, or_assoc]

end Sys2Proof
end

section
/-! PROOFS. What an update decides and where its commands end (43_engine.md R206, R207), and that a second UPDATE finds nothing
to do. -/

namespace Sys2Proof.Machine

/-- What the checks of the update body decide: the code of the violated one, or the settings to design from and whether one was
clamped (43_engine.md R206). -/
def State.updateVerdict (s : State) : Except Cause (Settings × Bool) :=
  if s.status.prepared then
    match validate s.pend.settings s.actRate s.params.buildMode with
    | .ok sane clamped => .ok (sane, clamped)
    | .fail code => .error code
    | .fault code => .error code
  else .error .notPrepared

theorem updateVerdict_eq_ok_iff {s : State} {sane : Settings} {clamped : Bool} :
    s.updateVerdict = .ok (sane, clamped) ↔
      s.status.prepared = true ∧ validate s.pend.settings s.actRate s.params.buildMode = .ok sane clamped := by
  unfold State.updateVerdict
  cases s.status.prepared <;> cases validate s.pend.settings s.actRate s.params.buildMode <;> simp

theorem endedBy_of_release {s : State} (h : s.params.buildMode = .release) (code : Cause) :
    s.endedBy code = failCommand code s := by rw [State.endedBy, h]; rfl

theorem endedBy_of_debug {s : State} (h : s.params.buildMode = .debug) (code : Cause) :
    s.endedBy code = raiseFault code s := by rw [State.endedBy, h]; rfl

section

variable {s : State} {code : Cause} {sane : Settings} {clamped : Bool}

theorem updateBody_of_error (h : s.updateVerdict = .error code) : updateBody s = .ended (s.endedBy code) := by
  obtain ⟨fails, faults, -⟩ := validate_cases s.pend.settings s.actRate s.params.buildMode
  cases hp : s.status.prepared with
  | false =>
    obtain rfl : Cause.notPrepared = code := by simpa [State.updateVerdict, hp] using h
    simp [updateBody, hp, violate_eq_endedBy]
  | true =>
    cases hv : validate s.pend.settings s.actRate s.params.buildMode with
    | ok sane clamped => simp [State.updateVerdict, hp, hv] at h
    | fail violated =>
      obtain rfl : violated = code := by simpa [State.updateVerdict, hp, hv] using h
      simp [updateBody, hp, hv, endedBy_of_release (fails _ hv).1]
    | fault violated =>
      obtain rfl : violated = code := by simpa [State.updateVerdict, hp, hv] using h
      simp [updateBody, hp, hv, endedBy_of_debug (faults _ hv).1]

theorem updateBody_of_ok (h : s.updateVerdict = .ok (sane, clamped)) :
    updateBody s = .updated (applyUpdate sane clamped s) := by
  obtain ⟨hp, hv⟩ := updateVerdict_eq_ok_iff.mp h
  simp [updateBody, hp, hv]

theorem execUpdate_of_error (h : s.updateVerdict = .error code) : execUpdate s = .next (s.endedBy code) := by
  rw [execUpdate, updateBody_of_error h]

theorem execUpdate_of_ok (h : s.updateVerdict = .ok (sane, clamped)) :
    execUpdate s = .next (endCommand (applyUpdate sane clamped s)) := by
  rw [execUpdate, updateBody_of_ok h]

end

/-! ### A second UPDATE -/

theorem endedBy_endedBy (s : State) (code : Cause) : (s.endedBy code).endedBy code = s.endedBy code := by
  unfold State.endedBy
  cases hm : s.params.buildMode <;> simp only [hm]

/-- The checks read nothing that a violation writes. -/
theorem updateVerdict_endedBy (s : State) (code : Cause) : (s.endedBy code).updateVerdict = s.updateVerdict := by
  unfold State.endedBy
  split <;> rfl

/-- The checks read nothing that an update writes. -/
theorem updateVerdict_applyUpdate (s : State) (sane : Settings) (clamped : Bool) :
    (endCommand (applyUpdate sane clamped s)).updateVerdict = s.updateVerdict := rfl

/-- An assignment over its own result changes nothing. -/
theorem AssignedStage.eq_of_again {oi : Nat} {coeffs : List Coeffs} {k : Fin 4} {a b c : Stage}
    (h : AssignedStage oi coeffs k a b) (h' : AssignedStage oi coeffs k b c) : c = b := by
  obtain ⟨hcoeffs, hbyp⟩ : c.coeffs = b.coeffs ∧ c.byp = b.byp := by
    obtain ⟨-, -, flag, new, -⟩ := h
    obtain ⟨-, -, flag', new', old'⟩ := h'
    refine ⟨?_, flag'.trans flag.symm⟩
    by_cases hk : k.val ≤ oi
    · exact Option.some.inj ((new' hk).symm.trans (new hk))
    · exact old' (Nat.not_le.mp hk)
  obtain ⟨hs1, hs2, -⟩ := h'
  obtain ⟨_, _, _, _⟩ := b
  obtain ⟨_, _, _, _⟩ := c
  simp_all only

/-- The slots of a chain (10_state.md R31): a stage of the low-cut, the peak, or a stage of the high-cut. -/
theorem slot_cases (j : Fin 9) : (∃ k, j = lowSlot k) ∨ j = 4 ∨ ∃ k, j = highSlot k := by
  revert j
  decide

/-- 40_designer.md R121: the designs do not depend on what the stages held. -/
theorem designInto_designInto (arith : DesignArith) (rate : Word) {sane : Settings} (hs : sane.InRange) (ch : Chain) :
    designInto arith rate sane (designInto arith rate sane ch) = designInto arith rate sane ch := by
  obtain ⟨hlow, hhigh⟩ := hs.slopes
  refine Chain.ext_get fun j => ?_
  obtain ⟨k, rfl⟩ | rfl | ⟨k, rfl⟩ := slot_cases j
  · exact (designInto_low _ _ _ ch hlow k).eq_of_again (designInto_low _ _ _ _ hlow k)
  · rfl
  · exact (designInto_high _ _ _ ch hhigh k).eq_of_again (designInto_high _ _ _ _ hhigh k)

theorem recordClamp_recordClamp (clamped : Bool) (st : Status) :
    recordClamp clamped (recordClamp clamped st) = recordClamp clamped st := by
  simp [recordClamp]

theorem applyUpdate_again {sane : Settings} (hs : sane.InRange) (clamped : Bool) (s : State) :
    endCommand (applyUpdate sane clamped (endCommand (applyUpdate sane clamped s))) =
      endCommand (applyUpdate sane clamped s) := by
  have left := designInto_designInto s.params.designArith s.actRate hs s.left
  have right := designInto_designInto s.params.designArith s.actRate hs s.right
  simp only [endCommand, applyUpdate, left, right, recordClamp_recordClamp]

/-! ### PROCESS -/

/-- 43_engine.md R208: a block of no samples changes nothing. -/
theorem applyBlock_nil (s : State) : applyBlock [] [] s = s := by
  simp only [applyBlock, processChannel, chainProcess_nil]
  rfl

theorem processSamples_of_written {s : State} {n : Nat} {samples : Channel → List Word}
    (h : ∀ c, s.mem.readBlock (bufferOffset c 0) n = some (samples c)) :
    processSamples n s = .next (endCommand (snapDelays (applyBlock (samples .left) (samples .right) s))) := by
  rw [processSamples, h, h]

theorem processSamples_zero (s : State) : processSamples 0 s = .next (endCommand (snapDelays s)) := by
  rw [processSamples_of_written (samples := fun _ => []) fun _ => rfl, applyBlock_nil]

/-- The words that a completed PROCESS leaves in a buffer are those that chainProcess answers (42_datapath.md R174). -/
theorem processSamples_readBlock {s t : State} {n : Nat} (hn : n ≤ Config.maxBufCap) (h : processSamples n s = .next t)
    {c : Channel} {ws : List Word} (hw : s.mem.readBlock (bufferOffset c 0) n = some ws) :
    t.chain c = snapChain s.params.snapToZero (processChannel s c ws).1 ∧
      t.mem.readBlock (bufferOffset c 0) n = some (processChannel s c ws).2 := by
  obtain ⟨ws', hw', hchain, hmem⟩ := processSamples_channel hn h c
  obtain rfl : ws' = ws := Option.some.inj (hw'.symm.trans hw)
  refine ⟨hchain, ?_⟩
  have hlength : (processChannel s c ws').2.length = n := (processChannel_length s c ws').trans (Memory.length_readBlock hw)
  have block := Memory.readBlock_writeBlock s.mem (bufferOffset c 0) (processChannel s c ws').2
  rw [hlength] at block
  rw [← block]
  exact Memory.readBlock_congr fun a hl hh => hmem a ⟨hl, by unfold Config.maxBufCap at hn; omega⟩

theorem get_snapChain_on (ch : Chain) (j : Fin 9) : (snapChain .on ch).get j = snapStage (ch.get j) :=
  Chain.get_mapStages (fun st => (snapStage_keeps st).2) ch j

end Sys2Proof.Machine
end

section
/-! PROOFS. What each command that completes writes, and so what it leaves alone (43_engine.md R202, R205 to R207). -/

namespace Sys2Proof.Machine

/-- The next states of the commands that pass their checks. -/
inductive Completes : Instr → State → State → Prop where
  | nop (s : State) : Completes .nop s (endCommand s)
  | prepare {s : State} (rate : rateAcceptable s.pend.rate = true)
      (block : maxBlockAcceptable s.params s.pend.maxBlock = true) : Completes .prepare s (endCommand (applyPrepare s))
  | update {s : State} {sane : Settings} {clamped : Bool} (verdict : s.updateVerdict = .ok (sane, clamped)) :
      Completes .update s (endCommand (applyUpdate sane clamped s))
  | process {s : State} {sane : Settings} {clamped : Bool} {n : Nat} {xs ys : List Word}
      (fits : n ≤ s.actMax.toNat) (verdict : s.updateVerdict = .ok (sane, clamped))
      (left : s.mem.readBlock (bufferOffset .left 0) n = some xs)
      (right : s.mem.readBlock (bufferOffset .right 0) n = some ys) :
      Completes (.process n) s (endCommand (snapDelays (applyBlock xs ys (applyUpdate sane clamped s))))

/-- Everything that a command which answers a next state can have done: it ended on a violation, or it completed. -/
theorem exec_cases {i : Instr} {s t : State} (h : exec i s = .next t) :
    (∃ code, code ≠ .none ∧ t = s.endedBy code) ∨ Completes i s t := by
  cases i with
  | nop => cases h; exact .inr (.nop s)
  | prepare =>
    rcases execPrepare_cases s with ⟨code, hc, he⟩ | ⟨hr, hm, he⟩ <;> cases he.symm.trans h
    · exact .inl ⟨code, hc, rfl⟩
    · exact .inr (.prepare hr hm)
  | update =>
    rcases execUpdate_cases s with ⟨code, hc, he⟩ | ⟨sane, clamped, hp, -, hv, he⟩ <;> cases he.symm.trans h
    · exact .inl ⟨code, hc, rfl⟩
    · exact .inr (.update (updateVerdict_eq_ok_iff.mpr ⟨hp, hv⟩))
  | process n =>
    rcases execProcess_cases n s with ⟨code, hc, he⟩ | ⟨sane, clamped, hp, hn, -, hv, ⟨he, -⟩ | ⟨xs, ys, hl, hr, he⟩⟩ <;>
      cases he.symm.trans h
    · exact .inl ⟨code, hc, rfl⟩
    · exact .inr (.process hn (updateVerdict_eq_ok_iff.mpr ⟨hp, hv⟩) hl hr)

theorem execPrepare_of_acceptable {s : State} (hr : rateAcceptable s.pend.rate = true)
    (hm : maxBlockAcceptable s.params s.pend.maxBlock = true) : execPrepare s = .next (endCommand (applyPrepare s)) := by
  simp [execPrepare, hr, hm]

theorem applyPrepare_stage (s : State) (c : Channel) (j : Fin 9) :
    (endCommand (applyPrepare s)).stage c j = zeroDelays (s.stage c j) := by
  rw [State.stage, endCommand_chain, applyPrepare_chain, Chain.get_mapStages fun st => (zeroDelays_keeps st).2, State.stage]

theorem applyUpdate_stage (sane : Settings) (clamped : Bool) (s : State) (c : Channel) (j : Fin 9) :
    (endCommand (applyUpdate sane clamped s)).stage c j =
      (designInto s.params.designArith s.actRate sane (s.chain c)).get j := by
  rw [State.stage, endCommand_chain, applyUpdate_chain]

/-- The fields that no command writes. -/
structure CommandKeeps (s t : State) : Prop where
  params : t.params = s.params
  pend : t.pend = s.pend
  settings : t.settings = s.settings
  sampleRate : t.sampleRate = s.sampleRate
  maxBlock : t.maxBlock = s.maxBlock
  events : t.events = s.events
  returned : t.returned = s.returned
  errIllegal : t.status.errIllegal = s.status.errIllegal
  errBusy : t.status.errBusy = s.status.errBusy

section

variable {i : Instr} {s t : State}

theorem endedBy_keeps (s : State) (code : Cause) : CommandKeeps s (s.endedBy code) := by
  unfold State.endedBy
  split <;> constructor <;> rfl

theorem Completes.keeps (h : Completes i s t) : CommandKeeps s t := by
  cases h with
  | nop | prepare | update => constructor <;> rfl
  | process => constructor <;> simp [recordClamp]

theorem exec_keeps (h : exec i s = .next t) : CommandKeeps s t := by
  obtain ⟨code, -, rfl⟩ | hc := exec_cases h
  · exact endedBy_keeps s code
  · exact hc.keeps

theorem endedBy_phase (s : State) (code : Cause) : (s.endedBy code).phase = .idle := by
  unfold State.endedBy; split <;> rfl

/-- 43_engine.md R201: a command that answers has ended. -/
theorem exec_phase (h : exec i s = .next t) : t.phase = .idle := by
  obtain ⟨code, -, rfl⟩ | hc := exec_cases h
  · exact endedBy_phase s code
  · cases hc <;> rfl

/-- A violation writes neither latch, nor PREPARED, SNAP_ or ERR_CLAMP. -/
theorem endedBy_latches (s : State) (code : Cause) :
    (s.endedBy code).actRate = s.actRate ∧ (s.endedBy code).actMax = s.actMax ∧
      (s.endedBy code).status.prepared = s.status.prepared ∧ (s.endedBy code).snap = s.snap ∧
      (s.endedBy code).status.errClamp = s.status.errClamp := by
  unfold State.endedBy; split <;> exact ⟨rfl, rfl, rfl, rfl, rfl⟩

theorem endedBy_stage (s : State) (code : Cause) (c : Channel) (j : Fin 9) : (s.endedBy code).stage c j = s.stage c j := by
  rw [State.stage, endedBy_chain, State.stage]

/-- Only PREPARE latches. -/
theorem exec_latches (h : exec i s = .next t) (hi : i ≠ .prepare) :
    t.actRate = s.actRate ∧ t.actMax = s.actMax ∧ t.status.prepared = s.status.prepared := by
  obtain ⟨code, -, rfl⟩ | hc := exec_cases h
  · obtain ⟨hrate, hmax, hprepared, -⟩ := endedBy_latches s code
    exact ⟨hrate, hmax, hprepared⟩
  · cases hc with
    | prepare => exact absurd rfl hi
    | nop | update => exact ⟨rfl, rfl, rfl⟩
    | process => simp [recordClamp]

/-- NOP and PREPARE leave what an update writes. -/
theorem exec_design (h : exec i s = .next t) (hi : i = .nop ∨ i = .prepare) :
    t.snap = s.snap ∧ t.status.errClamp = s.status.errClamp ∧
      ∀ c j, (t.stage c j).coeffs = (s.stage c j).coeffs ∧ (t.stage c j).byp = (s.stage c j).byp := by
  obtain ⟨code, -, rfl⟩ | hc := exec_cases h
  · obtain ⟨-, -, -, hsnap, hclamp⟩ := endedBy_latches s code
    exact ⟨hsnap, hclamp, fun c j => by rw [endedBy_stage]; exact ⟨rfl, rfl⟩⟩
  · cases hc with
    | nop => exact ⟨rfl, rfl, fun _ _ => ⟨rfl, rfl⟩⟩
    | prepare => exact ⟨rfl, rfl, fun c j => by rw [applyPrepare_stage]; exact zeroDelays_keeps _⟩
    | update | process => simp at hi

/-- NOP and UPDATE leave the delay elements. -/
theorem exec_delays (h : exec i s = .next t) (hi : i = .nop ∨ i = .update) (c : Channel) (j : Fin 9) :
    (t.stage c j).s1 = (s.stage c j).s1 ∧ (t.stage c j).s2 = (s.stage c j).s2 := by
  obtain ⟨code, -, rfl⟩ | hc := exec_cases h
  · rw [endedBy_stage]
    exact ⟨rfl, rfl⟩
  · cases hc with
    | nop => exact ⟨rfl, rfl⟩
    | update verdict =>
      obtain ⟨hlow, hhigh⟩ := (validate_inRange (updateVerdict_eq_ok_iff.mp verdict).2).slopes
      rw [applyUpdate_stage]
      exact designInto_delays _ _ _ _ hlow hhigh j
    | prepare | process => simp at hi

end

end Sys2Proof.Machine
end

section
/-! PROOFS. The statements of 43_engine.md about the commands: O11, O12, O14 to O16, O18 and O20. -/

namespace Sys2Proof

open Machine

/-- Settles O11: NOP only ends. -/
theorem nopCompletesAndChangesNothing : Obligations.NopCompletesAndChangesNothing := fun _ => rfl

/-- Settles O12: the statement's conditions are PREPARE's two checks. -/
theorem prepareCompletes : Obligations.PrepareCompletes := by
  intro s hnan hfinite hpositive hleast hgreatest
  have rate : rateAcceptable s.pend.rate = true := by simp [rateAcceptable, hnan, hfinite, hpositive]
  have block : maxBlockAcceptable s.params s.pend.maxBlock = true := by
    simp only [maxBlockAcceptable, Bool.and_eq_true, decide_eq_true_eq]
    omega
  exact ⟨_, execPrepare_of_acceptable rate block, rfl, rfl, rfl, rfl, applyPrepare_stage s,
    rfl, rfl, rfl, rfl, rfl, rfl, rfl, rfl, rfl, rfl⟩

/-- Settles O14: each chain is the one that the three assignments leave, whose slots are described one by one. -/
theorem updateCompletes : Obligations.UpdateCompletes := by
  intro s sane clamped hp hv
  obtain ⟨hlow, hhigh⟩ := (validate_inRange hv).slopes
  have stages := applyUpdate_stage sane clamped s
  refine ⟨_, execUpdate_of_ok (updateVerdict_eq_ok_iff.mpr ⟨hp, hv⟩), rfl, rfl, rfl, fun c => ?_, fun c k => ?_, fun c k => ?_,
    rfl, rfl, rfl, rfl, rfl, rfl, rfl, rfl, rfl, rfl, rfl⟩
  · rw [stages]
    exact designInto_peak ..
  · rw [stages]
    exact designInto_low _ _ _ _ hlow k
  · rw [stages]
    exact designInto_high _ _ _ _ hhigh k

/-- Settles O15: the second UPDATE decides as the first did, and writes what is there. -/
theorem updateTwiceIsUpdateOnce : Obligations.UpdateTwiceIsUpdateOnce := by
  intro s t h
  change execUpdate s = .next t at h
  change execUpdate t = .next t
  cases hv : s.updateVerdict with
  | error code =>
    cases (execUpdate_of_error hv).symm.trans h
    rw [execUpdate_of_error ((updateVerdict_endedBy s code).trans hv), endedBy_endedBy]
  | ok checked =>
    obtain ⟨sane, clamped⟩ := checked
    have hs := validate_inRange (updateVerdict_eq_ok_iff.mp hv).2
    cases (execUpdate_of_ok hv).symm.trans h
    rw [execUpdate_of_ok ((updateVerdict_applyUpdate s sane clamped).trans hv), applyUpdate_again hs]

/-- Settles O16: the words are written, so the samples run, and each channel's block is its own. -/
theorem processCompletes : Obligations.ProcessCompletes := by
  intro s n sane clamped samples hwf hp hn hmax hv hw
  have hcap : n ≤ Config.maxBufCap := hn.trans (hmax.trans (bufCap_le hwf))
  have run := processSamples_of_written (s := applyUpdate sane clamped s) hw
  refine ⟨_, (execProcess_of_passes ⟨hp, hn, hv⟩).trans run, rfl, (processSamples_snap_status run).1,
    (processSamples_snap_status run).2, fun c => ?_⟩
  obtain ⟨hchain, hwords⟩ := processSamples_readBlock hcap run (hw c)
  have block : processChannel (applyUpdate sane clamped s) c (samples c) =
      chainProcess s.params.denormalMode (fun j i op => Config.nanDraw (s.drawClock + i) c.index j op)
        (designInto s.params.designArith s.actRate sane (s.chain c)) (samples c) := by
    rw [processChannel, applyUpdate_chain]
    rfl
  refine ⟨_, _, block.symm, hwords, fun j => ?_⟩
  rw [State.stage, hchain, applyUpdate_params]
  cases s.params.snapToZero with
  | off => rfl
  | on => exact get_snapChain_on _ j

/-- Settles O18: PROCESS 0 is the update body and then the samples, of which there are none. -/
theorem zeroLengthProcessIsUpdate : Obligations.ZeroLengthProcessIsUpdate := by
  intro s
  have process := execProcess_of_fits (Nat.zero_le s.actMax.toNat)
  refine ⟨fun hoff => ?_, fun hon sane clamped hp hv t ht => ?_⟩
  · change execProcess 0 s = execUpdate s
    cases hv : s.updateVerdict with
    | error code => rw [process, updateBody_of_error hv, execUpdate_of_error hv]
    | ok checked =>
      rw [process, updateBody_of_ok hv, execUpdate_of_ok hv]
      exact (processSamples_zero _).trans (by rw [snapDelays_off (s := applyUpdate _ _ s) hoff])
  · have verdict := updateVerdict_eq_ok_iff.mpr ⟨hp, hv⟩
    cases (execUpdate_of_ok verdict).symm.trans ht
    change execProcess 0 s = _
    rw [process, updateBody_of_ok verdict]
    exact (processSamples_zero _).trans (by rw [snapDelays_on (s := applyUpdate _ _ s) hon]; rfl)

/-- Settles O20, clause by clause, by the cases of what a command can have done. -/
theorem commandFrame : Obligations.CommandFrame := by
  intro i s t h
  have keeps := exec_keeps h
  exact ⟨keeps.params, keeps.pend, keeps.settings, keeps.sampleRate, keeps.maxBlock, keeps.events, keeps.returned,
    exec_phase h, keeps.errIllegal, keeps.errBusy, exec_latches h, exec_design h, exec_delays h⟩

end Sys2Proof
end

section
/-! PROOFS. The steps of a busy core, and that it comes to rest (43_engine.md R200, R201). -/

namespace Sys2Proof.Machine

theorem writeCommand_busy {s : State} (hf : s.status.fault = false) (hp : s.phase = .busy) (w : Word) :
    writeCommand w s = setErrBusy s := by simp [writeCommand, hf, hp]

/-- A bus write to CMD reaches it in either phase. -/
theorem step_writeCommand {s : State} {w : Word} {rest : List HostEvent} (h : s.nextWrite s.params.base 4 w rest) :
    step s = .next (writeCommand w { s with events := rest }) :=
  step_write_reg (r := .cmd) h trivial (.inr rfl)

theorem coreMove_busy {s : State} (h : s.phase = .busy) : coreMove s = exec s.pend.cmd s := by rw [coreMove, h]

section

variable {s : State} (hwf : s.params.wellFormed = true) (hb : s.phase = .busy)
include hwf hb

theorem step_complete {rest : List HostEvent} (he : s.events = .complete :: rest) :
    step s = exec s.pend.cmd { s with events := rest } := by
  rw [step_eq_advance hwf, advance_cons he]
  exact coreMove_busy (s := { s with events := rest }) hb

theorem step_no_event (he : s.events = []) : step s = exec s.pend.cmd s := by
  rw [step_eq_advance hwf, advance_nil he, coreMove_busy hb]

end

theorem tableWord_of_lt {n : Nat} (h : n < 2 ^ 32) : tableWord 32 n = BitVec.ofNat 32 n := by
  rw [tableWord, Nat.mod_eq_of_lt h]

theorem decodeTableWord_of_command {nbits n : Nat} {i : Instr} (h : decode (tableWord nbits n) = .command i) :
    decodeTableWord nbits n = some i := by
  simp only [decodeTableWord, decodeBytes, Memory.wordOfBytes_byteOfWord, h]

theorem placeCommand_of_command {w : Word} {i : Instr} (h : decode w = .command i) (s : State) :
    placeCommand w s = { acceptCommand i s with events := .complete :: s.events } := by rw [placeCommand, h]

/-! ### Coming to rest -/

/-- No register write changes what is still to happen. -/
theorem writeReg_events (s : State) (r : Reg) (v : Word) : (writeReg s r v).events = s.events := by
  cases r with
  | cmd =>
    change (writeCommand v s).events = s.events
    rcases writeCommand_cases v s with ⟨-, he⟩ | ⟨-, -, he⟩ | ⟨-, -, -, he⟩ | ⟨-, -, _, -, he⟩ <;> rw [he] <;> rfl
  | status | sampleRate | maxBlock | actRate | actMax | id | cap | setting | snap | stage | buffer => rfl

/-- A step of a busy core ends its command or takes an outside event. -/
theorem step_busy_progress {s t : State} (hb : s.phase = .busy) (h : step s = .next t) :
    t.phase = .idle ∨ ∃ e, s.events = e :: t.events := by
  obtain ⟨-, ⟨-, hi, -⟩ | ⟨-, -, hx⟩ | ⟨e, rest, he, hcase⟩⟩ := step_cases h
  · cases hb.symm.trans hi
  · exact .inl (exec_phase hx)
  rcases hcase with ⟨-, -, rfl⟩ | ⟨-, -, hx⟩ | ⟨-, rfl⟩ | ⟨_, _, _, _, -, -, rfl⟩ | ⟨_, _, r, v, -, -, rfl⟩
  · exact .inr ⟨e, he⟩
  · exact .inl (exec_phase hx)
  · exact .inr ⟨e, he⟩
  · exact .inr ⟨e, he⟩
  · exact .inr ⟨e, he.trans (by rw [writeReg_events])⟩

theorem Phase.eq_busy_of_ne_idle {p : Phase} (h : p ≠ .idle) : p = .busy := by
  cases p with
  | idle => exact absurd rfl h
  | busy => rfl

/-- A run that does not stop goes on from its first step. -/
theorem run_succ_eq_next {M : Host.Core} {k : Nat} {s u : M.State} (h : M.run (k + 1) s = .next u) :
    ∃ t, M.step s = .next t ∧ M.run k t = .next u := by
  unfold Host.Core.run at h
  split at h
  case h_1 t hs => exact ⟨t, hs, h⟩
  all_goals cases h

theorem run_one_idle {s : State} (h : ∀ t, step s = .next t → t.phase = .idle) (t : State)
    (ht : Sys2Proof.core.run 1 s = .next t) : t.phase = .idle := by
  obtain ⟨u, hs, hu⟩ := run_succ_eq_next ht
  cases hu
  exact h t hs

/-- 70_reset_and_hazards.md R283, by induction on the outside events still to come. -/
theorem busy_run_comes_to_rest (s : State) (hb : s.phase = .busy) :
    ∃ k, k ≤ s.events.length + 1 ∧ ∀ t, Sys2Proof.core.run k s = .next t → t.phase = .idle := by
  induction hevents : s.events generalizing s with
  | nil =>
    refine ⟨1, Nat.le_refl 1, run_one_idle fun t hs => (step_busy_progress hb hs).resolve_right ?_⟩
    rintro ⟨e, he⟩
    cases hevents.symm.trans he
  | cons e rest ih =>
    by_cases hstep : ∀ t, step s = .next t → t.phase = .idle
    · exact ⟨1, Nat.le_add_left 1 _, run_one_idle hstep⟩
    · obtain ⟨t, hs, ht⟩ : ∃ t, step s = .next t ∧ t.phase ≠ .idle := by simpa using hstep
      obtain ⟨e', he⟩ := (step_busy_progress hb hs).resolve_left ht
      cases hevents.symm.trans he
      obtain ⟨k, hk, hrun⟩ := ih t (Phase.eq_busy_of_ne_idle ht) rfl
      refine ⟨k + 1, Nat.succ_le_succ hk, fun u hu => ?_⟩
      obtain ⟨t', hs', hu⟩ := run_succ_eq_next hu
      cases hs.symm.trans hs'
      exact hrun u hu

end Sys2Proof.Machine
end

section
/-! PROOFS. The statements of 43_engine.md about the sequencer: O5 to O9. -/

namespace Sys2Proof

open Machine

/-- Settles O5: the write reaches CMD in either phase, and each clause is one way of acceptance. -/
theorem commandWriteFollowsAcceptance : Obligations.CommandWriteFollowsAcceptance := by
  intro s w rest h
  rw [step_writeCommand h]
  refine ⟨fun hf => congrArg Host.Outcome.next ?_, fun hf hb => congrArg Host.Outcome.next ?_,
    fun hf hi why hd => congrArg Host.Outcome.next ?_, fun hf hi i hd => congrArg Host.Outcome.next ?_⟩
  · exact writeCommand_faulted (s := { s with events := rest }) hf w
  · exact writeCommand_busy (s := { s with events := rest }) hf hb w
  · exact writeCommand_illegal (s := { s with events := rest }) hf hi hd
  · exact writeCommand_command (s := { s with events := rest }) hf hi hd

/-- Settles O6: both are the core's own move. -/
theorem stepCompletesThePendingCommand : Obligations.StepCompletesThePendingCommand :=
  fun _ _ hwf hb => ⟨step_complete hwf hb, step_no_event hwf hb⟩

/-- Settles O7: the first step accepts the command, and the second completes what is pending. -/
theorem writtenCommandRunsAsDecoded : Obligations.WrittenCommandRunsAsDecoded := by
  intro s w i rest h hi hf hd
  refine ⟨acceptCommand i { s with events := .complete :: rest }, ?_, rfl,
    step_complete (s := acceptCommand i { s with events := .complete :: rest }) h.1 rfl rfl⟩
  rw [step_writeCommand h, writeCommand_command (s := { s with events := .complete :: rest }) hf hi hd]

/-- Settles O8: the placed word is accepted and its completion is the next event. -/
theorem placedWordRunsNext : Obligations.PlacedWordRunsNext := by
  intro s n i hwf hn hd
  rw [← tableWord_of_lt hn] at hd
  refine ⟨decodeTableWord_of_command hd, ?_⟩
  rw [State.withFetchWord, placeCommand_of_command hd]
  exact step_complete (s := { acceptCommand i s with events := .complete :: s.events }) hwf rfl rfl

/-- Settles O9: every step before the command ends takes one of the outside events. -/
theorem acceptedCommandCompletes : Obligations.AcceptedCommandCompletes := busy_run_comes_to_rest

end Sys2Proof
end

section
/-! PROOFS. Which violated check ends a command (60_exceptions.md R246), and what becomes of FAULT, ERR_FAIL and CAUSE (R244,
R245). -/

namespace Sys2Proof.Machine

/-! ### The checks -/

section

variable {s : State} {n : Nat} {code : Cause}

theorem rateAcceptable_eq_false_iff (r : Word) :
    rateAcceptable r = false ↔ F32.isNaN r = true ∨ F32.isFinite r = false ∨ F32.units r ≤ 0 := by
  simp only [rateAcceptable, Bool.and_eq_false_iff, Bool.not_eq_false', decide_eq_false_iff_not, not_lt, or_assoc]

theorem maxBlockAcceptable_eq_false_iff (p : Params) (m : Word) :
    maxBlockAcceptable p m = false ↔ m.toNat = 0 ∨ p.bufCap < m.toNat := by
  rw [maxBlockAcceptable, Bool.and_eq_false_iff, decide_eq_false_iff_not, decide_eq_false_iff_not, not_not, Nat.not_le]

theorem execPrepare_of_rate_invalid (hr : rateAcceptable s.pend.rate = false) :
    execPrepare s = .next (s.endedBy .rateInvalid) := by
  simp [execPrepare, hr, violate_eq_endedBy]

theorem execPrepare_of_maxBlock_invalid (hr : rateAcceptable s.pend.rate = true)
    (hm : maxBlockAcceptable s.params s.pend.maxBlock = false) : execPrepare s = .next (s.endedBy .maxBlockInvalid) := by
  simp [execPrepare, hr, hm, violate_eq_endedBy]

theorem updateVerdict_of_unprepared (hp : s.status.prepared = false) : s.updateVerdict = .error .notPrepared := by
  simp [State.updateVerdict, hp]

theorem updateVerdict_of_invalid (hp : s.status.prepared = true)
    (hv : validate s.pend.settings s.actRate s.params.buildMode = .fail code ∨
      validate s.pend.settings s.actRate s.params.buildMode = .fault code) : s.updateVerdict = .error code := by
  obtain hv | hv := hv <;> simp [State.updateVerdict, hp, hv]

theorem execProcess_of_unprepared (hp : s.status.prepared = false) :
    execProcess n s = .next (s.endedBy .notPrepared) := by
  simp [execProcess, hp, violate_eq_endedBy]

theorem execProcess_of_too_long (hp : s.status.prepared = true) (hn : s.actMax.toNat < n) :
    execProcess n s = .next (s.endedBy .blockTooLong) := by
  simp [execProcess, hp, hn, violate_eq_endedBy]

theorem execProcess_of_error (hn : n ≤ s.actMax.toNat) (h : s.updateVerdict = .error code) :
    execProcess n s = .next (s.endedBy code) := by
  rw [execProcess_of_fits hn, updateBody_of_error h]

/-- 43_engine.md R211: a debug build clamps nothing. -/
theorem unclamped_of_debug {sane : Settings} {clamped : Bool} (hm : s.params.buildMode = .debug)
    (h : s.updateVerdict = .ok (sane, clamped)) : clamped = false :=
  ((validate_cases _ _ _).2.2 hm sane clamped (updateVerdict_eq_ok_iff.mp h).2).2

end

/-! ### FAULT, ERR_FAIL and CAUSE -/

section

variable {i : Instr} {s t : State}

/-- A command that completes leaves no trace of a violation. -/
theorem Completes.violation_record (h : Completes i s t) :
    t.status.fault = s.status.fault ∧ t.status.errFail = s.status.errFail ∧ t.status.cause = s.status.cause := by
  cases h with
  | nop | prepare | update => exact ⟨rfl, rfl, rfl⟩
  | process => simp [recordClamp]

/-- 43_engine.md R211: no command sets ERR_CLAMP in a debug build. -/
theorem Completes.errClamp_of_debug (h : Completes i s t) (hm : s.params.buildMode = .debug) :
    t.status.errClamp = s.status.errClamp := by
  cases h with
  | nop | prepare => rfl
  | update verdict | process _ verdict => simp [recordClamp, unclamped_of_debug hm verdict]

/-- A violation in the fault state leaves the fault state. -/
theorem endedBy_fault (hf : s.status.fault = true) (code : Cause) : (s.endedBy code).status.fault = true := by
  cases hm : s.params.buildMode with
  | release => rw [endedBy_of_release hm, failCommand_status, hf]
  | debug => rw [endedBy_of_debug hm, raiseFault_status]

theorem exec_fault (hf : s.status.fault = true) (h : exec i s = .next t) : t.status.fault = true := by
  obtain ⟨code, -, rfl⟩ | hc := exec_cases h
  · exact endedBy_fault hf code
  · exact hc.violation_record.1.trans hf

/-- No write clears FAULT: CMD is ignored in the fault state, and STATUS clears bits 4 to 7 only (20_memory.md R67). -/
theorem writeReg_fault (hf : s.status.fault = true) (r : Reg) (v : Word) : (writeReg s r v).status.fault = true := by
  cases r with
  | cmd => rw [writeReg, writeCommand_faulted hf, hf]
  | status | sampleRate | maxBlock | actRate | actMax | id | cap | setting | snap | stage | buffer => exact hf

end

end Sys2Proof.Machine
end

section
/-! PROOFS. The statements of 60_exceptions.md: O13, O19 and O57. -/

namespace Sys2Proof

open Machine

/-- Settles O13: each clause is the first check that is violated. -/
theorem violatedChecksEndCommandsInOrder : Obligations.ViolatedChecksEndCommandsInOrder := by
  intro s n
  refine ⟨fun hr => execPrepare_of_rate_invalid ((rateAcceptable_eq_false_iff _).mpr hr), fun hnan hfinite hpositive hm => ?_,
    fun hp => ⟨execUpdate_of_error (updateVerdict_of_unprepared hp), execProcess_of_unprepared hp⟩,
    execProcess_of_too_long, fun hp code hv => ?_⟩
  · have rate : rateAcceptable s.pend.rate = true := by simp [rateAcceptable, hnan, hfinite, hpositive]
    exact execPrepare_of_maxBlock_invalid rate ((maxBlockAcceptable_eq_false_iff _ _).mpr hm)
  · have verdict := updateVerdict_of_invalid hp hv
    exact ⟨execUpdate_of_error verdict, fun hn => execProcess_of_error hn verdict⟩

/-- Settles O19, by the two ways in which a command that answers can have ended. -/
theorem commandsFailFaultOrComplete : Obligations.CommandsFailFaultOrComplete := by
  intro i s t h
  refine (exec_cases h).imp_right fun hc => ?_
  obtain ⟨hfault, hfail, hcause⟩ := hc.violation_record
  exact ⟨exec_phase h, hfault, hfail, hcause, hc.errClamp_of_debug⟩

/-- Settles O57, by the cases of a step: of all that can happen, only a reset event writes FAULT to 0. -/
theorem faultIsLeftOnlyByReset : Obligations.FaultIsLeftOnlyByReset := by
  intro s t hf h
  obtain ⟨-, ⟨-, -, rfl⟩ | ⟨-, -, hx⟩ | ⟨e, rest, he, hcase⟩⟩ := step_cases h
  · exact .inl hf
  · exact .inl (exec_fault hf hx)
  rcases hcase with ⟨-, -, rfl⟩ | ⟨-, -, hx⟩ | ⟨rfl, -⟩ | ⟨_, _, _, _, -, -, rfl⟩ | ⟨_, _, r, v, -, -, rfl⟩
  · exact .inl hf
  · exact .inl (exec_fault (s := { s with events := rest }) hf hx)
  · exact .inr ⟨rest, he⟩
  · exact .inl hf
  · exact .inl (writeReg_fault (s := { s with events := rest }) hf r v)

end Sys2Proof
end

section
/-! PROOFS. The stages, STATUS and MAX_BLOCK of an instance at reset, as its registers show them (70_reset_and_hazards.md
R271). -/

namespace Sys2Proof.Machine

/-- 10_state.md R32, R33: slots 0, 4 and 5 are the ones that a chain at reset does not bypass. -/
theorem Chain.get_reset (j : Fin 9) : Chain.reset.get j = Stage.reset (decide (j ∉ ([0, 4, 5] : List (Fin 9)))) := by
  fin_cases j <;> rfl

theorem State.stage_resetOf (p : Params) (c : Channel) (j : Fin 9) :
    (State.resetOf p).stage c j = Stage.reset (decide (j ∉ ([0, 4, 5] : List (Fin 9)))) := by
  cases c <;> exact Chain.get_reset j

theorem statusWord_reset : statusWord .idle Status.reset = 0 := by decide

theorem State.toNat_maxBlock_resetOf {p : Params} (h : p.bufCap < 2 ^ 32) : (State.resetOf p).maxBlock.toNat = p.bufCap :=
  (BitVec.toNat_ofNat p.bufCap 32).trans (Nat.mod_eq_of_lt h)

end Sys2Proof.Machine
end

section
/-! PROOFS. The statements of 70_reset_and_hazards.md: O55, O56 and O59. -/

namespace Sys2Proof

open Machine

/-- Settles O55: STATUS, MAX_BLOCK and the 18 stages by their lemmas; every other element is stored as the table writes it. -/
theorem resetValuesAreAsTabled : Obligations.ResetValuesAreAsTabled := by
  intro p hcap
  have unwritten (c : Channel) (i : Nat) : (State.resetOf p).mem.readWord (bufferOffset c i) = none := rfl
  exact ⟨rfl, rfl, rfl, rfl, State.toNat_maxBlock_resetOf hcap, rfl, rfl, statusWord_reset, rfl, rfl, unwritten,
    State.stage_resetOf p⟩

/-- Settles O56: the reset event is taken in any phase, and what it does is `resetMachine`. -/
theorem resetRestoresTheResetState : Obligations.ResetRestoresTheResetState := by
  intro s rest hp he
  calc step s = advance s := step_eq_advance hp
    _ = eventMove .reset { s with events := rest } := advance_cons he
    _ = .next (resetMachine { s with events := rest }) := rfl

/-- Settles O59, by the invariant's own rule for reset. -/
theorem resetMeetsTheInvariant : Obligations.ResetMeetsTheInvariant := fun _ hp => State.Inv.resetOf hp

end Sys2Proof
end
